-- ==== Sys2Proof/Word.lean ====
section
/-! DEFINITION. The word types: a byte of memory, a 32-bit register, a bit sequence in stream order. -/

namespace Sys2Proof

/-- One byte of memory, and one symbol of the Huffman alphabet (00_scope.md R19 "Symbol"). -/
abbrev Byte := BitVec 8

/-- One CSR, one command word, one bus address (10_state.md R27, R43). -/
abbrev Word := BitVec 32

/-- A bit sequence, index 0 first (00_scope.md R13). -/
abbrev Bits := List Bool

/-- The number of addresses of the system memory (20_memory.md R60). -/
abbrev addrCount : Nat := 2 ^ 32

end Sys2Proof
end

