-- ==== Sys2Proof/Config.lean ====
section
/-! DEFINITION. What is fixed for the hardware, and the values the spec leaves free. The platform's parameters
(CSR_BASE, MemOk, the memory kind) are data of a State, see Machine/State.lean. -/

namespace Sys2Proof.Config

/-- The constant value of ID (10_state.md R31). -/
def idValue : Word := 0x4B430100

/-- The constant value of CAPS (10_state.md R50): Huffman and LZ77 present, LZSS absent. -/
def capsValue : Word := 0x00000003

/-- The size of the CSR block in bytes (10_state.md R27). -/
def csrBlockSize : Nat := 0x100

/-- The most internal nodes the tree parser accepts (42_huffman_decode.md R151). -/
def maxInternal : Nat := 255

/-- The byte an address holds before anything has written it: a free value of the address.
DESIGN CHOICE (log 4), safe: nothing in Lean can evaluate it. -/
opaque powerOnByte : Nat → Byte

/-- The n-th free draw of a byte: a DST byte after an error or an abandoned command, or as the host reads it while
BUSY = 1 (93_implementation_defined.md U4, U5, U6). DESIGN CHOICE (log 5), safe: nothing in Lean can evaluate it. -/
opaque freeByte : Nat → Byte

end Sys2Proof.Config
end

