-- ==== Sys2Proof/Machine/Bits.lean ====
section
/-! DEFINITION. Bit sequences and bytes (00_scope.md R13, R14, R16). -/

namespace Sys2Proof.Machine

/-- bitsMSB(v, n): the n low bits of v, most significant first (R13). -/
def bitsMSB (v : Nat) : Nat → Bits
  | 0 => []
  | n + 1 => v.testBit n :: bitsMSB v n

/-- valMSB(s): the number a sequence spells, first bit most significant (R13). -/
def valMSB (s : Bits) : Nat := s.foldl (fun n b => 2 * n + b.toNat) 0

/-- pack(s): byte j is valMSB(s[8j..8j+8)) (R14). Bits after the last whole byte do not occur in a packed sequence. -/
def pack : Bits → List Byte
  | b0 :: b1 :: b2 :: b3 :: b4 :: b5 :: b6 :: b7 :: rest =>
    BitVec.ofNat 8 (valMSB [b0, b1, b2, b3, b4, b5, b6, b7]) :: pack rest
  | _ => []

/-- unpack(B): bit 8j + k is bit 7 − k of B[j] (R14). -/
def unpack (B : List Byte) : Bits := B.flatMap fun b => bitsMSB b.toNat 8

/-- sat32(x) = min(x, 2^32 − 1) (R16), as a register value. -/
def sat32 (x : Nat) : Word := BitVec.ofNat 32 (min x (2 ^ 32 - 1))

end Sys2Proof.Machine
end

