-- ==== Sys2Proof/Machine/HuffmanTree.lean ====
section
/-! DEFINITION. The Huffman tree and its serialized form (10_state.md R52, 30_encoding.md R92), shared by the encoder and
the decoder. -/

namespace Sys2Proof.Machine

/-- A node of the tree (R52): a full binary tree over byte values. -/
inductive Tree where
  | leaf (symbol : Byte)
  | node (left right : Tree)
  deriving DecidableEq, Repr

/-- The number of leaves of a tree. -/
def leafCount : Tree → Nat
  | .leaf _ => 1
  | .node l r => leafCount l + leafCount r

/-- The symbols of a tree, left to right. -/
def leafSymbols : Tree → List Byte
  | .leaf s => [s]
  | .node l r => leafSymbols l ++ leafSymbols r

/-- The preorder serializer (41_huffman_encode.md R133). -/
def serialize : Tree → Bits
  | .leaf s => true :: bitsMSB s.toNat 8
  | .node l r => false :: (serialize l ++ serialize r)

/-- Every leaf with the path that leads to it, left = 0, right = 1, left to right (R135, Walk). -/
def walkCodes : Tree → Bits → List (Byte × Bits)
  | .leaf s, path => [(s, path)]
  | .node l r, path => walkCodes l (path ++ [false]) ++ walkCodes r (path ++ [true])

/-- The code table (R135): root-to-leaf paths; the single leaf of a one-leaf tree has the code [0]. -/
def codeTable : Tree → List (Byte × Bits)
  | .leaf s => [(s, [false])]
  | .node l r => walkCodes (.node l r) []

/-- The code of a symbol in a table. A symbol of the input always has one (R126, R135). -/
def codeOf (table : List (Byte × Bits)) (b : Byte) : Bits := (table.lookup b).getD []

end Sys2Proof.Machine
end

