-- ==== Sys2Proof/Machine/Outcome.lean ====
section
/-! DEFINITION. The outcome of a command (40_command_common.md R109) and its error record (60_exceptions.md R192, R193). -/

namespace Sys2Proof.Machine

/-- The errors a command can end in, one name per row of R193 and per remaining row of R192. -/
inductive CmdError where
  | hdrShort
  | treeTrunc
  | treeTooLarge
  | codeTrunc
  | singleLeafBit1
  | lenNotMult3
  | offsetBeforeStart
  | zeroOffsetCopy
  | illegalCmd
  | srcWrap
  | dstWrap
  | overlap
  | outOverflow
  | busError
  deriving DecidableEq, Repr

/-- STATUS.ERRCODE of an error (R192). -/
def errorCode : CmdError → BitVec 4
  | .hdrShort => 1
  | .treeTrunc => 1
  | .treeTooLarge => 1
  | .codeTrunc => 1
  | .singleLeafBit1 => 1
  | .lenNotMult3 => 1
  | .offsetBeforeStart => 1
  | .zeroOffsetCopy => 1
  | .illegalCmd => 2
  | .srcWrap => 3
  | .dstWrap => 3
  | .overlap => 3
  | .outOverflow => 4
  | .busError => 5

/-- STATUS.DETAIL of an error (R193): 0 where the error has no sub-reason. -/
def errorDetail : CmdError → BitVec 4
  | .hdrShort => 1
  | .treeTrunc => 2
  | .treeTooLarge => 3
  | .codeTrunc => 4
  | .singleLeafBit1 => 5
  | .lenNotMult3 => 6
  | .offsetBeforeStart => 7
  | .zeroOffsetCopy => 8
  | .illegalCmd => 0
  | .srcWrap => 1
  | .dstWrap => 2
  | .overlap => 3
  | .outOverflow => 0
  | .busError => 0

/-- Whether the DST region holds any value after the error: after every error but ILLEGAL_CMD and BAD_RANGE (R114). -/
def errorLeavesDstFree (e : CmdError) : Bool := errorCode e != 2 && errorCode e != 3

/-- What a result function returns: the output bytes with the HUFF_INFO value, or an error with its ERR_INFO value
(00_scope.md R17, R109). -/
abbrev Transform := Except (CmdError × Word) (List Byte × Word)

/-- The outcome of a command (R109). -/
inductive CmdOutcome where
  | ok (out : List Byte) (hinfo : Word)
  | noOp
  | err (e : CmdError) (info : Word)
  deriving DecidableEq, Repr

end Sys2Proof.Machine
end

