-- ==== Sys2Proof/Machine/State.lean ====
section
/-! DEFINITION. The state of the block (40_command_common.md R120), the platform's parameters, the script of what happens
next, and the reasons a run stops. Plain data throughout. -/

namespace Sys2Proof.Machine

/-- The kind of a bus access (60_exceptions.md R197). -/
inductive AccessKind where
  | read
  | write
  deriving DecidableEq, Repr

/-- A range of addresses at which every access of one kind fails: a piece of the platform predicate MemOk. -/
structure BusHole where
  base : Nat
  size : Nat
  kind : AccessKind
  deriving DecidableEq, Repr

/-- A range of addresses that is not normal memory (20_memory.md R72). -/
structure DeviceWindow where
  base : Nat
  size : Nat
  deriving DecidableEq, Repr

/-- The platform's parameters (00_scope.md R10): the model takes them as arguments, so they are data of a State, and no
step writes them (log 6). -/
structure Platform where
  /-- CSR_BASE is 256-byte aligned: it is 256 times this number (R10, D2). -/
  csrPage : BitVec 24
  /-- Where MemOk is false; everywhere else it is true (D20). -/
  holes : List BusHole
  /-- Where memory is not normal (D23). -/
  devices : List DeviceWindow
  deriving DecidableEq, Repr

/-- One move of an agent (R119): a host access, the engine's turn, or a reset. A memory access is one byte; a wider host
access is several (log 20). A CSR access carries its bus address and its width in bytes. -/
inductive Event where
  | csrRead (addr bytes : Nat)
  | csrWrite (addr bytes : Nat) (value : Word)
  | memRead (addr : Word)
  | memWrite (addr : Word) (value : Byte)
  | engine
  | reset
  deriving DecidableEq, Repr

/-- Why a run is refused as a whole (93_implementation_defined.md "Refused"). Each is safe: the run ends. -/
inductive Refusal where
  /-- Raised only by an arm of exec whose command has no meaning yet. Safe. -/
  | notModelled (mnemonic : String)
  /-- Raised by a host CSR access that is not an aligned 32-bit access to the block (10_state.md R28, U1). Safe. -/
  | csrAccess (addr bytes : Nat)
  /-- Raised by a host write to a SRC or DST byte while BUSY = 1 (20_memory.md R77, U2). Safe. -/
  | hostWriteWhileBusy (addr : Nat)
  /-- Raised by the engine's completion of a command with a region on memory that is not normal, or by the reset that
  abandons one (R72, U3; log 8). Safe. -/
  | regionOnDevice
  deriving DecidableEq, Repr

/-- Where the machine around the block stops: a host access to memory of which the spec says nothing (log 9). Both are
raised by the host memory events only, never by a command, and both are safe: the run ends. -/
inductive Fault where
  /-- A host memory access that the platform does not back. -/
  | hostBusError (addr : Nat) (kind : AccessKind)
  /-- A host memory access to a window that is not normal memory. -/
  | hostDeviceAccess (addr : Nat)
  deriving DecidableEq, Repr

/-- The system memory: the bytes something has written, as (address, byte) pairs with strictly rising addresses. A byte
not listed holds the free value of its address (log 4). -/
abbrev Memory := List Host.Cell

/-- The latched operands (10_state.md R51). lat.OP, lat.OB and lat.RSV are fields of `word` (log 15). -/
structure Latch where
  word : Word
  srcBase : Word
  srcLen : Word
  dstBase : Word
  dstCap : Word
  deriving DecidableEq, Repr

/-- The whole state. -/
structure State where
  /-- CTRL.IRQ_EN (10_state.md R32). -/
  irqEn : Bool
  /-- STATUS.BUSY (R34). -/
  busy : Bool
  /-- STATUS.DONE (R35). -/
  done : Bool
  /-- STATUS.ERR (R36). -/
  err : Bool
  /-- STATUS.NOOP (R37). -/
  noop : Bool
  /-- STATUS.OVERRUN (R38). -/
  overrun : Bool
  /-- STATUS.ERRCODE (R39). -/
  errcode : BitVec 4
  /-- STATUS.DETAIL (R40). -/
  detail : BitVec 4
  /-- CMD, all 32 bits as written (R42). -/
  cmd : Word
  /-- SRC_BASE (R43). -/
  srcBase : Word
  /-- SRC_LEN (R44). -/
  srcLen : Word
  /-- DST_BASE (R45). -/
  dstBase : Word
  /-- DST_CAP (R46). -/
  dstCap : Word
  /-- DST_LEN (R47). -/
  dstLen : Word
  /-- ERR_INFO (R48). -/
  errInfo : Word
  /-- HUFF_INFO (R49). -/
  huffInfo : Word
  /-- The latch (R51). -/
  lat : Latch
  /-- The system memory (20_memory.md R60). -/
  mem : Memory
  /-- The refusal mark (40_command_common.md R120), with its reason. -/
  refusal : Option Refusal
  /-- The platform's parameters (R10, log 6). -/
  platform : Platform
  /-- The model's own: what the agents do next, in order (log 1). -/
  agenda : List Event
  /-- The model's own: the value the last host read returned on the bus (log 10). -/
  readData : Word
  /-- The model's own: how many free bytes have been drawn (log 5). -/
  draws : Nat
  deriving DecidableEq, Repr

/-- Right after reset (70_reset_and_hazards.md R215): every CSR and the latch 0, nothing running, nothing listed in
memory. The platform, the agenda, readData and draws are no state of the block; their values here are a DESIGN CHOICE
(log 1, 5, 6, 10). -/
def State.reset : State where
  irqEn := false
  busy := false
  done := false
  err := false
  noop := false
  overrun := false
  errcode := 0
  detail := 0
  cmd := 0
  srcBase := 0
  srcLen := 0
  dstBase := 0
  dstCap := 0
  dstLen := 0
  errInfo := 0
  huffInfo := 0
  lat := ⟨0, 0, 0, 0, 0⟩
  mem := []
  refusal := none
  platform := ⟨0, [], []⟩
  agenda := []
  readData := 0
  draws := 0

end Sys2Proof.Machine
end

