-- ==== Sys2Proof/Machine/Flags.lean ====
section
/-! DEFINITION. The status register, the interrupt output and the HUFF_INFO value (10_state.md R33, R49; 60_exceptions.md
R203). -/

namespace Sys2Proof.Machine

/-- STATUS as the host reads it: the fields of R33 at their places, every reserved bit 0. -/
def statusWord (s : State) : Word :=
  BitVec.ofNat 32 (s.busy.toNat ||| s.done.toNat <<< 1 ||| s.err.toNat <<< 2 ||| s.noop.toNat <<< 3 |||
    s.overrun.toNat <<< 4 ||| s.errcode.toNat <<< 8 ||| s.detail.toNat <<< 16)

/-- CTRL as the host reads it: IRQ_EN in bit 0, every reserved bit 0 (R32). -/
def ctrlWord (s : State) : Word := BitVec.ofNat 32 s.irqEn.toNat

/-- The level of the irq output (R203). -/
def irq (s : State) : Bool := s.irqEn && s.done

/-- A flag after a write-1-to-clear write whose bit is `b` (R27). -/
def w1c (flag b : Bool) : Bool := flag && !b

/-- HUFF_INFO = p | (T << 4) | (n << 16): padding size, tree length in bits, number of leaves (R49, R139, R154). -/
def huffInfoWord (p T n : Nat) : Word := BitVec.ofNat 32 (p ||| T <<< 4 ||| n <<< 16)

end Sys2Proof.Machine
end

