-- ==== Sys2Proof/Syntax.lean ====
section
/-! DEFINITION. The instructions: the four commands of 30_encoding.md R85, one constructor per row of the opcode table. -/

namespace Sys2Proof

/-- A command with its OB field (R83: an unsigned number, 0 to 31). The Huffman commands ignore OB (R87); they keep it
so that every legal word is the encoding of one command (DESIGN CHOICE, log 22, safe). -/
inductive Instr where
  | huffEnc (ob : Nat)
  | huffDec (ob : Nat)
  | lz77Enc (ob : Nat)
  | lz77Dec (ob : Nat)
  deriving DecidableEq, Repr

/-- The OB field of a command. -/
def Instr.ob : Instr → Nat
  | .huffEnc ob => ob
  | .huffDec ob => ob
  | .lz77Enc ob => ob
  | .lz77Dec ob => ob

end Sys2Proof
end

