-- ==== Sys2Proof/WellFormed.lean ====
section
/-! DEFINITION. Which commands the encoding can spell. -/

namespace Sys2Proof

/-- OB is a 5-bit field (30_encoding.md R82, R83). -/
def obFits (ob : Nat) : Bool := decide (ob < 32)

/-- The one check of a command: its OB fits its field. Every value that fits is legal (R87). -/
def Instr.wellFormed (i : Instr) : Bool := obFits i.ob

end Sys2Proof
end

