-- ==== Sys2Proof/Decode.lean ====
section
/-! DEFINITION. The command word: its fields (30_encoding.md R82, R83), the decoder (R84 to R86), total on all words and
refusing by name, and the encoder. -/

namespace Sys2Proof

/-- OP = w[3:0] (R83). -/
def wordOp (w : Word) : Nat := (w.extractLsb' 0 4).toNat

/-- OB = w[12:8] (R83). -/
def wordOb (w : Word) : Nat := (w.extractLsb' 8 5).toNat

/-- RSV = (w[31:13] ≠ 0) or (w[7:4] ≠ 0) (R83). -/
def wordRsv (w : Word) : Bool := w.extractLsb' 13 19 != 0 || w.extractLsb' 4 4 != 0

/-- Why a word is no command (R84, R86). Each of them completes with ILLEGAL_CMD. -/
inductive DecodeError where
  /-- A bit of 31:13 or 7:4 is 1. -/
  | reservedBits
  /-- OP 5 or 6, reserved for the LZSS pair that the source declares and does not define (R86, 00_scope.md R5). -/
  | lzssReserved
  /-- OP 0 or 7 to 15. -/
  | reservedOp
  deriving DecidableEq, Repr

/-- The decoder: the opcode map of R85 on a word without reserved bits. -/
def decodeWord (w : Word) : Except DecodeError Instr :=
  if wordRsv w then .error .reservedBits
  else if wordOp w = 1 then .ok (.huffEnc (wordOb w))
  else if wordOp w = 2 then .ok (.huffDec (wordOb w))
  else if wordOp w = 3 then .ok (.lz77Enc (wordOb w))
  else if wordOp w = 4 then .ok (.lz77Dec (wordOb w))
  else if wordOp w = 5 ∨ wordOp w = 6 then .error .lzssReserved
  else .error .reservedOp

/-- The opcode of a command (R85). -/
def opcodeOf : Instr → Nat
  | .huffEnc _ => 1
  | .huffDec _ => 2
  | .lz77Enc _ => 3
  | .lz77Dec _ => 4

/-- The command word of a command: OB in bits 12:8, OP in bits 3:0, every reserved bit 0 (R82). -/
def encode (i : Instr) : Word := BitVec.ofNat 32 (i.ob <<< 8 ||| opcodeOf i)

/-- The 32-bit word that the low `nbits` bits of `w` spell; a command word has 32 bits and no more (R81). -/
def tableWord (nbits w : Nat) : Option Word :=
  if w % 2 ^ nbits < 2 ^ 32 then some (BitVec.ofNat 32 (w % 2 ^ nbits)) else none

/-- The command this decoder reads from an instruction whose bits are `w`, numbered as the opcode table numbers them.
The word is one 32-bit value; it has no byte order that could be observed (20_memory.md R66). -/
def decodeTableWord (nbits w : Nat) : Option Instr := (tableWord nbits w).bind fun v => (decodeWord v).toOption

end Sys2Proof
end

