-- ==== Sys2Proof/Machine/Operands.lean ====
section
/-! DEFINITION. The operands of a command: the latched buffers (10_state.md R51), the regions (00_scope.md R21), the LZ77
parameter (30_encoding.md R87), and the platform's predicates on addresses. -/

namespace Sys2Proof.Machine

/-- lat.OP (R51). -/
def latOp (l : Latch) : Nat := wordOp l.word

/-- lat.OB (R51). -/
def latOb (l : Latch) : Nat := wordOb l.word

/-- lat.RSV (R51). -/
def latRsv (l : Latch) : Bool := wordRsv l.word

/-- Whether address `a` is one of the `len` addresses from `base` on, with no wrap (20_memory.md R68). -/
def inRange (base len a : Nat) : Bool := decide (base ≤ a) && decide (a < base + len)

/-- Whether two half-open ranges share an address: both non-empty and they intersect (60_exceptions.md R196). -/
def rangesMeet (base len base' len' : Nat) : Bool :=
  decide (0 < len) && decide (0 < len') && decide (base < base' + len') && decide (base' < base + len)

/-- Whether `a` is in the SRC region (R21). -/
def inSrc (l : Latch) (a : Nat) : Bool := inRange l.srcBase.toNat l.srcLen.toNat a

/-- Whether `a` is in the DST region (R21). -/
def inDst (l : Latch) (a : Nat) : Bool := inRange l.dstBase.toNat l.dstCap.toNat a

/-- OB is valid when 1 ≤ OB ≤ 15 (R87). -/
def obValid (ob : Nat) : Bool := decide (1 ≤ ob) && decide (ob ≤ 15)

/-- Wmax(ob) = 2^ob − 1, the largest offset (R87, 43_lz77_encode.md R164). -/
def windowMax (ob : Nat) : Nat := 2 ^ ob - 1

/-- Lmax(ob) = 2^(16 − ob) − 1, the longest copy (R87, R164). -/
def lengthMax (ob : Nat) : Nat := 2 ^ (16 - ob) - 1

/-- CSR_BASE (10_state.md R27). -/
def csrBase (p : Platform) : Nat := p.csrPage.toNat * 256

/-- MemOk(a, kind): no hole of that kind covers a (60_exceptions.md R197). -/
def memOk (p : Platform) (k : AccessKind) (a : Nat) : Bool :=
  p.holes.all fun h => !(h.kind == k && inRange h.base h.size a)

/-- Whether `a` lies in a window that is not normal memory (20_memory.md R72). -/
def onDevice (p : Platform) (a : Nat) : Bool := p.devices.any fun d => inRange d.base d.size a

/-- Whether a region of the latched command lies on memory that is not normal (R72). -/
def regionOnDevice (p : Platform) (l : Latch) : Bool :=
  p.devices.any fun d =>
    rangesMeet d.base d.size l.srcBase.toNat l.srcLen.toNat || rangesMeet d.base d.size l.dstBase.toNat l.dstCap.toNat

/-- The twelve registers of the CSR map (10_state.md R27), and the reserved offsets. -/
inductive Csr where
  | id
  | ctrl
  | status
  | cmd
  | srcBase
  | srcLen
  | dstBase
  | dstCap
  | dstLen
  | errInfo
  | huffInfo
  | caps
  | reserved
  deriving DecidableEq, Repr

/-- The register at an offset of the block (R27). -/
def csrAt (off : Nat) : Csr :=
  if off = 0x00 then .id
  else if off = 0x04 then .ctrl
  else if off = 0x08 then .status
  else if off = 0x0C then .cmd
  else if off = 0x10 then .srcBase
  else if off = 0x14 then .srcLen
  else if off = 0x18 then .dstBase
  else if off = 0x1C then .dstCap
  else if off = 0x20 then .dstLen
  else if off = 0x24 then .errInfo
  else if off = 0x28 then .huffInfo
  else if off = 0x2C then .caps
  else .reserved

/-- The register a CSR access reaches: a 32-bit access at CSR_BASE + off, off a multiple of 4, 0 ≤ off ≤ 0xFC. Any other
access is unspecified (R28). -/
def csrTarget (p : Platform) (addr bytes : Nat) : Option Csr :=
  if bytes = 4 ∧ csrBase p ≤ addr ∧ (addr - csrBase p) % 4 = 0 ∧ addr - csrBase p < Config.csrBlockSize then
    some (csrAt (addr - csrBase p))
  else none

end Sys2Proof.Machine
end

