-- ==== Sys2Proof/Machine/Ops.lean ====
section
/-! DEFINITION. The named operations over memory and registers: one byte and one region of memory, CSR reads and writes,
issue, the check order around a transform, completion (the block's taking of an exception, 60_exceptions.md R204) and the
return from it, reset. -/

namespace Sys2Proof.Machine

/-! ### Memory -/

/-- The byte listed at an address, none where nothing is listed. -/
def memLookup (m : Memory) (a : Nat) : Option Byte := (m.find? fun c => c.1 == a).map (·.2)

/-- MemRead(a, 1): the listed byte, or the free value of an address nothing has written (log 4). -/
def memByte (m : Memory) (a : Nat) : Byte := (memLookup m a).getD (Config.powerOnByte a)

/-- The bytes at `n` addresses from `a` on, ascending (20_memory.md R62). -/
def memBytes (m : Memory) (a : Nat) : Nat → List Byte
  | 0 => []
  | n + 1 => memByte m a :: memBytes m (a + 1) n

/-- The cells that hold `bs` from address `a` on. -/
def cellsFrom (a : Nat) : List Byte → List Host.Cell
  | [] => []
  | b :: bs => (a, b) :: cellsFrom (a + 1) bs

/-- The memory with the `n` addresses from `a` on holding exactly `cells`, every other address as before. -/
def memSplice (m : Memory) (a n : Nat) (cells : List Host.Cell) : Memory :=
  m.filter (fun c => decide (c.1 < a)) ++ cells ++ m.filter (fun c => decide (a + n ≤ c.1))

/-- Writing `bs` to ascending addresses from `a` on (40_command_common.md R113). -/
def memWriteBytes (m : Memory) (a : Nat) (bs : List Byte) : Memory := memSplice m a bs.length (cellsFrom a bs)

/-- The canonical form: addresses strictly rising, all inside the address space. -/
abbrev Memory.wf (m : Memory) : Prop := m.Pairwise (fun c d => c.1 < d.1) ∧ ∀ c ∈ m, c.1 < addrCount

/-- How many bytes of the DST region lie inside the address space. It is the whole region except for a command that
fails with DST_WRAP (60_exceptions.md R196; DEDUCED, log 12). -/
def dstSpan (l : Latch) : Nat := min l.dstCap.toNat (addrCount - l.dstBase.toNat)

/-- The cells of `n` DST addresses from `a` on when each holds any value: a free draw, except that a byte of the SRC
region keeps what it held (70_reset_and_hazards.md R217; DEDUCED, log 11). -/
def freeCells (l : Latch) (m : Memory) (draw a : Nat) : Nat → List Host.Cell
  | 0 => []
  | n + 1 =>
    let rest := freeCells l m (draw + 1) (a + 1) n
    if inSrc l a then
      match memLookup m a with
      | some b => (a, b) :: rest
      | none => rest
    else (a, Config.freeByte draw) :: rest

/-- The memory in which each byte of the DST region holds any value (R114, R217; U5, U6). -/
def freeDst (l : Latch) (draw : Nat) (m : Memory) : Memory :=
  memSplice m l.dstBase.toNat (dstSpan l) (freeCells l m draw l.dstBase.toNat (dstSpan l))

/-- The lowest of `n` addresses from `a` on at which an access of the kind fails (R197). -/
def firstBusFault (p : Platform) (k : AccessKind) (a : Nat) : Nat → Option Nat
  | 0 => none
  | n + 1 => if memOk p k a then firstBusFault p k (a + 1) n else some a

/-! ### Refusal -/

/-- A refused access: the run is refused as a whole and the mark is set for good (R119, R120; log 7). -/
def refuse (r : Refusal) (s : State) : State := { s with refusal := some r }

/-! ### Issue -/

/-- Issuing the word w (40_command_common.md R107). -/
def issue (w : Word) (s : State) : State :=
  { s with
    cmd := w
    lat := ⟨w, s.srcBase, s.srcLen, s.dstBase, s.dstCap⟩
    done := false
    err := false
    noop := false
    errcode := 0
    detail := 0
    dstLen := 0
    errInfo := 0
    huffInfo := 0
    busy := true }

/-- The command word the engine runs: the latched one (10_state.md R51). -/
def fetchWord (s : State) : Word := s.lat.word

/-- The state in which the very next step runs the word `w`: `w` issued, no agenda before it, the run not refused
(log 17). -/
def placeCommand (w : Word) (s : State) : State := { issue w s with agenda := [], refusal := none }

/-! ### Completion: the block's taking of an exception -/

/-- The CSR updates of completion (R115). -/
def publish (o : CmdOutcome) (s : State) : State :=
  match o with
  | .ok out hinfo =>
    { s with
      dstLen := BitVec.ofNat 32 out.length
      huffInfo := hinfo
      errcode := 0
      detail := 0
      errInfo := 0
      busy := false
      done := true }
  | .noOp => { s with dstLen := 0, noop := true, busy := false, done := true }
  | .err e info =>
    { s with
      dstLen := 0
      err := true
      errcode := errorCode e
      detail := errorDetail e
      errInfo := info
      busy := false
      done := true }

/-- The memory after a completion: the output written, or any value in the DST region, or nothing changed (R114). -/
def completionMem (o : CmdOutcome) (s : State) : Memory :=
  match o with
  | .ok out _ => memWriteBytes s.mem s.lat.dstBase.toNat out
  | .noOp => s.mem
  | .err e _ => if errorLeavesDstFree e then freeDst s.lat s.draws s.mem else s.mem

/-- The draw counter after a completion. -/
def completionDraws (o : CmdOutcome) (s : State) : Nat :=
  match o with
  | .err e _ => if errorLeavesDstFree e then s.draws + dstSpan s.lat else s.draws
  | .ok _ _ => s.draws
  | .noOp => s.draws

/-- Completion, one atomic step: every DST write, then the CSR updates (R115; 60_exceptions.md R204). -/
def complete (o : CmdOutcome) (s : State) : State :=
  { publish o s with mem := completionMem o s, draws := completionDraws o s }

/-- The acknowledgement, the block's return from an exception (60_exceptions.md R206): a host write of v to STATUS clears
the flags whose bit is 1 and nothing else (10_state.md R41). -/
def ackStatus (v : Word) (s : State) : State :=
  { s with
    done := w1c s.done (v.getLsbD 1)
    err := w1c s.err (v.getLsbD 2)
    noop := w1c s.noop (v.getLsbD 3)
    overrun := w1c s.overrun (v.getLsbD 4) }

/-! ### The check order around a transform -/

/-- Step 3 of R110: SRC_WRAP, DST_WRAP, OVERLAP in this order, on exact sums (R196). -/
def rangeError (l : Latch) : Option CmdError :=
  if addrCount < l.srcBase.toNat + l.srcLen.toNat then some .srcWrap
  else if addrCount < l.dstBase.toNat + l.dstCap.toNat then some .dstWrap
  else if rangesMeet l.srcBase.toNat l.srcLen.toNat l.dstBase.toNat l.dstCap.toNat then some .overlap
  else none

/-- The source bytes of the latched command (R62). -/
def sourceBytes (s : State) : List Byte := memBytes s.mem s.lat.srcBase.toNat s.lat.srcLen.toNat

/-- Steps 4 to 7 of R110: read the whole source, transform it, check the capacity, check the writes. -/
def transformOutcome (F : List Byte → Transform) (s : State) : CmdOutcome :=
  match firstBusFault s.platform .read s.lat.srcBase.toNat s.lat.srcLen.toNat with
  | some a => .err .busError (BitVec.ofNat 32 a)
  | none =>
    match F (sourceBytes s) with
    | .error (e, info) => .err e info
    | .ok (out, hinfo) =>
      if s.lat.dstCap.toNat < out.length then .err .outOverflow (sat32 out.length)
      else
        match firstBusFault s.platform .write s.lat.dstBase.toNat out.length with
        | some a => .err .busError (BitVec.ofNat 32 a)
        | none => .ok out hinfo

/-- A legal command that is no no-op: steps 3 to 7 of R110 and the completion. A command that would go on to touch memory
with a region that is not normal memory is refused (20_memory.md R72, log 8). -/
def runCommand (F : List Byte → Transform) (s : State) : State :=
  match rangeError s.lat with
  | some e => complete (.err e 0) s
  | none => if regionOnDevice s.platform s.lat then refuse .regionOnDevice s else complete (transformOutcome F s) s

/-- An LZ77 command: the no-op of R110 step 2 where OB is invalid, else as `runCommand`. -/
def runLz77 (F : List Byte → Nat → Transform) (ob : Nat) (s : State) : State :=
  if obValid ob then runCommand (fun B => F B ob) s else complete .noOp s

/-! ### CSR accesses -/

/-- The value a CSR read returns (10_state.md R27 to R50). -/
def csrValue (c : Csr) (s : State) : Word :=
  match c with
  | .id => Config.idValue
  | .ctrl => ctrlWord s
  | .status => statusWord s
  | .cmd => s.cmd
  | .srcBase => s.srcBase
  | .srcLen => s.srcLen
  | .dstBase => s.dstBase
  | .dstCap => s.dstCap
  | .dstLen => s.dstLen
  | .errInfo => s.errInfo
  | .huffInfo => s.huffInfo
  | .caps => Config.capsValue
  | .reserved => 0

/-- The effect of a CSR write (R29, R30, R32, R41 to R46). -/
def csrStore (c : Csr) (v : Word) (s : State) : State :=
  match c with
  | .ctrl => { s with irqEn := v.getLsbD 0 }
  | .status => ackStatus v s
  | .cmd => if s.busy then { s with overrun := true } else issue v s
  | .srcBase => { s with srcBase := v }
  | .srcLen => { s with srcLen := v }
  | .dstBase => { s with dstBase := v }
  | .dstCap => { s with dstCap := v }
  | .id => s
  | .dstLen => s
  | .errInfo => s
  | .huffInfo => s
  | .caps => s
  | .reserved => s

/-- A host CSR read: no effect on the block; the value goes back on the bus (R28). -/
def hostCsrRead (addr bytes : Nat) (s : State) : State :=
  match csrTarget s.platform addr bytes with
  | some c => { s with readData := csrValue c s }
  | none => refuse (.csrAccess addr bytes) s

/-- A host CSR write (R28). -/
def hostCsrWrite (addr bytes : Nat) (v : Word) (s : State) : State :=
  match csrTarget s.platform addr bytes with
  | some c => csrStore c v s
  | none => refuse (.csrAccess addr bytes) s

/-! ### Host memory accesses -/

/-- What a host read of address `a` returns: any value for a DST byte while BUSY = 1, else what memory holds
(20_memory.md R77). A byte that is in both regions is a SRC byte (DEDUCED, log 11). -/
def hostMemRead (a : Nat) (s : State) : State :=
  if s.busy && inDst s.lat a && !inSrc s.lat a then
    { s with readData := (Config.freeByte s.draws).zeroExtend 32, draws := s.draws + 1 }
  else { s with readData := (memByte s.mem a).zeroExtend 32 }

/-- Whether a host write of address `a` is refused: a byte of either region while BUSY = 1 (R77, U2). -/
def regionOwned (a : Nat) (s : State) : Bool := s.busy && (inSrc s.lat a || inDst s.lat a)

/-- A host write of one byte (R77). -/
def hostMemWrite (a : Nat) (b : Byte) (s : State) : State := { s with mem := memWriteBytes s.mem a [b] }

/-- Why a host memory access has no effect the spec gives: it reaches a window that is not normal memory, or the platform
does not back it (log 9). -/
def hostMemFault (k : AccessKind) (a : Nat) (s : State) : Option Fault :=
  if onDevice s.platform a then some (.hostDeviceAccess a)
  else if memOk s.platform k a then none
  else some (.hostBusError a k)

/-! ### Reset -/

/-- The effects of a reset on the block (70_reset_and_hazards.md R214, R217, R218): every CSR and the latch at its reset
value; a running command is abandoned and its DST region holds any value (every abandoned command's: DEDUCED, log 13); all
other memory, the refusal mark, the platform and what is not the block's stay. Whether the run is then refused for an
abandoned command's device region is `resetStep`'s (log 8). -/
def resetBlock (s : State) : State :=
  { State.reset with
    mem := if s.busy then freeDst s.lat s.draws s.mem else s.mem
    draws := if s.busy then s.draws + dstSpan s.lat else s.draws
    refusal := s.refusal
    platform := s.platform
    agenda := s.agenda
    readData := s.readData }

/-- Whether a latched command goes on to touch memory: it is legal, no no-op, and its regions are in range (40_command_common.md
R110, steps 1 to 3). -/
def touchesMemory (l : Latch) : Bool :=
  (rangeError l).isNone &&
    match decodeWord l.word with
    | .ok (.huffEnc _) => true
    | .ok (.huffDec _) => true
    | .ok (.lz77Enc ob) => obValid ob
    | .ok (.lz77Dec ob) => obValid ob
    | .error _ => false

/-- Whether a running command that touches memory has a region on memory that is not normal (20_memory.md R72). -/
def runsOnDevice (s : State) : Bool := s.busy && touchesMemory s.lat && regionOnDevice s.platform s.lat

/-- The reset step (R214). A command it abandons may already have accessed its regions (R217); where one of them lies on
memory that is not normal, the run is refused (20_memory.md R72, U3). When R72's refusal falls is the model's choice
(DEDUCED, log 8): the mark is set here, beside the reset's own effects, as it is at a completion. -/
def resetStep (s : State) : State :=
  if runsOnDevice s then refuse .regionOnDevice (resetBlock s) else resetBlock s

end Sys2Proof.Machine
end

