-- ==== Sys2Proof/Machine/HuffmanDecode.lean ====
section
/-! DEFINITION. HUFF_DEC (42_huffman_decode.md). The bits still to read, up to the limit E, are held as a list beside the
cursor: a bit is read only below the limit (R147, R149). -/

namespace Sys2Proof.Machine

/-- The parser's cursor object (10_state.md R55): the index of the next bit, the bits from there up to the limit, and the
counts of nodes parsed. -/
structure ParseState where
  cur : Nat
  rest : Bits
  nint : Nat
  nleaves : Nat
  deriving DecidableEq, Repr

/-- ReadTreeBit (R150). -/
def readTreeBit (st : ParseState) : Except (CmdError × Word) (Bool × ParseState) :=
  match st.rest with
  | [] => .error (.treeTrunc, sat32 st.cur)
  | b :: rest => .ok (b, { st with cur := st.cur + 1, rest := rest })

/-- The symbol of a leaf: `n` more bits after the value `v` (R150). -/
def readSymbol : Nat → Nat → ParseState → Except (CmdError × Word) (Nat × ParseState)
  | 0, v, st => .ok (v, st)
  | n + 1, v, st =>
    match readTreeBit st with
    | .error e => .error e
    | .ok (b, st) => readSymbol n (2 * v + b.toNat) st

/-- ParseNode (R150, R151). `fuel` bounds the depth: at most 255 internal nodes can lie above a node, so 256 is never used
up and the fuel-less case never shows (DEDUCED, log 25). -/
def parseNode : Nat → ParseState → Except (CmdError × Word) (Tree × ParseState)
  | 0, st => .error (.treeTooLarge, sat32 st.cur)
  | fuel + 1, st =>
    match readTreeBit st with
    | .error e => .error e
    | .ok (true, st1) =>
      match readSymbol 8 0 st1 with
      | .error e => .error e
      | .ok (v, st2) => .ok (.leaf (BitVec.ofNat 8 v), { st2 with nleaves := st2.nleaves + 1 })
    | .ok (false, st1) =>
      if Config.maxInternal < st1.nint + 1 then .error (.treeTooLarge, sat32 st.cur)
      else
        match parseNode fuel { st1 with nint := st1.nint + 1 } with
        | .error e => .error e
        | .ok (l, st2) =>
          match parseNode fuel st2 with
          | .error e => .error e
          | .ok (r, st3) => .ok (.node l r, st3)

/-- The payload of a one-leaf tree: one 0 bit per symbol (R152, D26). -/
def mapSingleLeaf (v : Byte) : Nat → Bits → Except (CmdError × Word) (List Byte)
  | _, [] => .ok []
  | cur, b :: rest =>
    if b then .error (.singleLeafBit1, sat32 cur)
    else
      match mapSingleLeaf v (cur + 1) rest with
      | .error e => .error e
      | .ok out => .ok (v :: out)

/-- The payload of a larger tree, whose root has the children l and r (R152): walk from the root, 0 to the left, 1 to the
right, emit at a leaf and restart. The walk stands at the node with the children l' and r'; `between` says that it stands
at the root between two symbols, where the payload may end. -/
def mapWalk (l r : Tree) : Bool → Tree → Tree → Nat → Bits → Except (CmdError × Word) (List Byte)
  | between, _, _, cur, [] => if between then .ok [] else .error (.codeTrunc, sat32 cur)
  | _, l', r', cur, b :: rest =>
    match if b then r' else l' with
    | .node l'' r'' => mapWalk l r false l'' r'' (cur + 1) rest
    | .leaf v =>
      match mapWalk l r true l r (cur + 1) rest with
      | .error e => .error e
      | .ok out => .ok (v :: out)

/-- MapSymbols (R152): the payload from index `cur` on. -/
def mapSymbols (root : Tree) (cur : Nat) (rest : Bits) : Except (CmdError × Word) (List Byte) :=
  match root with
  | .leaf v => mapSingleLeaf v cur rest
  | .node l r => mapWalk l r true l r cur rest

/-- The bits after the padding field, up to the limit E = N − p (R148, R149). -/
def bodyBits (s : Bits) : Bits := (s.take (s.length - valMSB (s.take 3))).drop 3

/-- HuffDec(B) (R153). -/
def huffDecode (B : List Byte) : Transform :=
  let s := unpack B
  if s.length < 3 then .error (.hdrShort, sat32 s.length)
  else
    match parseNode (Config.maxInternal + 1) ⟨3, bodyBits s, 0, 0⟩ with
    | .error e => .error e
    | .ok (root, st) =>
      match mapSymbols root st.cur st.rest with
      | .error e => .error e
      | .ok out => .ok (out, huffInfoWord (valMSB (s.take 3)) (st.cur - 3) st.nleaves)

/-- HUFF_DEC (R153): OB is ignored. -/
def execHuffDec (_ob : Nat) (s : State) : Host.Outcome State Fault Refusal := .next (runCommand huffDecode s)

end Sys2Proof.Machine
end

