-- ==== Sys2Proof/Machine/HuffmanEncode.lean ====
section
/-! DEFINITION. HUFF_ENC (41_huffman_encode.md). Counts and weights are exact numbers: none passes 32 bits (R125, R132;
DEDUCED, log 14). -/

namespace Sys2Proof.Machine

/-- The 256 symbols in ascending order (00_scope.md R6, R10). -/
def allSymbols : List Byte := (List.range 256).map (BitVec.ofNat 8)

/-- The frequency analyzer (R124): each symbol with its number of occurrences. -/
def freqCount (B : List Byte) : List (Byte × Nat) := allSymbols.map fun s => (s, B.count s)

/-- The leaf set (R126): the symbols that occur, ascending, with their counts; the single symbol 0x00 with weight 0 for
empty input (D25). -/
def leafSet (B : List Byte) : List (Byte × Nat) :=
  match (freqCount B).filter (fun e => decide (0 < e.2)) with
  | [] => [(0, 0)]
  | e :: es => e :: es

/-- An entry of the priority queue: a node with its key (weight, seq) (10_state.md R54). -/
structure QueueEntry where
  weight : Nat
  seq : Nat
  node : Tree
  deriving DecidableEq, Repr

/-- Keys are compared lexicographically (R129). -/
def keyLess (x y : QueueEntry) : Bool :=
  decide (x.weight < y.weight) || (x.weight == y.weight && decide (x.seq < y.seq))

/-- Insert into a queue kept in ascending order of key, so that removeMin takes its head (R128). -/
def queueInsert (x : QueueEntry) : List QueueEntry → List QueueEntry
  | [] => [x]
  | y :: ys => if keyLess x y then x :: y :: ys else y :: queueInsert x ys

/-- Seed the queue: the k-th leaf has seq k (R127). -/
def seedQueue : List (Byte × Nat) → Nat → List QueueEntry → List QueueEntry
  | [], _, q => q
  | (s, w) :: es, seq, q => seedQueue es (seq + 1) (queueInsert ⟨w, seq, .leaf s⟩ q)

/-- Merge the two least nodes until one is left: the first removed is the left child (R128). `fuel` bounds the merges: a
queue of n entries needs n − 1 of them (R130). -/
def mergeQueue : Nat → Nat → List QueueEntry → Tree
  | fuel + 1, seq, a :: b :: q =>
    mergeQueue fuel (seq + 1) (queueInsert ⟨a.weight + b.weight, seq, .node a.node b.node⟩ q)
  | _, _, a :: _ => a.node
  | _, _, [] => .leaf 0

/-- The priority-queue tree builder (R128). The queue is never empty (R126), so the leaf `mergeQueue` gives for an empty
queue never shows (DEDUCED, log 25). -/
def buildTree (leaves : List (Byte × Nat)) : Tree :=
  mergeQueue leaves.length leaves.length (seedQueue leaves 0 [])

/-- The tree HUFF_ENC builds for an input. -/
def huffTree (B : List Byte) : Tree := buildTree (leafSet B)

/-- The payload: the code of each input byte in original order (30_encoding.md R94). -/
def payloadBits (table : List (Byte × Bits)) (B : List Byte) : Bits := B.flatMap (codeOf table)

/-- The padding size for a stream of `n` bits (R91, R137). -/
def padSize (n : Nat) : Nat := (8 - n % 8) % 8

/-- The bitstream writer (R137): padding field, tree, payload, padding, packed. -/
def writeStream (treeBits payload : Bits) : List Byte × Nat :=
  let p := padSize (3 + treeBits.length + payload.length)
  (pack (bitsMSB p 3 ++ treeBits ++ payload ++ List.replicate p false), p)

/-- HuffEnc(B) (R138). -/
def huffEncode (B : List Byte) : Transform :=
  let root := huffTree B
  let treeBits := serialize root
  let stream := writeStream treeBits (payloadBits (codeTable root) B)
  .ok (stream.1, huffInfoWord stream.2 treeBits.length (leafSet B).length)

/-- HUFF_ENC (R138): OB is ignored. -/
def execHuffEnc (_ob : Nat) (s : State) : Host.Outcome State Fault Refusal := .next (runCommand huffEncode s)

end Sys2Proof.Machine
end

