-- ==== Sys2Proof/Machine/Lz77Decode.lean ====
section
/-! DEFINITION. LZ77_DEC (44_lz77_decode.md), and the unpacking of a triple (30_encoding.md R97). The output is held last
byte first while it grows, so that the byte `offset` back is at index offset − 1 at every byte of a copy (R187). -/

namespace Sys2Proof.Machine

/-- The 16-bit word of a triple (R97). -/
def tripleWord (b0 b1 : Byte) : Nat := b0.toNat <<< 8 ||| b1.toNat

/-- The offset of a triple (R97). -/
def tripleOffset (ob : Nat) (b0 b1 : Byte) : Nat := tripleWord b0 b1 >>> (16 - ob)

/-- The length of a triple (R97). -/
def tripleLength (ob : Nat) (b0 b1 : Byte) : Nat := tripleWord b0 b1 &&& (2 ^ (16 - ob) - 1)

/-- The forward copy, one byte at a time (R187): each byte is the one `offset` back from the end of what is already
written. -/
def copyBack (offset : Nat) : Nat → List Byte → List Byte
  | 0, outRev => outRev
  | n + 1, outRev => copyBack offset n (outRev.getD (offset - 1) 0 :: outRev)

/-- The check of a triple at byte offset `t` before any of its bytes is appended (R186). A length of 0 is not checked
(R185). -/
def tripleError (offset length outLen t : Nat) : Option (CmdError × Word) :=
  if length = 0 then none
  else if offset = 0 then some (.zeroOffsetCopy, sat32 t)
  else if outLen < offset then some (.offsetBeforeStart, sat32 t)
  else none

/-- The decoder's walk over the triples from byte offset `t` on (R184, R185). -/
def decodeWalk (ob : Nat) : Nat → List Byte → List Byte → Except (CmdError × Word) (List Byte)
  | t, outRev, b0 :: b1 :: literal :: rest =>
    match tripleError (tripleOffset ob b0 b1) (tripleLength ob b0 b1) outRev.length t with
    | some e => .error e
    | none => decodeWalk ob (t + 3) (literal :: copyBack (tripleOffset ob b0 b1) (tripleLength ob b0 b1) outRev) rest
  | _, outRev, _ => .ok outRev.reverse

/-- Lz77Dec(B, ob) (R184): the length is checked before any triple is decoded (R180). -/
def lz77Decode (B : List Byte) (ob : Nat) : Transform :=
  if B.length % 3 = 0 then
    match decodeWalk ob 0 [] B with
    | .error e => .error e
    | .ok out => .ok (out, 0)
  else .error (.lenNotMult3, sat32 (B.length - B.length % 3))

/-- LZ77_DEC (R184). -/
def execLz77Dec (ob : Nat) (s : State) : Host.Outcome State Fault Refusal := .next (runLz77 lz77Decode ob s)

end Sys2Proof.Machine
end

