-- ==== Sys2Proof/Machine/Lz77Encode.lean ====
section
/-! DEFINITION. LZ77_ENC (43_lz77_encode.md), and the packing of a triple (30_encoding.md R96). The window index is held as
the suffixes of the input that start at the positions already passed, nearest first: the content of R165 in a form of our
own, which R165 allows. -/

namespace Sys2Proof.Machine

/-- A triple as 3 bytes: W = (offset << (16 − ob)) | length, high byte first, then the literal (R96). -/
def packTriple (ob offset length : Nat) (literal : Byte) : List Byte :=
  let W := offset <<< (16 - ob) ||| length
  [BitVec.ofNat 8 (W >>> 8), BitVec.ofNat 8 (W &&& 0xFF), literal]

/-- The choice of the match finder: how far back, and how many bytes; (0, 0) for no match (R167). -/
structure Match where
  offset : Nat
  length : Nat
  deriving DecidableEq, Repr

/-- ML (R166): how many of the first `cap` bytes of two suffixes agree. -/
def matchLength : Nat → List Byte → List Byte → Nat
  | cap + 1, x :: xs, y :: ys => if x = y then matchLength cap xs ys + 1 else 0
  | _, _, _ => 0

/-- The match finder's scan (R171): the suffixes of the window nearest first, the nearest at distance `d`; a candidate
starts with the byte at hand (R165) and replaces the best only when strictly longer, so the nearest wins ties (R167). -/
def scanWindow (cap : Nat) (here : List Byte) : List (List Byte) → Nat → Match → Match
  | [], _, best => best
  | past :: more, d, best =>
    let k := if past.head? = here.head? then matchLength cap past here else 0
    scanWindow cap here more (d + 1) (if best.length < k then ⟨d, k⟩ else best)

/-- The match at the position whose suffix is `here`, with the positions passed in `back` (R165 to R167): the window is
the nearest Wmax positions, and the cap keeps one byte for the literal. -/
def findMatch (ob : Nat) (back : List (List Byte)) (here : List Byte) : Match :=
  scanWindow (min (lengthMax ob) (here.length - 1)) here (back.take (windowMax ob)) 1 ⟨0, 0⟩

/-- Register `n` positions and move past them (R172). -/
def passPositions : Nat → List (List Byte) → List Byte → List (List Byte) × List Byte
  | n + 1, back, x :: xs => passPositions n ((x :: xs) :: back) xs
  | _, back, here => (back, here)

/-- The encoder's walk (R171): one triple a step, then on past the match and its literal. Each step passes at least one
byte, so `fuel` = the input's length is enough (R172). -/
def encodeWalk (ob : Nat) : Nat → List (List Byte) → List Byte → List Byte
  | fuel + 1, back, x :: xs =>
    let m := findMatch ob back (x :: xs)
    let next := passPositions (m.length + 1) back (x :: xs)
    packTriple ob m.offset m.length ((x :: xs).getD m.length 0) ++ encodeWalk ob fuel next.1 next.2
  | _, _, _ => []

/-- Lz77Enc(data, ob) (R171). -/
def lz77Encode (data : List Byte) (ob : Nat) : Transform := .ok (encodeWalk ob data.length [] data, 0)

/-- LZ77_ENC (R171). -/
def execLz77Enc (ob : Nat) (s : State) : Host.Outcome State Fault Refusal := .next (runLz77 lz77Encode ob s)

end Sys2Proof.Machine
end

