-- ==== Sys2Proof/Machine/Dispatch.lean ====
section
/-! DEFINITION. One arm per command: the completion of the running command (40_command_common.md R108, R111). -/

namespace Sys2Proof.Machine

def exec (i : Instr) (s : State) : Host.Outcome State Fault Refusal :=
  match i with
  | .huffEnc ob => Sys2Proof.Machine.execHuffEnc ob s
  | .huffDec ob => Sys2Proof.Machine.execHuffDec ob s
  | .lz77Enc ob => Sys2Proof.Machine.execLz77Enc ob s
  | .lz77Dec ob => Sys2Proof.Machine.execLz77Dec ob s

end Sys2Proof.Machine
end

