-- ==== Sys2Proof/Machine/Engine.lean ====
section
/-! DEFINITION. The steps of 40_command_common.md R119: the engine's completion, the host's accesses, reset, and which of
them comes next. -/

namespace Sys2Proof.Machine

/-- The engine's turn (R108): the completion of the running command while BUSY = 1; an illegal word completes with
ILLEGAL_CMD (R110 step 1, 60_exceptions.md R195). While BUSY = 0 the engine has no step and nothing changes
(R212; DESIGN CHOICE, log 2). -/
def engineStep (s : State) : Host.Outcome State Fault Refusal :=
  if s.busy then
    match decodeWord (fetchWord s) with
    | .ok i => exec i s
    | .error _ => .next (complete (.err .illegalCmd (fetchWord s)) s)
  else .next s

/-- One event (R119). -/
def eventStep (e : Event) (s : State) : Host.Outcome State Fault Refusal :=
  match e with
  | .csrRead addr bytes => .next (hostCsrRead addr bytes s)
  | .csrWrite addr bytes v => .next (hostCsrWrite addr bytes v s)
  | .memRead addr =>
    match hostMemFault .read addr.toNat s with
    | some f => .fault f
    | none => .next (hostMemRead addr.toNat s)
  | .memWrite addr b =>
    if regionOwned addr.toNat s then .next (refuse (.hostWriteWhileBusy addr.toNat) s)
    else
      match hostMemFault .write addr.toNat s with
      | some f => .fault f
      | none => .next (hostMemWrite addr.toNat b s)
  | .engine => engineStep s
  | .reset => .next (resetStep s)

/-- The next step: a marked run is refused for good (R120, log 7); else the next event of the agenda; with no event left
the engine's turn, so that every command completes (70_reset_and_hazards.md R226; log 1, 23). -/
def runStep (s : State) : Host.Outcome State Fault Refusal :=
  match s.refusal with
  | some r => .refused r
  | none =>
    match s.agenda with
    | [] => engineStep s
    | e :: rest => eventStep e { s with agenda := rest }

end Sys2Proof.Machine
end

