-- ==== Sys2Proof/Machine/Step.lean ====
section
/-! DEFINITION. The step function, and where the next command is taken from. -/

namespace Sys2Proof.Machine

/-- One step of the machine (40_command_common.md R119). -/
def step (s : State) : Host.Outcome State Fault Refusal := runStep s

/-- `s` with the command word in place so that the very next step runs it: the block fetches no instructions
(10_state.md R25), a host issues a word by a CSR write, so the word is issued with the operands `s` holds (log 17). A value
of more than 32 bits is no command word (30_encoding.md R81) and places nothing. -/
def State.withFetchWord (s : State) (nbits w : Nat) : State :=
  match tableWord nbits w with
  | some v => placeCommand v s
  | none => s

end Sys2Proof.Machine
end

