-- ==== Sys2Proof/Safety.lean ====
section
/-! DEFINITION. The terms claims use: the premises of 40_command_common.md R122, the invariants of a run, and the spec's own
index-based wording of a few rules, against which claims hold the model's definitions. -/

namespace Sys2Proof

open Sys2Proof.Machine

/-! ### Premises of a command (R122) -/

/-- No BAD_RANGE: neither region passes the top of the address space, and they do not overlap (60_exceptions.md R196). -/
abbrev rangesFit (l : Latch) : Prop :=
  l.srcBase.toNat + l.srcLen.toNat ≤ 2 ^ 32 ∧ l.dstBase.toNat + l.dstCap.toNat ≤ 2 ^ 32 ∧
    (l.srcLen.toNat = 0 ∨ l.dstCap.toNat = 0 ∨ l.srcBase.toNat + l.srcLen.toNat ≤ l.dstBase.toNat ∨
      l.dstBase.toNat + l.dstCap.toNat ≤ l.srcBase.toNat)

/-- Both regions lie in normal memory (20_memory.md R72). -/
abbrev inNormalMemory (p : Platform) (l : Latch) : Prop :=
  (∀ j, j < l.srcLen.toNat → onDevice p (l.srcBase.toNat + j) = false) ∧
    ∀ j, j < l.dstCap.toNat → onDevice p (l.dstBase.toNat + j) = false

/-- MemOk(a, read) for every a in the SRC region (R122). -/
abbrev sourceReadable (p : Platform) (l : Latch) : Prop :=
  ∀ j, j < l.srcLen.toNat → memOk p .read (l.srcBase.toNat + j) = true

/-- MemOk(a, write) for every a in the DST region (R122). -/
abbrev destWritable (p : Platform) (l : Latch) : Prop :=
  ∀ j, j < l.dstCap.toNat → memOk p .write (l.dstBase.toNat + j) = true

/-- The premises under which the outcome of a legal command is its result function followed by the capacity check (R122). -/
abbrev commandReady (s : State) : Prop :=
  rangesFit s.lat ∧ inNormalMemory s.platform s.lat ∧ sourceReadable s.platform s.lat ∧ destWritable s.platform s.lat

/-- The completion record as issue leaves it (R107). -/
abbrev recordClear (s : State) : Prop :=
  s.done = false ∧ s.err = false ∧ s.noop = false ∧ s.errcode = 0 ∧ s.detail = 0 ∧ s.dstLen = 0 ∧ s.errInfo = 0 ∧
    s.huffInfo = 0

/-- It is the engine's turn: the agenda says so, or is empty. -/
def engineTurn (s : State) : Prop := s.agenda = [] ∨ ∃ rest, s.agenda = .engine :: rest

/-- The record of a failed command (R115): the error fields as given, no length, BUSY over, DONE set, the fields completion
does not name as issue left them. -/
abbrev failedWith (code detail : BitVec 4) (info : Word) (s t : State) : Prop :=
  t.err = true ∧ t.errcode = code ∧ t.detail = detail ∧ t.errInfo = info ∧ t.dstLen = 0 ∧ t.busy = false ∧ t.done = true ∧
    t.noop = s.noop ∧ t.huffInfo = s.huffInfo

/-- Whether a command is the no-op of R110 step 2. -/
def isNoOp : Instr → Bool
  | .huffEnc _ => false
  | .huffDec _ => false
  | .lz77Enc ob => !obValid ob
  | .lz77Dec ob => !obValid ob

/-- A command runs that has passed the checks which touch no memory (R110 steps 1 to 3), with a region that is not in
normal memory: what 20_memory.md R72 has a model refuse. -/
def onDeviceMemory (s : State) : Prop :=
  s.busy = true ∧ (∃ i, decodeWord s.lat.word = .ok i ∧ isNoOp i = false) ∧ rangesFit s.lat ∧
    ¬ inNormalMemory s.platform s.lat

/-- The result function of a command (R111). -/
def transformOf : Instr → List Byte → Transform
  | .huffEnc _ => huffEncode
  | .huffDec _ => huffDecode
  | .lz77Enc ob => fun B => lz77Encode B ob
  | .lz77Dec ob => fun B => lz77Decode B ob

/-! ### The outcome of R110 in the spec's own order -/

/-- F(op) of R111, by the number OP. -/
def transformAt (op ob : Nat) (B : List Byte) : Transform :=
  match op with
  | 1 => huffEncode B
  | 2 => huffDecode B
  | 3 => lz77Encode B ob
  | _ => lz77Decode B ob

/-- The lowest index below `n` at which an access from `base` on fails. -/
def firstFailing (p : Platform) (k : AccessKind) (base n : Nat) : Option Nat :=
  (List.range n).find? fun j => !memOk p k (base + j)

/-- Exec(lat, mem) (R110), on the fields of the latched word, its steps in the order of the rule. -/
def execOutcome (s : State) : CmdOutcome :=
  let l := s.lat
  let sb := l.srcBase.toNat
  let sl := l.srcLen.toNat
  let db := l.dstBase.toNat
  let dc := l.dstCap.toNat
  if latRsv l ∨ ¬ (latOp l = 1 ∨ latOp l = 2 ∨ latOp l = 3 ∨ latOp l = 4) then .err .illegalCmd l.word
  else if (latOp l = 3 ∨ latOp l = 4) ∧ ¬ (1 ≤ latOb l ∧ latOb l ≤ 15) then .noOp
  else if sb + sl > 2 ^ 32 then .err .srcWrap 0
  else if db + dc > 2 ^ 32 then .err .dstWrap 0
  else if sl > 0 ∧ dc > 0 ∧ sb < db + dc ∧ db < sb + sl then .err .overlap 0
  else
    match firstFailing s.platform .read sb sl with
    | some j => .err .busError (BitVec.ofNat 32 (sb + j))
    | none =>
      match transformAt (latOp l) (latOb l) ((List.range sl).map fun j => memByte s.mem (sb + j)) with
      | .error (e, info) => .err e info
      | .ok (out, hinfo) =>
        if out.length > dc then .err .outOverflow (sat32 out.length)
        else
          match firstFailing s.platform .write db out.length with
          | some j => .err .busError (BitVec.ofNat 32 (db + j))
          | none => .ok out hinfo

/-! ### Invariants of a run -/

/-- The pairs (ERRCODE, DETAIL) that are produced (60_exceptions.md R192, R193). -/
def legalRecord (code detail : BitVec 4) : Bool :=
  (code == 0 && detail == 0) || (code == 1 && decide (1 ≤ detail.toNat ∧ detail.toNat ≤ 8)) || (code == 2 && detail == 0) ||
    (code == 3 && decide (1 ≤ detail.toNat ∧ detail.toNat ≤ 3)) || (code == 4 && detail == 0) || (code == 5 && detail == 0)

/-- What holds between the fields of the record in every state of a run: while BUSY nothing of a record shows and the
latch holds the word CMD holds (R34 to R36, R51, R107, R223); NOOP excludes an error (R37); ERR means an error code (R36);
only listed codes (R192, R193); nothing but an error gives ERR_INFO, and an error gives no length and no HUFF_INFO (R47 to
R49, R205). -/
abbrev recordInv (s : State) : Prop :=
  (s.busy = true → recordClear s ∧ s.lat.word = s.cmd) ∧
    (s.noop = true → s.err = false ∧ s.errcode = 0) ∧
    (s.err = true → s.errcode ≠ 0) ∧
    legalRecord s.errcode s.detail = true ∧
    (s.errcode = 0 → s.errInfo = 0) ∧
    (s.errcode ≠ 0 → s.dstLen = 0 ∧ s.huffInfo = 0)

/-- HUFF_INFO is 0 or describes a tree (10_state.md R49, 41_huffman_encode.md R139, 42_huffman_decode.md R154): a padding
of 0 to 7, 1 to 256 leaves, 10n − 1 tree bits. So its reserved bits read as 0. -/
def huffInfoInv (s : State) : Prop :=
  s.huffInfo = 0 ∨ ∃ p n, p ≤ 7 ∧ 1 ≤ n ∧ n ≤ 256 ∧ s.huffInfo = huffInfoWord p (10 * n - 1) n

/-- The invariant of a run. -/
abbrev runInv (s : State) : Prop := Memory.wf s.mem ∧ recordInv s

/-! ### The index-based wording of 43_lz77_encode.md -/

/-- The candidates at position `i`, nearest first (R165): positions p < i with the same byte and i − p ≤ Wmax. -/
def candidates (data : List Byte) (i wmax : Nat) : List Nat :=
  ((List.range (min i wmax)).map fun d => i - 1 - d).filter fun p => data[p]? == data[i]?

/-- ML(p, i) (R166): the largest k ≤ cap with data[p + j] = data[i + j] for every j < k. -/
def indexMatchLength (data : List Byte) (p i cap : Nat) : Nat :=
  ((List.range cap).takeWhile fun k => data[p + k]? == data[i + k]?).length

/-- The loop over p of R171, on (best, off). -/
def indexScan (data : List Byte) (i cap : Nat) (best : Nat × Nat) (ps : List Nat) : Nat × Nat :=
  ps.foldl (fun acc p => if acc.1 < indexMatchLength data p i cap then (indexMatchLength data p i cap, i - p) else acc) best

/-- The while loop of R171. -/
def indexLoop (data : List Byte) (ob : Nat) : Nat → Nat → List Byte
  | 0, _ => []
  | fuel + 1, i =>
    if i < data.length then
      let cap := min (lengthMax ob) (data.length - 1 - i)
      let found := indexScan data i cap (0, 0) (candidates data i (windowMax ob))
      packTriple ob found.2 found.1 (data.getD (i + found.1) 0) ++ indexLoop data ob fuel (i + found.1 + 1)
    else []

/-- The positions passed before `i`, as the model's window index holds them. -/
def passedBefore (data : List Byte) (i : Nat) : List (List Byte) := (List.range i).map fun d => data.drop (i - 1 - d)

/-! ### The internal nodes of a tree -/

/-- The number of internal nodes of a tree (30_encoding.md R93). -/
def internalCount : Tree → Nat
  | .leaf _ => 0
  | .node l r => internalCount l + internalCount r + 1

/-! ### The tree builder in the rule's own form (41_huffman_encode.md R127 to R129) -/

/-- R129: keys compared lexicographically. -/
def keyBefore (x y : QueueEntry) : Prop := x.weight < y.weight ∨ (x.weight = y.weight ∧ x.seq < y.seq)

/-- BuildTree's loop (R128) as a relation on a queue in any order: while more than one entry is left, take the one of least
key, then the one of least key of the rest, and add their internal node, the first removed as left child, with the sum of
the weights and the next seq. -/
inductive BuildsTree : List QueueEntry → Nat → Tree → Prop
  | done (e : QueueEntry) (seq : Nat) : BuildsTree [e] seq e.node
  | merge (q rest : List QueueEntry) (a b : QueueEntry) (seq : Nat) (root : Tree) (perm : q.Perm (a :: b :: rest))
      (least : ∀ x ∈ b :: rest, keyBefore a x) (next : ∀ x ∈ rest, keyBefore b x)
      (more : BuildsTree (⟨a.weight + b.weight, seq, .node a.node b.node⟩ :: rest) (seq + 1) root) : BuildsTree q seq root

/-- The seeds of the queue (R127): the k-th leaf with its count and seq k. -/
def seedsOf (leaves : List (Byte × Nat)) : List QueueEntry := leaves.zipIdx.map fun e => ⟨e.1.2, e.2, .leaf e.1.1⟩

/-! ### A tree field token by token (30_encoding.md R92) -/

/-- The bits of a sequence of nodes in preorder: `none` an internal node, `some v` a leaf. -/
def tokenBits (ts : List (Option Byte)) : Bits :=
  ts.flatMap fun
    | none => [false]
    | some v => true :: bitsMSB v.toNat 8

/-- The nodes so far leave the tree open: no beginning of the sequence has more leaves than internal nodes, where a complete
tree has one more (R93). -/
def treeOpen (ts : List (Option Byte)) : Prop :=
  ∀ k, k ≤ ts.length → (ts.take k).countP (·.isSome) ≤ (ts.take k).count none

/-! ### The lengths of an LZ77 stream's triples -/

/-- The length of each triple of a stream (44_lz77_decode.md R188). -/
def tripleLengths (ob : Nat) : List Byte → List Nat
  | b0 :: b1 :: _ :: rest => tripleLength ob b0 b1 :: tripleLengths ob rest
  | _ => []

end Sys2Proof
end

