-- ==== Sys2Proof/Certificates/Slice0/Obligations.lean ====
section
/-! DEFINITION. The statements about the model, one definition each, from the numbered rules of spec/. Where one rests on a
choice of the model its docstring names the log entry. -/

open Sys2Proof Sys2Proof.Machine

/-! ### Encoding -/

/-- 30_encoding.md R82 to R85: decoding undoes encoding on every well-formed command, through the word and through its bits,
and encoding undoes decoding on every word that is a command. That a Huffman command keeps its OB is the model's choice
(log 22). -/
def Obligations.DecodeAndEncodeAgree : Prop :=
  (∀ i : Instr, i.wellFormed = true →
      decodeWord (encode i) = .ok i ∧ decodeTableWord 32 (encode i).toNat = some i) ∧
    ∀ w i, decodeWord w = .ok i → i.wellFormed = true ∧ encode i = w

/-- 30_encoding.md R83, R88: a word selects the row whose match it meets under the mask; where no row matches it is no
command. That a Huffman command carries OB, a don't-care of its row, is the model's choice (log 22). -/
def Obligations.DecoderFollowsMatchAndMask : Prop :=
  ∀ w : Word,
    (∀ ob, decodeWord w = .ok (.huffEnc ob) ↔ w &&& 0xFFFFE0FF#32 = 0x00000001#32 ∧ ob = w.toNat / 256 % 32) ∧
    (∀ ob, decodeWord w = .ok (.huffDec ob) ↔ w &&& 0xFFFFE0FF#32 = 0x00000002#32 ∧ ob = w.toNat / 256 % 32) ∧
    (∀ ob, decodeWord w = .ok (.lz77Enc ob) ↔ w &&& 0xFFFFE0FF#32 = 0x00000003#32 ∧ ob = w.toNat / 256 % 32) ∧
    (∀ ob, decodeWord w = .ok (.lz77Dec ob) ↔ w &&& 0xFFFFE0FF#32 = 0x00000004#32 ∧ ob = w.toNat / 256 % 32) ∧
    ((∃ e, decodeWord w = .error e) ↔
      ∀ m ∈ [0x00000001#32, 0x00000002#32, 0x00000003#32, 0x00000004#32], w &&& 0xFFFFE0FF#32 ≠ m)

/-- R89: the words the spec writes out decode to the commands it names. -/
def Obligations.WrittenWordsDecode : Prop :=
  decodeWord 0x00000001 = .ok (.huffEnc 0) ∧ decodeWord 0x00001F01 = .ok (.huffEnc 31) ∧
    decodeWord 0x00000002 = .ok (.huffDec 0) ∧ decodeWord 0x00000803 = .ok (.lz77Enc 8) ∧
    decodeWord 0x00000804 = .ok (.lz77Dec 8) ∧ decodeWord 0x00000F03 = .ok (.lz77Enc 15) ∧
    decodeWord 0x00000103 = .ok (.lz77Enc 1) ∧ decodeWord 0x00000003 = .ok (.lz77Enc 0) ∧
    decodeWord 0x00001003 = .ok (.lz77Enc 16) ∧ decodeWord 0x00000011 = .error .reservedBits ∧
    decodeWord 0x00002001 = .error .reservedBits ∧ decodeWord 0x00000005 = .error .lzssReserved ∧
    decodeWord 0x00000000 = .error .reservedOp

/-! ### CSRs and the host -/

/-- 70_reset_and_hazards.md R215: the value of every CSR, of irq and of the latch after reset. -/
def Obligations.ResetValues : Prop :=
  csrValue .id State.reset = 0x4B430100 ∧ csrValue .ctrl State.reset = 0 ∧ csrValue .status State.reset = 0 ∧
    csrValue .cmd State.reset = 0 ∧ csrValue .srcBase State.reset = 0 ∧ csrValue .srcLen State.reset = 0 ∧
    csrValue .dstBase State.reset = 0 ∧ csrValue .dstCap State.reset = 0 ∧ csrValue .dstLen State.reset = 0 ∧
    csrValue .errInfo State.reset = 0 ∧ csrValue .huffInfo State.reset = 0 ∧ csrValue .caps State.reset = 3 ∧
    csrValue .reserved State.reset = 0 ∧ irq State.reset = false ∧ latOp State.reset.lat = 0 ∧
    latOb State.reset.lat = 0 ∧ latRsv State.reset.lat = false ∧ State.reset.lat = ⟨0, 0, 0, 0, 0⟩

/-- R214, R217, R218: a reset, at any time, leaves every CSR and the latch at its reset value, abandons a running command,
leaves the refusal mark and, when no command runs, all of memory; when one runs, it leaves the SRC region and every byte
outside the DST region, and each other DST byte is a free draw (log 5; a byte in both regions counts as SRC, log 11; log 12).
The mark is set where the abandoned command has a region on device memory (20_memory.md R72; when, is log 8's). -/
def Obligations.ResetAbandonsTheCommand : Prop :=
  ∀ s, ∃ t, eventStep .reset s = .next t ∧ (∀ c, csrValue c t = csrValue c State.reset) ∧ t.lat = State.reset.lat ∧
    t.busy = false ∧ irq t = false ∧ t.platform = s.platform ∧
    (¬ onDeviceMemory s → t.refusal = s.refusal) ∧ (onDeviceMemory s → t.refusal = some .regionOnDevice) ∧
    (s.busy = false → ∀ a, memByte t.mem a = memByte s.mem a) ∧
    (∀ a, inDst s.lat a = false ∨ inSrc s.lat a = true → memByte t.mem a = memByte s.mem a) ∧
    (s.busy = true → ∀ j, j < s.lat.dstCap.toNat → s.lat.dstBase.toNat + j < 2 ^ 32 →
      inSrc s.lat (s.lat.dstBase.toNat + j) = false →
      memByte t.mem (s.lat.dstBase.toNat + j) = Config.freeByte (s.draws + j))

/-- 10_state.md R27, R28: an aligned 32-bit access at CSR_BASE + off, off ≤ 0xFC, is defined; a read of it returns the
register the map has at that offset (STATUS bit by bit stands in StatusReadsFieldByField), or 0 at a reserved offset, and
changes nothing of the block; any other access is refused, by the mark, with no other effect. That the value read appears
in readData and the mark in a next state are the model's choices (log 7, 10). -/
def Obligations.CsrAccessesDefinedOrRefused : Prop :=
  ∀ s rest, s.refusal = none →
    (∀ off v,
      (off, v) ∈ [(0x00, 0x4B430100#32), (0x04, if s.irqEn then 1#32 else 0#32), (0x08, csrValue .status s), (0x0C, s.cmd),
        (0x10, s.srcBase), (0x14, s.srcLen), (0x18, s.dstBase), (0x1C, s.dstCap), (0x20, s.dstLen), (0x24, s.errInfo),
        (0x28, s.huffInfo), (0x2C, 3#32)] →
      s.agenda = .csrRead (csrBase s.platform + off) 4 :: rest → step s = .next { s with agenda := rest, readData := v }) ∧
    (∀ off, off % 4 = 0 → 0x30 ≤ off → off ≤ 0xFC → s.agenda = .csrRead (csrBase s.platform + off) 4 :: rest →
      step s = .next { s with agenda := rest, readData := 0 }) ∧
    (∀ addr bytes v, (s.agenda = .csrRead addr bytes :: rest ∨ s.agenda = .csrWrite addr bytes v :: rest) →
      ¬ (bytes = 4 ∧ ∃ off, off % 4 = 0 ∧ off ≤ 0xFC ∧ addr = csrBase s.platform + off) →
      step s = .next { s with agenda := rest, refusal := some (.csrAccess addr bytes) })

/-- 10_state.md R29, R30, R31, R50: a 32-bit write at the offset of a read-only register or at a reserved offset is ignored;
a write to STATUS leaves its read-only fields, ID, CAPS and the reserved offsets read as constants, and the reserved bits of
CTRL read as 0. -/
def Obligations.ReadOnlyRegistersIgnoreWrites : Prop :=
  ∀ (v : Word) (s : State),
    (∀ c ∈ [Csr.id, .dstLen, .errInfo, .huffInfo, .caps, .reserved], csrStore c v s = s) ∧
    (csrStore .status v s).busy = s.busy ∧ (csrStore .status v s).errcode = s.errcode ∧
    (csrStore .status v s).detail = s.detail ∧
    csrValue .id s = 0x4B430100#32 ∧ csrValue .caps s = 3#32 ∧ csrValue .reserved s = 0#32 ∧
    csrValue .ctrl (csrStore .ctrl v s) = v &&& 1#32 ∧
    ∀ off rest, s.refusal = none → off ∈ [0x00, 0x20, 0x24, 0x28, 0x2C] ∨ (off % 4 = 0 ∧ 0x30 ≤ off ∧ off ≤ 0xFC) →
      s.agenda = .csrWrite (csrBase s.platform + off) 4 v :: rest → step s = .next { s with agenda := rest }

/-- 10_state.md R33: the fields of STATUS at their bits, and its reserved bits 0. -/
def Obligations.StatusReadsFieldByField : Prop :=
  ∀ s, (csrValue .status s).getLsbD 0 = s.busy ∧ (csrValue .status s).getLsbD 1 = s.done ∧
    (csrValue .status s).getLsbD 2 = s.err ∧ (csrValue .status s).getLsbD 3 = s.noop ∧
    (csrValue .status s).getLsbD 4 = s.overrun ∧ (csrValue .status s).extractLsb' 8 4 = s.errcode ∧
    (csrValue .status s).extractLsb' 16 4 = s.detail ∧ (csrValue .status s).extractLsb' 5 3 = 0 ∧
    (csrValue .status s).extractLsb' 12 4 = 0 ∧ (csrValue .status s).extractLsb' 20 12 = 0

/-- 10_state.md R41: a host write of v to STATUS clears the flags whose bit of v is 1 and changes nothing else, at any
time. -/
def Obligations.StatusWriteClearsFlags : Prop :=
  ∀ s v rest, s.refusal = none → s.agenda = .csrWrite (csrBase s.platform + 0x08) 4 v :: rest →
    step s = .next { s with
      agenda := rest
      done := if v.getLsbD 1 then false else s.done
      err := if v.getLsbD 2 then false else s.err
      noop := if v.getLsbD 3 then false else s.noop
      overrun := if v.getLsbD 4 then false else s.overrun }

/-- 10_state.md R32: a write to CTRL sets IRQ_EN from bit 0 and changes nothing else, busy or not. -/
def Obligations.ControlWriteSetsIrqEnable : Prop :=
  ∀ s v rest, s.refusal = none → s.agenda = .csrWrite (csrBase s.platform + 0x04) 4 v :: rest →
    step s = .next { s with agenda := rest, irqEn := v.getLsbD 0 }

/-- 10_state.md R43 to R46, R51: a write to an operand register stores all 32 bits and changes nothing else, the latch of a
running command included. -/
def Obligations.OperandWritesStoreAllBits : Prop :=
  ∀ s v rest, s.refusal = none →
    (s.agenda = .csrWrite (csrBase s.platform + 0x10) 4 v :: rest →
      step s = .next { s with agenda := rest, srcBase := v }) ∧
    (s.agenda = .csrWrite (csrBase s.platform + 0x14) 4 v :: rest →
      step s = .next { s with agenda := rest, srcLen := v }) ∧
    (s.agenda = .csrWrite (csrBase s.platform + 0x18) 4 v :: rest →
      step s = .next { s with agenda := rest, dstBase := v }) ∧
    (s.agenda = .csrWrite (csrBase s.platform + 0x1C) 4 v :: rest →
      step s = .next { s with agenda := rest, dstCap := v })

/-- 40_command_common.md R107, R106: a CMD write while idle issues, with every effect of the rule and no other; one while
busy sets OVERRUN and is otherwise ignored. -/
def Obligations.CommandWriteIssuesOrOverruns : Prop :=
  ∀ s (w : Word) rest, s.refusal = none → s.agenda = .csrWrite (csrBase s.platform + 0x0C) 4 w :: rest →
    (s.busy = true → step s = .next { s with agenda := rest, overrun := true }) ∧
    (s.busy = false → step s = .next { s with
      agenda := rest
      cmd := w
      lat := ⟨w, s.srcBase, s.srcLen, s.dstBase, s.dstCap⟩
      done := false
      err := false
      noop := false
      errcode := 0
      detail := 0
      dstLen := 0
      errInfo := 0
      huffInfo := 0
      busy := true }) ∧
    latOp ⟨w, s.srcBase, s.srcLen, s.dstBase, s.dstCap⟩ = w.toNat % 16 ∧
    latOb ⟨w, s.srcBase, s.srcLen, s.dstBase, s.dstCap⟩ = w.toNat / 2 ^ 8 % 2 ^ 5 ∧
    (latRsv ⟨w, s.srcBase, s.srcLen, s.dstBase, s.dstCap⟩ = true ↔ w.toNat / 2 ^ 13 ≠ 0 ∨ w.toNat / 2 ^ 4 % 2 ^ 4 ≠ 0)

/-- 60_exceptions.md R203: irq is IRQ_EN and DONE in every state; it rises only at a completion with the enable set, or when
the enable is set while DONE = 1. -/
def Obligations.IrqRisesOnlyByCompletionOrEnable : Prop :=
  (∀ s, irq s = true ↔ s.irqEn = true ∧ s.done = true) ∧ ∀ s t, step s = .next t → irq s = false → irq t = true →
    (s.busy = true ∧ engineTurn s ∧ s.irqEn = true ∧ t.done = true) ∨
    (s.done = true ∧ ∃ v rest, s.agenda = .csrWrite (csrBase s.platform + 0x04) 4 v :: rest ∧ v.getLsbD 0 = true)

/-- 10_state.md R38: OVERRUN is set by a CMD write while BUSY = 1 and by nothing else, and cleared by a host write of 1 to
bit 4 of STATUS or by reset and by nothing else. -/
def Obligations.OverrunIsSticky : Prop :=
  ∀ s t, step s = .next t →
    (s.overrun = false →
      (t.overrun = true ↔ s.busy = true ∧ ∃ v rest, s.agenda = .csrWrite (csrBase s.platform + 0x0C) 4 v :: rest)) ∧
    (s.overrun = true →
      (t.overrun = false ↔ (∃ v rest, s.agenda = .csrWrite (csrBase s.platform + 0x08) 4 v :: rest ∧ v.getLsbD 4 = true) ∨
        ∃ rest, s.agenda = .reset :: rest))

/-- 60_exceptions.md R212, 10_state.md R34: idle is left only by a command issue, and busy only by completion, which sets
DONE, or by reset. -/
def Obligations.BusyStartsAtIssueEndsAtCompletionOrReset : Prop :=
  ∀ s t, step s = .next t →
    (s.busy = false → t.busy = true →
      ∃ v rest, s.agenda = .csrWrite (csrBase s.platform + 0x0C) 4 v :: rest ∧ t.cmd = v) ∧
    (s.busy = true → t.busy = false → (engineTurn s ∧ t.done = true) ∨ ∃ rest, s.agenda = .reset :: rest)

/-- 10_state.md R51: only an issue and a reset write the latch; an issue copies the operand registers as they stand. -/
def Obligations.LatchChangesOnlyAtIssueOrReset : Prop :=
  ∀ s t, step s = .next t →
    t.lat = s.lat ∨
    (s.busy = false ∧ ∃ v rest, s.agenda = .csrWrite (csrBase s.platform + 0x0C) 4 v :: rest ∧
      t.lat = ⟨v, s.srcBase, s.srcLen, s.dstBase, s.dstCap⟩) ∨
    (∃ rest, s.agenda = .reset :: rest ∧ t.lat = ⟨0, 0, 0, 0, 0⟩)

/-- 20_memory.md R77: a host write to either region while BUSY = 1 is refused; a host write elsewhere, or while idle, is
performed; a host read of a SRC byte returns what memory holds; a host read of a DST byte while BUSY = 1 returns any value, a
free draw (log 5; a byte in both regions counts as SRC, log 11). The platform backs the access (log 9). -/
def Obligations.HostMemoryAccesses : Prop :=
  ∀ s (a : Word) rest, s.refusal = none → onDevice s.platform a.toNat = false →
    (∀ b, s.agenda = .memWrite a b :: rest → s.busy = true → inSrc s.lat a.toNat = true ∨ inDst s.lat a.toNat = true →
      step s = .next { s with agenda := rest, refusal := some (.hostWriteWhileBusy a.toNat) }) ∧
    (∀ b, s.agenda = .memWrite a b :: rest → memOk s.platform .write a.toNat = true →
      s.busy = false ∨ (inSrc s.lat a.toNat = false ∧ inDst s.lat a.toNat = false) →
      step s = .next { s with agenda := rest, mem := memWriteBytes s.mem a.toNat [b] }) ∧
    (s.agenda = .memRead a :: rest → memOk s.platform .read a.toNat = true →
      (s.busy = false ∨ inSrc s.lat a.toNat = true ∨ inDst s.lat a.toNat = false →
        step s = .next { s with agenda := rest, readData := (memByte s.mem a.toNat).zeroExtend 32 }) ∧
      (s.busy = true → inSrc s.lat a.toNat = false → inDst s.lat a.toNat = true →
        step s = .next { s with
          agenda := rest, readData := (Config.freeByte s.draws).zeroExtend 32, draws := s.draws + 1 }))

/-- 40_command_common.md R119, R120: a marked run is refused for good, and only an access refused by R28, R72 or R77 sets
the mark; a command that goes on to a region on device memory sets it. That a refused access takes a next state with the mark
set is the model's choice (log 7), and so is when R72's refusal falls: at the completion, or at the reset that abandons the
command (log 8). -/
def Obligations.OnlyRefusedAccessesEndARun : Prop :=
  (∀ s r, s.refusal = some r → step s = .refused r) ∧
    (∀ s, s.refusal = none → engineTurn s → onDeviceMemory s →
      step s = .next { s with agenda := s.agenda.tail, refusal := some .regionOnDevice }) ∧
    ∀ s t r, step s = .next t → t.refusal = some r →
      (∃ addr bytes rest, r = .csrAccess addr bytes ∧
        (s.agenda = .csrRead addr bytes :: rest ∨ ∃ v, s.agenda = .csrWrite addr bytes v :: rest) ∧
        ¬ (bytes = 4 ∧ ∃ off, off % 4 = 0 ∧ off ≤ 0xFC ∧ addr = csrBase s.platform + off)) ∨
      (∃ (a : Word) (b : Byte) (rest : List Event), r = .hostWriteWhileBusy a.toNat ∧ s.agenda = .memWrite a b :: rest ∧
        s.busy = true ∧ (inSrc s.lat a.toNat = true ∨ inDst s.lat a.toNat = true)) ∨
      (r = .regionOnDevice ∧ onDeviceMemory s ∧ (engineTurn s ∨ ∃ rest, s.agenda = .reset :: rest))

/-! ### The engine's step -/

/-- 40_command_common.md R108, R111: while BUSY = 1 the engine's turn is exec of the command the latched word decodes to,
with the event that gave it the turn taken off the agenda (the agenda is the model's own, log 1). -/
def Obligations.StepRunsTheDecodedCommand : Prop :=
  ∀ s i, s.refusal = none → s.busy = true → decodeWord s.lat.word = .ok i →
    (s.agenda = [] → step s = exec i s) ∧
    ∀ rest, s.agenda = .engine :: rest → step s = exec i { s with agenda := rest }

/-- The model's fetch (log 17): a well-formed command whose word is placed runs as the very next step, on the state in which
it has just been issued. -/
def Obligations.PlacedCommandRunsNext : Prop :=
  ∀ s (i : Instr), i.wellFormed = true →
    step (s.withFetchWord 32 (encode i).toNat) = exec i { issue (encode i) s with agenda := [], refusal := none }

/-- 60_exceptions.md R195: an illegal word completes with ILLEGAL_CMD and the word in ERR_INFO, before any other check, and
no memory changes. -/
def Obligations.IllegalWordCompletesWithIllegalCmd : Prop :=
  ∀ s, s.refusal = none → s.busy = true → engineTurn s →
    (¬ (s.lat.word.toNat % 16 = 1 ∨ s.lat.word.toNat % 16 = 2 ∨ s.lat.word.toNat % 16 = 3 ∨ s.lat.word.toNat % 16 = 4) ∨
      s.lat.word.toNat / 16 % 16 ≠ 0 ∨ s.lat.word.toNat / 2 ^ 13 ≠ 0) →
    step s = .next { s with
      agenda := s.agenda.tail
      dstLen := 0
      err := true
      errcode := 2
      detail := 0
      errInfo := s.lat.word
      busy := false
      done := true }

/-- 40_command_common.md R108, 60_exceptions.md R212: with BUSY = 0 the engine's turn changes nothing of the block. That the
model's step answers a next state there is its choice (log 2). -/
def Obligations.IdleEngineChangesNothing : Prop :=
  ∀ s, s.refusal = none → s.busy = false →
    (s.agenda = [] → step s = .next s) ∧ ∀ rest, s.agenda = .engine :: rest → step s = .next { s with agenda := rest }

/-- 40_command_common.md R115: the CSR updates of a completion, case by case, with the memory of R113 and R114 beside
them. -/
def Obligations.CompletionUpdatesTheRecord : Prop :=
  ∀ s,
    (∀ out hinfo, complete (.ok out hinfo) s = { s with
      mem := memWriteBytes s.mem s.lat.dstBase.toNat out
      dstLen := BitVec.ofNat 32 out.length
      huffInfo := hinfo
      errcode := 0
      detail := 0
      errInfo := 0
      busy := false
      done := true }) ∧
    complete .noOp s = { s with dstLen := 0, noop := true, busy := false, done := true } ∧
    ∀ e info, { complete (.err e info) s with mem := s.mem, draws := s.draws } = { s with
      dstLen := 0
      err := true
      errcode := errorCode e
      detail := errorDetail e
      errInfo := info
      busy := false
      done := true }

/-- 40_command_common.md R110, R111: the engine's step publishes Exec(lat, mem), its checks in the rule's fixed order. -/
def Obligations.StepPublishesExec : Prop :=
  ∀ s, s.refusal = none → s.busy = true → engineTurn s → inNormalMemory s.platform s.lat →
    step s = .next (complete (execOutcome s) { s with agenda := s.agenda.tail })

/-! ### The commands complete -/

/-- 41_huffman_encode.md R138, R137, R139: HUFF_ENC, ready and with room for its output, writes the packed stream of padding
field, serialized tree, payload and padding, and reports p, T and n. -/
def Obligations.HuffEncCompletes : Prop :=
  ∀ ob s, commandReady s →
    let B := sourceBytes s
    let treeBits := serialize (huffTree B)
    let payload := payloadBits (codeTable (huffTree B)) B
    let p := (8 - (3 + treeBits.length + payload.length) % 8) % 8
    let out := pack (bitsMSB p 3 ++ treeBits ++ payload ++ List.replicate p false)
    out.length ≤ s.lat.dstCap.toNat →
    exec (.huffEnc ob) s = .next { s with
      mem := memWriteBytes s.mem s.lat.dstBase.toNat out
      dstLen := BitVec.ofNat 32 out.length
      huffInfo := BitVec.ofNat 32 (p ||| treeBits.length <<< 4 ||| (leafSet B).length <<< 16)
      errcode := 0
      detail := 0
      errInfo := 0
      busy := false
      done := true }

/-- 42_huffman_decode.md R153: HUFF_DEC, ready, on a stream whose tree parses and whose payload maps, with room for the
symbols, writes them and reports p, T and the leaves. -/
def Obligations.HuffDecCompletes : Prop :=
  ∀ ob s root st out, commandReady s →
    let bits := unpack (sourceBytes s)
    let p := valMSB (bits.take 3)
    3 ≤ bits.length →
    parseNode 256 ⟨3, (bits.take (bits.length - p)).drop 3, 0, 0⟩ = .ok (root, st) →
    mapSymbols root st.cur st.rest = .ok out →
    out.length ≤ s.lat.dstCap.toNat →
    exec (.huffDec ob) s = .next { s with
      mem := memWriteBytes s.mem s.lat.dstBase.toNat out
      dstLen := BitVec.ofNat 32 out.length
      huffInfo := BitVec.ofNat 32 (p ||| (st.cur - 3) <<< 4 ||| st.nleaves <<< 16)
      errcode := 0
      detail := 0
      errInfo := 0
      busy := false
      done := true }

/-- 43_lz77_encode.md R171: LZ77_ENC with a valid OB, ready and with room for its output, writes the triples of the rule's
own loop and leaves HUFF_INFO 0. -/
def Obligations.Lz77EncCompletes : Prop :=
  ∀ ob s, 1 ≤ ob → ob ≤ 15 → commandReady s →
    let data := sourceBytes s
    let out := indexLoop data ob data.length 0
    out.length ≤ s.lat.dstCap.toNat →
    exec (.lz77Enc ob) s = .next { s with
      mem := memWriteBytes s.mem s.lat.dstBase.toNat out
      dstLen := BitVec.ofNat 32 out.length
      huffInfo := 0
      errcode := 0
      detail := 0
      errInfo := 0
      busy := false
      done := true }

/-- 44_lz77_decode.md R184: LZ77_DEC with a valid OB, ready, on a stream of whole triples that decode, with room for the
output, writes it and leaves HUFF_INFO 0. -/
def Obligations.Lz77DecCompletes : Prop :=
  ∀ ob s out, 1 ≤ ob → ob ≤ 15 → commandReady s → s.lat.srcLen.toNat % 3 = 0 →
    decodeWalk ob 0 [] (sourceBytes s) = .ok out → out.length ≤ s.lat.dstCap.toNat →
    exec (.lz77Dec ob) s = .next { s with
      mem := memWriteBytes s.mem s.lat.dstBase.toNat out
      dstLen := BitVec.ofNat 32 out.length
      huffInfo := 0
      errcode := 0
      detail := 0
      errInfo := 0
      busy := false
      done := true }

/-- 60_exceptions.md R201, 30_encoding.md R87: an LZ77 command with OB = 0 or OB ≥ 16 is a no-op that touches no memory and
reports no error: ERR and ERRCODE stay as they are, and issue left them 0; a Huffman command ignores OB. -/
def Obligations.InvalidOffsetBitsIsANoOp : Prop :=
  ∀ ob s, ob = 0 ∨ 16 ≤ ob →
    exec (.lz77Enc ob) s = .next { s with dstLen := 0, noop := true, busy := false, done := true } ∧
    exec (.lz77Dec ob) s = .next { s with dstLen := 0, noop := true, busy := false, done := true } ∧
    (recordClear s → ∀ t, exec (.lz77Enc ob) s = .next t ∨ exec (.lz77Dec ob) s = .next t →
      t.done = true ∧ t.noop = true ∧ t.err = false ∧ t.errcode = 0 ∧ t.dstLen = 0 ∧ t.mem = s.mem) ∧
    ∀ ob', exec (.huffEnc ob) s = exec (.huffEnc ob') s ∧ exec (.huffDec ob) s = exec (.huffDec ob') s

/-! ### The commands fail -/

/-- 60_exceptions.md R196: BAD_RANGE, in the order SRC_WRAP, DST_WRAP, OVERLAP, on exact sums, for every command that is no
no-op; ERR_INFO is 0 and no memory changes. Regions that fit, one that ends at 2^32 or an empty one among them, never give
it. -/
def Obligations.BadRangeInOrder : Prop :=
  ∀ i s, isNoOp i = false →
    let failed : BitVec 4 → State := fun d =>
      { s with dstLen := 0, err := true, errcode := 3, detail := d, errInfo := 0, busy := false, done := true }
    (2 ^ 32 < s.lat.srcBase.toNat + s.lat.srcLen.toNat → exec i s = .next (failed 1)) ∧
    (s.lat.srcBase.toNat + s.lat.srcLen.toNat ≤ 2 ^ 32 → 2 ^ 32 < s.lat.dstBase.toNat + s.lat.dstCap.toNat →
      exec i s = .next (failed 2)) ∧
    (s.lat.srcBase.toNat + s.lat.srcLen.toNat ≤ 2 ^ 32 → s.lat.dstBase.toNat + s.lat.dstCap.toNat ≤ 2 ^ 32 →
      0 < s.lat.srcLen.toNat → 0 < s.lat.dstCap.toNat →
      s.lat.srcBase.toNat < s.lat.dstBase.toNat + s.lat.dstCap.toNat →
      s.lat.dstBase.toNat < s.lat.srcBase.toNat + s.lat.srcLen.toNat → exec i s = .next (failed 3)) ∧
    (rangesFit s.lat → s.errcode ≠ 3 → ∀ t, exec i s = .next t → t.errcode ≠ 3)

/-- 60_exceptions.md R197: a read that fails ends the command with BUS_ERROR at the lowest failing address, whatever the
transform would do; a write that fails does so once the transform and the capacity check have passed. -/
def Obligations.BusErrorAtLowestAddress : Prop :=
  ∀ i s a, isNoOp i = false → rangesFit s.lat → inNormalMemory s.platform s.lat →
    (s.lat.srcBase.toNat ≤ a → a < s.lat.srcBase.toNat + s.lat.srcLen.toNat → memOk s.platform .read a = false →
      (∀ x, s.lat.srcBase.toNat ≤ x → x < a → memOk s.platform .read x = true) →
      ∃ t, exec i s = .next t ∧ failedWith 5 0 (BitVec.ofNat 32 a) s t) ∧
    (∀ out hinfo, sourceReadable s.platform s.lat → transformOf i (sourceBytes s) = .ok (out, hinfo) →
      out.length ≤ s.lat.dstCap.toNat →
      s.lat.dstBase.toNat ≤ a → a < s.lat.dstBase.toNat + out.length → memOk s.platform .write a = false →
      (∀ x, s.lat.dstBase.toNat ≤ x → x < a → memOk s.platform .write x = true) →
      ∃ t, exec i s = .next t ∧ failedWith 5 0 (BitVec.ofNat 32 a) s t)

/-- 60_exceptions.md R193, R194, 40_command_common.md R112: a transform that fails ends the command with CORRUPT_STREAM, the
number of its sub-reason and its position, whatever the capacity of the destination. -/
def Obligations.CorruptStreamBeatsCapacity : Prop :=
  ∀ i s e info, isNoOp i = false → rangesFit s.lat → inNormalMemory s.platform s.lat → sourceReadable s.platform s.lat →
    transformOf i (sourceBytes s) = .error (e, info) →
    ∃ t d, exec i s = .next t ∧ failedWith 1 d info s t ∧
      (e, d) ∈ [(CmdError.hdrShort, 1#4), (.treeTrunc, 2#4), (.treeTooLarge, 3#4), (.codeTrunc, 4#4), (.singleLeafBit1, 5#4),
        (.lenNotMult3, 6#4), (.offsetBeforeStart, 7#4), (.zeroOffsetCopy, 8#4)]

/-- 60_exceptions.md R200, 40_command_common.md R112: an output longer than DST_CAP ends the command with OUT_OVERFLOW and
the length it needed, saturated, whatever the writes would do. -/
def Obligations.OverflowReportsNeededLength : Prop :=
  ∀ i s out hinfo, isNoOp i = false → rangesFit s.lat → inNormalMemory s.platform s.lat →
    sourceReadable s.platform s.lat → transformOf i (sourceBytes s) = .ok (out, hinfo) →
    s.lat.dstCap.toNat < out.length →
    ∃ t, exec i s = .next t ∧ failedWith 4 0 (BitVec.ofNat 32 (min out.length (2 ^ 32 - 1))) s t

/-- 41_huffman_encode.md R144, 43_lz77_encode.md R171, 42_huffman_decode.md R153, 44_lz77_decode.md R184, 60_exceptions.md
R192 to R194, 40_command_common.md R109: the encoders never fail; each decoder fails only in its own ways. -/
def Obligations.OnlyDecodersFailAndOnlyInTheirWays : Prop :=
  ∀ B : List Byte,
    (∃ out hinfo, huffEncode B = .ok (out, hinfo)) ∧ (∀ ob, ∃ out, lz77Encode B ob = .ok (out, 0)) ∧
    (∀ e info, huffDecode B = .error (e, info) →
      e ∈ [CmdError.hdrShort, .treeTrunc, .treeTooLarge, .codeTrunc, .singleLeafBit1]) ∧
    (∀ ob e info, lz77Decode B ob = .error (e, info) →
      e ∈ [CmdError.lenNotMult3, .offsetBeforeStart, .zeroOffsetCopy])

/-! ### Frames -/

/-- The frame of all four commands (40_command_common.md R114, R115; 60_exceptions.md R205): only the record, BUSY, the DST
region and the model's own draw counter change; a command refused for its memory changes the mark alone. -/
def Obligations.CommandFrame : Prop :=
  ∀ i s t, exec i s = .next t →
    t.irqEn = s.irqEn ∧ t.overrun = s.overrun ∧ t.cmd = s.cmd ∧ t.srcBase = s.srcBase ∧ t.srcLen = s.srcLen ∧
    t.dstBase = s.dstBase ∧ t.dstCap = s.dstCap ∧ t.lat = s.lat ∧ t.platform = s.platform ∧ t.agenda = s.agenda ∧
    t.readData = s.readData ∧ s.draws ≤ t.draws ∧
    (∀ a, inDst s.lat a = false → memByte t.mem a = memByte s.mem a) ∧
    (t.refusal = s.refusal ∨ t = { s with refusal := some .regionOnDevice })

/-- 40_command_common.md R114: what each byte of the DST region holds after a completion, and that no byte outside it
changes. "Any value" is a free draw of the model (log 5). -/
def Obligations.DestinationAfterCompletion : Prop :=
  ∀ s, rangesFit s.lat →
    (∀ out hinfo, out.length ≤ s.lat.dstCap.toNat →
      (∀ j, (h : j < out.length) → memByte (complete (.ok out hinfo) s).mem (s.lat.dstBase.toNat + j) = out[j]) ∧
      ∀ a, a < s.lat.dstBase.toNat ∨ s.lat.dstBase.toNat + out.length ≤ a →
        memByte (complete (.ok out hinfo) s).mem a = memByte s.mem a) ∧
    (∀ a, memByte (complete .noOp s).mem a = memByte s.mem a) ∧
    (∀ e info, errorCode e = 2 ∨ errorCode e = 3 →
      ∀ a, memByte (complete (.err e info) s).mem a = memByte s.mem a) ∧
    (∀ e info, errorCode e = 1 ∨ errorCode e = 4 ∨ errorCode e = 5 →
      (∀ j, j < s.lat.dstCap.toNat →
        memByte (complete (.err e info) s).mem (s.lat.dstBase.toNat + j) = Config.freeByte (s.draws + j)) ∧
      ∀ a, inDst s.lat a = false → memByte (complete (.err e info) s).mem a = memByte s.mem a)

/-- 20_memory.md R70: the engine and a reset change no byte outside the DST region of the running command; the only other
step that changes memory is a host write, at its own address. -/
def Obligations.OnlyDstBytesOrTheHostsByteChange : Prop :=
  ∀ s t a, step s = .next t → memByte t.mem a ≠ memByte s.mem a →
    (s.busy = true ∧ inDst s.lat a = true ∧ (engineTurn s ∨ ∃ rest, s.agenda = .reset :: rest)) ∨
    ∃ (w : Word) (b : Byte) (rest : List Event), s.agenda = .memWrite w b :: rest ∧ a = w.toNat ∧ memByte t.mem a = b

/-- 40_command_common.md R117: what a command reports, and the output it writes when it succeeds, depend on its latch, the
SRC bytes and the platform alone, not on any earlier command. -/
def Obligations.OutcomeDependsOnOperandsAlone : Prop :=
  ∀ i s s' t t', s.lat = s'.lat → s.platform = s'.platform → s.busy = s'.busy →
    (∀ a, inSrc s.lat a = true → memByte s.mem a = memByte s'.mem a) → recordClear s → recordClear s' →
    exec i s = .next t → exec i s' = .next t' →
    t.done = t'.done ∧ t.busy = t'.busy ∧ t.err = t'.err ∧ t.noop = t'.noop ∧ t.errcode = t'.errcode ∧
    t.detail = t'.detail ∧ t.dstLen = t'.dstLen ∧ t.errInfo = t'.errInfo ∧ t.huffInfo = t'.huffInfo ∧
    ∀ j, j < t.dstLen.toNat → memByte t.mem (s.lat.dstBase.toNat + j) = memByte t'.mem (s.lat.dstBase.toNat + j)

/-! ### Invariants -/

/-- The invariants hold right after reset. -/
def Obligations.ResetMeetsTheInvariants : Prop := runInv State.reset ∧ huffInfoInv State.reset

/-- Every step, from every state that meets it, keeps the invariant of a run: the canonical memory and the consistent record
(R34 to R37, R47 to R49, R51, R192, R193, R205, R223). -/
def Obligations.StepKeepsRunInvariant : Prop := ∀ s t, runInv s → step s = .next t → runInv t

/-- Every step keeps HUFF_INFO at 0 or at the description of a tree of 1 to 256 leaves (10_state.md R49). -/
def Obligations.StepKeepsHuffInfoShape : Prop := ∀ s t, huffInfoInv s → step s = .next t → huffInfoInv t

/-! ### Huffman -/

/-- 00_scope.md R14: pack and unpack, bit by bit, and that they are inverse to each other. -/
def Obligations.PackAndUnpackBitByBit : Prop :=
  (∀ s : Bits, s.length % 8 = 0 →
    (pack s).length = s.length / 8 ∧
    (∀ j, j < s.length / 8 → (pack s)[j]?.map BitVec.toNat = some (valMSB ((s.drop (8 * j)).take 8))) ∧
    unpack (pack s) = s) ∧
  ∀ B : List Byte,
    (unpack B).length = 8 * B.length ∧
    (∀ j k, (h : j < B.length) → k < 8 → (unpack B)[8 * j + k]? = some (B[j].getLsbD (7 - k))) ∧
    pack (unpack B) = B

/-- 41_huffman_encode.md R125: the counts sum to the length of the input, no weight formed from counts passes it, and no
count passes 32 bits for an input that SRC_LEN can describe. -/
def Obligations.CountsSumToLength : Prop :=
  ∀ B : List Byte, ((freqCount B).map (·.2)).sum = B.length ∧ (∀ e ∈ freqCount B, e.2 ≤ B.length) ∧
    (∀ es : List (Byte × Nat), es.Sublist (freqCount B) → (es.map (·.2)).sum ≤ B.length) ∧
    (B.length < 2 ^ 32 → ∀ e ∈ freqCount B, e.2 < 2 ^ 32)

/-- 41_huffman_encode.md R126 to R130: the leaf set is the symbols that occur, ascending, with their counts (0x00 with weight
0 for empty input); the builder gives the one tree BuildTree gives, least key first and the first removed to the left; the
tree of an input has exactly the leaf set as its leaves, n of them, and n − 1 internal nodes, with n at most 256. -/
def Obligations.TreeHoldsTheLeafSet : Prop :=
  ∀ B : List Byte, (leafSymbols (huffTree B)).Perm ((leafSet B).map (·.1)) ∧
    leafCount (huffTree B) = (leafSet B).length ∧ internalCount (huffTree B) = (leafSet B).length - 1 ∧
    1 ≤ (leafSet B).length ∧ (leafSet B).length ≤ 256 ∧
    (B ≠ [] → ∀ s, s ∈ leafSymbols (huffTree B) ↔ s ∈ B) ∧
    (B = [] → leafSet B = [(0, 0)]) ∧ (∀ e ∈ leafSet B, e.2 = B.count e.1) ∧
    (leafSet B).Pairwise (fun e f => e.1.toNat < f.1.toNat) ∧
    ∀ root, BuildsTree (seedsOf (leafSet B)) (leafSet B).length root ↔ root = huffTree B

/-- 30_encoding.md R93: a tree with n leaves has n − 1 internal nodes and a field of 10n − 1 bits, 9 to 2559 for 1 to 256
leaves. -/
def Obligations.SerializedTreeLength : Prop :=
  ∀ t : Machine.Tree, internalCount t = leafCount t - 1 ∧ (serialize t).length = 9 * leafCount t + (leafCount t - 1) ∧
    (serialize t).length = 10 * leafCount t - 1 ∧
    (1 ≤ leafCount t → leafCount t ≤ 256 → 9 ≤ (serialize t).length ∧ (serialize t).length ≤ 2559)

/-- 41_huffman_encode.md R136: no code of a tree of two or more leaves leads to another. -/
def Obligations.CodesArePrefixFree : Prop :=
  ∀ l r : Machine.Tree, ((codeTable (.node l r)).map (·.2)).Pairwise fun c d => ¬ c <+: d ∧ ¬ d <+: c

/-- 30_encoding.md R91, R90, R95: a stream is the padding field, the tree, the payload and p zero bits; p is the least count
that makes it whole bytes, and its field is the first three bits. -/
def Obligations.StreamIsPaddedToWholeBytes : Prop :=
  ∀ treeBits payload : Bits,
    let p := (writeStream treeBits payload).2
    let out := (writeStream treeBits payload).1
    p ≤ 7 ∧ (3 + treeBits.length + payload.length + p) % 8 = 0 ∧
    (∀ q, q < p → (3 + treeBits.length + payload.length + q) % 8 ≠ 0) ∧
    p = (8 - (3 + treeBits.length + payload.length) % 8) % 8 ∧
    8 * out.length = 3 + treeBits.length + payload.length + p ∧
    unpack out = bitsMSB p 3 ++ treeBits ++ payload ++ List.replicate p false ∧ valMSB ((unpack out).take 3) = p

/-- 41_huffman_encode.md R141, R142: the empty input gives 90 00, which decodes to the empty output; N bytes of one value
give a one-leaf tree and N zero bits. -/
def Obligations.DegenerateInputsEncode : Prop :=
  huffEncode [] = .ok ([0x90, 0x00], 0x00010094) ∧ huffDecode [0x90, 0x00] = .ok ([], 0x00010094) ∧
    ∀ (b : Byte) N, 1 ≤ N →
      let p := (8 - (12 + N) % 8) % 8
      huffEncode (List.replicate N b) =
        .ok (pack (bitsMSB p 3 ++ (true :: bitsMSB b.toNat 8) ++ List.replicate N false ++ List.replicate p false),
          BitVec.ofNat 32 (p ||| 9 <<< 4 ||| 1 <<< 16))

/-- 42_huffman_decode.md R161: HuffDec(HuffEnc(B)) = Ok(B, hinfo) for every B, with the HUFF_INFO of HuffEnc(B). -/
def Obligations.HuffmanRoundTrip : Prop :=
  ∀ B : List Byte, ∃ out hinfo, huffEncode B = .ok (out, hinfo) ∧ huffDecode out = .ok (B, hinfo)

/-- 42_huffman_decode.md R154, R151, R162: a stream that decodes has a tree of 1 to 256 leaves and 10n − 1 bits, reports
them with its padding field, and gives at most 8L − 12 bytes. -/
def Obligations.DecodedStreamsReportTheirTree : Prop :=
  ∀ (B out : List Byte) hinfo, huffDecode B = .ok (out, hinfo) →
    (∃ n, 1 ≤ n ∧ n ≤ 256 ∧
      hinfo = BitVec.ofNat 32 (valMSB ((unpack B).take 3) ||| (10 * n - 1) <<< 4 ||| n <<< 16) ∧
      out.length + valMSB ((unpack B).take 3) + 3 + (10 * n - 1) ≤ 8 * B.length) ∧
    out.length + 12 ≤ 8 * B.length

/-- 42_huffman_decode.md R148, R150 to R152, R157, R158: every failure of HuffDec, where it arises and the index it reports,
and the success beside them. HDR_SHORT: the empty stream only. TREE_TRUNC: the limit E cuts an open tree between two nodes or
inside a leaf; the first bit that is missing. TREE_TOO_LARGE: the bit of the 256th internal node of any tree.
SINGLE_LEAF_BIT1: the first 1 bit after a one-leaf tree. CODE_TRUNC: whole codes, then a part of one; the limit E. -/
def Obligations.DecoderRejectsShortAndOversizedTrees : Prop :=
  ∀ B : List Byte,
    let E := 8 * B.length - valMSB ((unpack B).take 3)
    let body := ((unpack B).take E).drop 3
    let failsAt := fun (e : CmdError) (x : Nat) => huffDecode B = .error (e, BitVec.ofNat 32 (min x (2 ^ 32 - 1)))
    (∀ info, huffDecode B = .error (.hdrShort, info) ↔ B = [] ∧ info = 0) ∧
    (B ≠ [] → ∀ ts, treeOpen ts →
      (ts.count none ≤ 255 → (body = tokenBits ts ∨ ∃ cut, cut.length < 8 ∧ body = tokenBits ts ++ true :: cut) →
        failsAt .treeTrunc (3 + body.length)) ∧
      (ts.count none = 255 → ∀ rest, body = tokenBits ts ++ false :: rest →
        failsAt .treeTooLarge (3 + (tokenBits ts).length))) ∧
    (B ≠ [] → ∀ v n rest, body = serialize (.leaf v) ++ List.replicate n false ++ true :: rest →
      failsAt .singleLeafBit1 (12 + n)) ∧
    (B ≠ [] → ∀ (t : Machine.Tree) (es : List (Byte × Bits)) (cut : Bits), internalCount t ≤ 255 → (∀ e ∈ es, e ∈ codeTable t) →
      body = serialize t ++ es.flatMap (·.2) ++ cut →
      (cut = [] → ∃ hinfo, huffDecode B = .ok (es.map (·.1), hinfo)) ∧
      (cut ≠ [] → (∃ e ∈ codeTable t, cut <+: e.2 ∧ cut ≠ e.2) → failsAt .codeTrunc E))

/-- 42_huffman_decode.md R149, R155: the bits from the limit E on do not matter. (The padding field itself, bits 0 to 2,
does, also where E is below 3.) -/
def Obligations.PaddingBitsAreIgnored : Prop :=
  ∀ B B' : List Byte, B.length = B'.length →
    (∀ k, k < 3 ∨ k < 8 * B.length - valMSB ((unpack B).take 3) → (unpack B)[k]? = (unpack B')[k]?) →
    huffDecode B = huffDecode B'

/-! ### LZ77 -/

/-- 30_encoding.md R96, R97, R98: packing and unpacking a triple are inverse to each other, W is big-endian with the offset
in its high ob bits, and every triple is within the bounds. -/
def Obligations.TriplesPackAndUnpack : Prop :=
  ∀ ob, 1 ≤ ob → ob ≤ 15 →
    (∀ offset length literal, offset ≤ 2 ^ ob - 1 → length ≤ 2 ^ (16 - ob) - 1 →
      ∃ b0 b1, packTriple ob offset length literal = [b0, b1, literal] ∧ tripleOffset ob b0 b1 = offset ∧
        tripleLength ob b0 b1 = length ∧ 256 * b0.toNat + b1.toNat = offset * 2 ^ (16 - ob) + length) ∧
    ∀ b0 b1 literal, tripleOffset ob b0 b1 = (256 * b0.toNat + b1.toNat) / 2 ^ (16 - ob) ∧
      tripleLength ob b0 b1 = (256 * b0.toNat + b1.toNat) % 2 ^ (16 - ob) ∧ tripleOffset ob b0 b1 ≤ 2 ^ ob - 1 ∧
      tripleLength ob b0 b1 ≤ 2 ^ (16 - ob) - 1 ∧
      packTriple ob (tripleOffset ob b0 b1) (tripleLength ob b0 b1) literal = [b0, b1, literal]

/-- 43_lz77_encode.md R166, R167: at every position the match finder picks the longest match, capped so that a literal is
left, of the candidates of the window, and among equals the nearest; (0, 0) where nothing matches, which happens only
without a candidate or at the last byte. -/
def Obligations.MatchFinderPicksLongestThenNearest : Prop :=
  ∀ ob (data : List Byte) i, 1 ≤ ob → ob ≤ 15 → i < data.length →
    let m := findMatch ob (passedBefore data i) (data.drop i)
    let ml := fun p => indexMatchLength data p i (min (lengthMax ob) (data.length - 1 - i))
    let isCandidate := fun p => p < i ∧ data[p]? = data[i]? ∧ i - p ≤ 2 ^ ob - 1
    (∀ p, isCandidate p → ml p ≤ m.length) ∧
    (m.length = 0 → m.offset = 0 ∧ ((∀ p, ¬ isCandidate p) ∨ i + 1 = data.length)) ∧
    (0 < m.length → 1 ≤ m.offset ∧ m.offset ≤ i ∧ isCandidate (i - m.offset) ∧ ml (i - m.offset) = m.length ∧
      ∀ p, isCandidate p → ml p = m.length → p ≤ i - m.offset)

/-- 43_lz77_encode.md R171: the encoder computes the loop of the rule, index by index. -/
def Obligations.EncoderRefinesTheIndexLoop : Prop :=
  ∀ (data : List Byte) ob, lz77Encode data ob = .ok (indexLoop data ob data.length 0, 0)

/-- 43_lz77_encode.md R169, R173: an encoder's output is whole triples, at most 3L and, for a non-empty input, at least 3
bytes; each triple is a literal (0, 0) or a copy with offset and length both at least 1, within Wmax and Lmax. -/
def Obligations.EncoderEmitsLiteralsAndCopies : Prop :=
  ∀ (data out : List Byte) ob hinfo, 1 ≤ ob → ob ≤ 15 → lz77Encode data ob = .ok (out, hinfo) →
    hinfo = 0 ∧ out.length % 3 = 0 ∧ out.length ≤ 3 * data.length ∧ (data ≠ [] → 3 ≤ out.length) ∧
    ∀ before b0 b1 literal after, out = before ++ b0 :: b1 :: literal :: after → before.length % 3 = 0 →
      (tripleOffset ob b0 b1 = 0 ∧ tripleLength ob b0 b1 = 0) ∨
        (1 ≤ tripleOffset ob b0 b1 ∧ tripleOffset ob b0 b1 ≤ windowMax ob ∧ 1 ≤ tripleLength ob b0 b1 ∧
          tripleLength ob b0 b1 ≤ lengthMax ob)

/-- 43_lz77_encode.md R178: Lz77Dec(Lz77Enc(B, ob), ob) = Ok(B, 0) for every B and every ob in 1..15. -/
def Obligations.Lz77RoundTrip : Prop :=
  ∀ (B : List Byte) ob, 1 ≤ ob → ob ≤ 15 → ∃ out, lz77Encode B ob = .ok (out, 0) ∧ lz77Decode out ob = .ok (B, 0)

/-- 44_lz77_decode.md R187: a copy is forward, one byte at a time: byte n + j of the output is byte n − offset + j, also
where the copy wrote that byte itself. -/
def Obligations.CopiesGoForwardByteByByte : Prop :=
  ∀ (outRev : List Byte) offset length, 1 ≤ offset → offset ≤ outRev.length →
    let before := outRev.reverse
    let after := (copyBack offset length outRev).reverse
    after.length = before.length + length ∧ (∀ k, k < before.length → after[k]? = before[k]?) ∧
    ∀ j, j < length → after[before.length + j]? = after[before.length - offset + j]?

/-- 44_lz77_decode.md R188, R185: a stream that decodes gives length + 1 bytes a triple, so at least L/3 and at most
(L/3) × 2^(16−ob) bytes. -/
def Obligations.DecodedLengthIsSumOfTriples : Prop :=
  ∀ (B out : List Byte) ob hinfo, 1 ≤ ob → ob ≤ 15 → lz77Decode B ob = .ok (out, hinfo) →
    hinfo = 0 ∧ B.length % 3 = 0 ∧ out.length = ((tripleLengths ob B).map (· + 1)).sum ∧
    B.length / 3 ≤ out.length ∧ out.length ≤ B.length / 3 * 2 ^ (16 - ob)

/-- 44_lz77_decode.md R180, R186: the length is checked before any triple; a copy is checked before any of its bytes is
appended, against the output of the triples before it, whatever follows; a copy that passes is made, and its literal
appended. R185: a triple of length 0 appends its literal, whatever its offset. -/
def Obligations.DecoderChecksLengthThenEachCopy : Prop :=
  (∀ (B : List Byte) ob, B.length % 3 ≠ 0 →
    lz77Decode B ob = .error (.lenNotMult3, BitVec.ofNat 32 (min (B.length - B.length % 3) (2 ^ 32 - 1)))) ∧
  (∀ (B out : List Byte) (b0 b1 literal : Byte) ob hinfo, lz77Decode B ob = .ok (out, hinfo) → tripleLength ob b0 b1 = 0 →
    lz77Decode (B ++ [b0, b1, literal]) ob = .ok (out ++ [literal], 0)) ∧
  ∀ (B out rest : List Byte) (b0 b1 literal : Byte) ob hinfo, lz77Decode B ob = .ok (out, hinfo) → rest.length % 3 = 0 →
    0 < tripleLength ob b0 b1 →
    (tripleOffset ob b0 b1 = 0 →
      lz77Decode (B ++ b0 :: b1 :: literal :: rest) ob =
        .error (.zeroOffsetCopy, BitVec.ofNat 32 (min B.length (2 ^ 32 - 1)))) ∧
    (out.length < tripleOffset ob b0 b1 →
      lz77Decode (B ++ b0 :: b1 :: literal :: rest) ob =
        .error (.offsetBeforeStart, BitVec.ofNat 32 (min B.length (2 ^ 32 - 1)))) ∧
    (1 ≤ tripleOffset ob b0 b1 → tripleOffset ob b0 b1 ≤ out.length →
      lz77Decode (B ++ [b0, b1, literal]) ob =
        .ok ((copyBack (tripleOffset ob b0 b1) (tripleLength ob b0 b1) out.reverse).reverse ++ [literal], 0))
end

