-- ==== Sys2Proof/Laws/Memory.lean ====
section
/-! SUPPORT. What one read of memory gives after a splice, a write or a free region, and that every memory operation keeps
the canonical form. -/

namespace Sys2Proof.Machine

theorem inRange_iff {base len a : Nat} : inRange base len a = true ↔ base ≤ a ∧ a < base + len := by simp [inRange]

theorem inRange_eq_false_iff {base len a : Nat} : inRange base len a = false ↔ a < base ∨ base + len ≤ a := by
  simp only [inRange, Bool.and_eq_false_iff, decide_eq_false_iff_not]; omega

/-! ### Lookup through append and filter -/

theorem memLookup_append (m n : Memory) (x : Nat) : memLookup (m ++ n) x = (memLookup m x).or (memLookup n x) := by
  unfold memLookup
  rw [List.find?_append]
  cases List.find? (fun c => c.1 == x) m <;> simp

theorem memLookup_cons (c : Host.Cell) (m : Memory) (x : Nat) :
    memLookup (c :: m) x = if c.1 = x then some c.2 else memLookup m x := by
  unfold memLookup
  by_cases h : c.1 = x <;> simp [h]

theorem memLookup_filter_keep (m : Memory) (p : Nat → Bool) (x : Nat) (h : p x = true) :
    memLookup (m.filter fun c => p c.1) x = memLookup m x := by
  induction m with
  | nil => rfl
  | cons c m ih =>
    rw [List.filter_cons, memLookup_cons]
    by_cases hc : c.1 = x
    · rw [if_pos (hc ▸ h), memLookup_cons, if_pos hc, if_pos hc]
    · rw [if_neg hc, ← ih]
      split
      · rw [memLookup_cons, if_neg hc]
      · rfl

theorem memLookup_eq_none {m : Memory} {x : Nat} (h : ∀ c ∈ m, c.1 ≠ x) : memLookup m x = none := by
  unfold memLookup
  rw [Option.map_eq_none_iff, List.find?_eq_none]
  intro c hc
  simpa using h c hc

/-! ### Splice -/

/-- Outside the spliced addresses nothing changes. -/
theorem memLookup_splice_outside (m : Memory) (a n : Nat) (cells : List Host.Cell) (x : Nat)
    (hcells : ∀ c ∈ cells, a ≤ c.1 ∧ c.1 < a + n) (hx : x < a ∨ a + n ≤ x) :
    memLookup (memSplice m a n cells) x = memLookup m x := by
  have hc : memLookup cells x = none := memLookup_eq_none fun c hc => by have := hcells c hc; omega
  unfold memSplice
  rw [memLookup_append, memLookup_append, hc]
  rcases hx with hx | hx
  · rw [memLookup_filter_keep m (fun y => decide (y < a)) x (by simpa using hx)]
    have : memLookup (m.filter fun c => decide (a + n ≤ c.1)) x = none :=
      memLookup_eq_none fun c hc => by have := (List.mem_filter.mp hc).2; simp at this; omega
    rw [this]; simp
  · have : memLookup (m.filter fun c => decide (c.1 < a)) x = none :=
      memLookup_eq_none fun c hc => by have := (List.mem_filter.mp hc).2; simp at this; omega
    rw [this, memLookup_filter_keep m (fun y => decide (a + n ≤ y)) x (by simpa using hx)]; simp

/-- Inside the spliced addresses exactly the new cells are listed. -/
theorem memLookup_splice_inside (m : Memory) (a n : Nat) (cells : List Host.Cell) (x : Nat)
    (hx : a ≤ x) (hx' : x < a + n) : memLookup (memSplice m a n cells) x = memLookup cells x := by
  have h1 : memLookup (m.filter fun c => decide (c.1 < a)) x = none :=
    memLookup_eq_none fun c hc => by have := (List.mem_filter.mp hc).2; simp at this; omega
  have h2 : memLookup (m.filter fun c => decide (a + n ≤ c.1)) x = none :=
    memLookup_eq_none fun c hc => by have := (List.mem_filter.mp hc).2; simp at this; omega
  unfold memSplice
  rw [memLookup_append, memLookup_append, h1, h2]
  cases memLookup cells x <;> rfl

theorem memSplice_wf (m : Memory) (a n : Nat) (cells : List Host.Cell) (hm : Memory.wf m)
    (hsorted : cells.Pairwise fun c d => c.1 < d.1) (hcells : ∀ c ∈ cells, a ≤ c.1 ∧ c.1 < a + n)
    (htop : a + n ≤ addrCount) : Memory.wf (memSplice m a n cells) := by
  obtain ⟨hp, ht⟩ := hm
  unfold memSplice
  constructor
  · rw [List.pairwise_append, List.pairwise_append]
    refine ⟨⟨hp.filter _, hsorted, ?_⟩, hp.filter _, ?_⟩
    · intro c hc d hd
      have h1 := (List.mem_filter.mp hc).2
      have h2 := hcells d hd
      simp at h1; omega
    · intro c hc d hd
      have h2 := (List.mem_filter.mp hd).2
      simp at h2
      rcases List.mem_append.mp hc with hc | hc
      · have h1 := (List.mem_filter.mp hc).2
        simp at h1; omega
      · have h1 := hcells c hc; omega
  · intro c hc
    rcases List.mem_append.mp hc with hc | hc
    · rcases List.mem_append.mp hc with hc | hc
      · exact ht c (List.mem_filter.mp hc).1
      · have := hcells c hc; omega
    · exact ht c (List.mem_filter.mp hc).1

/-! ### Writing bytes -/

theorem cellsFrom_bounds (a : Nat) (bs : List Byte) : ∀ c ∈ cellsFrom a bs, a ≤ c.1 ∧ c.1 < a + bs.length := by
  induction bs generalizing a with
  | nil => intro c hc; cases hc
  | cons b bs ih =>
    intro c hc
    rcases List.mem_cons.mp hc with rfl | hc
    · simp
    · have := ih (a + 1) c hc
      simp only [List.length_cons]; omega

theorem cellsFrom_sorted (a : Nat) (bs : List Byte) : (cellsFrom a bs).Pairwise fun c d => c.1 < d.1 := by
  induction bs generalizing a with
  | nil => exact List.Pairwise.nil
  | cons b bs ih =>
    refine List.Pairwise.cons ?_ (ih (a + 1))
    intro c hc
    have := cellsFrom_bounds (a + 1) bs c hc
    show a < c.1
    omega

theorem memLookup_cellsFrom (a : Nat) (bs : List Byte) (j : Nat) : memLookup (cellsFrom a bs) (a + j) = bs[j]? := by
  induction bs generalizing a j with
  | nil => rfl
  | cons b bs ih =>
    unfold cellsFrom
    rw [memLookup_cons]
    cases j with
    | zero => simp
    | succ j =>
      rw [if_neg (by omega), List.getElem?_cons_succ, ← ih (a + 1) j, show a + (j + 1) = a + 1 + j by omega]

/-- A write leaves every address outside the written ones alone. -/
theorem memByte_writeBytes_outside (m : Memory) (a : Nat) (bs : List Byte) (x : Nat) (hx : x < a ∨ a + bs.length ≤ x) :
    memByte (memWriteBytes m a bs) x = memByte m x := by
  unfold memByte memWriteBytes
  rw [memLookup_splice_outside m a bs.length _ x (cellsFrom_bounds a bs) hx]

/-- A read after a write gives the byte written. -/
theorem memByte_writeBytes_inside (m : Memory) (a : Nat) (bs : List Byte) (j : Nat) (hj : j < bs.length) :
    memByte (memWriteBytes m a bs) (a + j) = bs[j] := by
  unfold memByte memWriteBytes
  rw [memLookup_splice_inside m a bs.length _ (a + j) (by omega) (by omega), memLookup_cellsFrom]
  simp [List.getElem?_eq_getElem hj]

theorem memWriteBytes_wf (m : Memory) (a : Nat) (bs : List Byte) (hm : Memory.wf m) (htop : a + bs.length ≤ addrCount) :
    Memory.wf (memWriteBytes m a bs) :=
  memSplice_wf m a bs.length _ hm (cellsFrom_sorted a bs) (cellsFrom_bounds a bs) htop

/-! ### A free region -/

theorem freeCells_bounds (l : Latch) (m : Memory) (draw a n : Nat) :
    ∀ c ∈ freeCells l m draw a n, a ≤ c.1 ∧ c.1 < a + n := by
  induction n generalizing draw a with
  | zero => intro c hc; cases hc
  | succ n ih =>
    intro c hc
    have key : c.1 = a ∨ c ∈ freeCells l m (draw + 1) (a + 1) n := by
      unfold freeCells at hc
      split at hc
      · split at hc
        · rcases List.mem_cons.mp hc with rfl | hc
          · exact .inl rfl
          · exact .inr hc
        · exact .inr hc
      · rcases List.mem_cons.mp hc with rfl | hc
        · exact .inl rfl
        · exact .inr hc
    rcases key with key | key
    · omega
    · have := ih (draw + 1) (a + 1) c key; omega

theorem freeCells_sorted (l : Latch) (m : Memory) (draw a n : Nat) :
    (freeCells l m draw a n).Pairwise fun c d => c.1 < d.1 := by
  induction n generalizing draw a with
  | zero => exact List.Pairwise.nil
  | succ n ih =>
    have hb := freeCells_bounds l m (draw + 1) (a + 1) n
    have hcons : ∀ b : Byte, List.Pairwise (fun c d : Host.Cell => c.1 < d.1) ((a, b) :: freeCells l m (draw + 1) (a + 1) n) :=
      fun b => List.Pairwise.cons (fun c hc => by have := hb c hc; show a < c.1; omega) (ih (draw + 1) (a + 1))
    unfold freeCells
    split
    · split
      · exact hcons _
      · exact ih (draw + 1) (a + 1)
    · exact hcons _

/-- What is listed in a free region: a draw outside the SRC region, what was listed before inside it. -/
theorem memLookup_freeCells (l : Latch) (m : Memory) (draw a n j : Nat) (hj : j < n) :
    memLookup (freeCells l m draw a n) (a + j) =
      if inSrc l (a + j) then memLookup m (a + j) else some (Config.freeByte (draw + j)) := by
  have miss : ∀ draw a n, memLookup (freeCells l m draw (a + 1) n) a = none := fun draw a n =>
    memLookup_eq_none fun c hc => by have := freeCells_bounds l m draw (a + 1) n c hc; omega
  induction n generalizing draw a j with
  | zero => omega
  | succ n ih =>
    cases j with
    | zero =>
      unfold freeCells
      by_cases hs : inSrc l a = true
      · simp only [hs, Nat.add_zero, if_true]
        cases hm : memLookup m a with
        | none => exact miss _ _ _
        | some b => simp [memLookup_cons]
      · simp [hs, memLookup_cons]
    | succ j =>
      have := ih (draw + 1) (a + 1) j (by omega)
      rw [show a + 1 + j = a + (j + 1) by omega, show draw + 1 + j = draw + (j + 1) by omega] at this
      rw [← this]
      have hne : a ≠ a + (j + 1) := by omega
      conv_lhs => unfold freeCells
      split
      · split
        · rw [memLookup_cons, if_neg hne]
        · rfl
      · rw [memLookup_cons, if_neg hne]

theorem dstSpan_top (l : Latch) : l.dstBase.toNat + dstSpan l ≤ addrCount := by
  have := l.dstBase.isLt
  simp only [dstSpan, addrCount]; omega

theorem freeDst_wf (l : Latch) (draw : Nat) (m : Memory) (hm : Memory.wf m) : Memory.wf (freeDst l draw m) :=
  memSplice_wf m _ _ _ hm (freeCells_sorted _ _ _ _ _) (freeCells_bounds _ _ _ _ _) (dstSpan_top l)

/-- A free DST region leaves every address outside the region alone. -/
theorem memByte_freeDst_outside (l : Latch) (draw : Nat) (m : Memory) (x : Nat) (hx : inDst l x = false) :
    memByte (freeDst l draw m) x = memByte m x := by
  unfold memByte freeDst
  rw [memLookup_splice_outside m _ _ _ x (freeCells_bounds _ _ _ _ _)]
  have := inRange_eq_false_iff.mp hx
  simp only [dstSpan]; omega

/-- A free DST region leaves the SRC region alone. -/
theorem memByte_freeDst_src (l : Latch) (draw : Nat) (m : Memory) (x : Nat) (hx : inSrc l x = true) :
    memByte (freeDst l draw m) x = memByte m x := by
  unfold memByte freeDst
  by_cases h : l.dstBase.toNat ≤ x ∧ x < l.dstBase.toNat + dstSpan l
  · obtain ⟨j, rfl⟩ := Nat.exists_eq_add_of_le h.1
    rw [memLookup_splice_inside m _ _ _ _ h.1 h.2, memLookup_freeCells _ _ _ _ _ j (by omega), if_pos hx]
  · rw [memLookup_splice_outside m _ _ _ x (freeCells_bounds _ _ _ _ _) (by omega)]

/-- Every other byte of a free DST region is a free draw of its own. -/
theorem memByte_freeDst_dst (l : Latch) (draw : Nat) (m : Memory) (j : Nat) (hj : j < dstSpan l)
    (hs : inSrc l (l.dstBase.toNat + j) = false) :
    memByte (freeDst l draw m) (l.dstBase.toNat + j) = Config.freeByte (draw + j) := by
  unfold memByte freeDst
  rw [memLookup_splice_inside m _ _ _ _ (by omega) (by omega), memLookup_freeCells _ _ _ _ _ j hj, hs]
  simp

/-! ### Reading a run of bytes -/

@[simp] theorem memBytes_length (m : Memory) (a n : Nat) : (memBytes m a n).length = n := by
  induction n generalizing a with
  | zero => rfl
  | succ n ih => simp [memBytes, ih]

theorem memBytes_congr (m m' : Memory) (a n : Nat) (h : ∀ x, a ≤ x → x < a + n → memByte m x = memByte m' x) :
    memBytes m a n = memBytes m' a n := by
  induction n generalizing a with
  | zero => rfl
  | succ n ih =>
    unfold memBytes
    rw [h a (by omega) (by omega), ih (a + 1) fun x h1 h2 => h x (by omega) (by omega)]

end Sys2Proof.Machine
end

