-- ==== Sys2Proof/Laws/State.lean ====
section
/-! SUPPORT. One lemma per field and update of State, each true by definition, so that no later proof unfolds a record
update. -/

namespace Sys2Proof.Machine

/-! ### A refused access -/

@[simp] theorem refuse_irqEn (r : Refusal) (s : State) : (refuse r s).irqEn = s.irqEn := rfl
@[simp] theorem refuse_busy (r : Refusal) (s : State) : (refuse r s).busy = s.busy := rfl
@[simp] theorem refuse_done (r : Refusal) (s : State) : (refuse r s).done = s.done := rfl
@[simp] theorem refuse_err (r : Refusal) (s : State) : (refuse r s).err = s.err := rfl
@[simp] theorem refuse_noop (r : Refusal) (s : State) : (refuse r s).noop = s.noop := rfl
@[simp] theorem refuse_overrun (r : Refusal) (s : State) : (refuse r s).overrun = s.overrun := rfl
@[simp] theorem refuse_errcode (r : Refusal) (s : State) : (refuse r s).errcode = s.errcode := rfl
@[simp] theorem refuse_detail (r : Refusal) (s : State) : (refuse r s).detail = s.detail := rfl
@[simp] theorem refuse_cmd (r : Refusal) (s : State) : (refuse r s).cmd = s.cmd := rfl
@[simp] theorem refuse_srcBase (r : Refusal) (s : State) : (refuse r s).srcBase = s.srcBase := rfl
@[simp] theorem refuse_srcLen (r : Refusal) (s : State) : (refuse r s).srcLen = s.srcLen := rfl
@[simp] theorem refuse_dstBase (r : Refusal) (s : State) : (refuse r s).dstBase = s.dstBase := rfl
@[simp] theorem refuse_dstCap (r : Refusal) (s : State) : (refuse r s).dstCap = s.dstCap := rfl
@[simp] theorem refuse_dstLen (r : Refusal) (s : State) : (refuse r s).dstLen = s.dstLen := rfl
@[simp] theorem refuse_errInfo (r : Refusal) (s : State) : (refuse r s).errInfo = s.errInfo := rfl
@[simp] theorem refuse_huffInfo (r : Refusal) (s : State) : (refuse r s).huffInfo = s.huffInfo := rfl
@[simp] theorem refuse_lat (r : Refusal) (s : State) : (refuse r s).lat = s.lat := rfl
@[simp] theorem refuse_mem (r : Refusal) (s : State) : (refuse r s).mem = s.mem := rfl
@[simp] theorem refuse_refusal (r : Refusal) (s : State) : (refuse r s).refusal = some r := rfl
@[simp] theorem refuse_platform (r : Refusal) (s : State) : (refuse r s).platform = s.platform := rfl
@[simp] theorem refuse_agenda (r : Refusal) (s : State) : (refuse r s).agenda = s.agenda := rfl
@[simp] theorem refuse_readData (r : Refusal) (s : State) : (refuse r s).readData = s.readData := rfl
@[simp] theorem refuse_draws (r : Refusal) (s : State) : (refuse r s).draws = s.draws := rfl

/-! ### Issue -/

@[simp] theorem issue_irqEn (w : Word) (s : State) : (issue w s).irqEn = s.irqEn := rfl
@[simp] theorem issue_busy (w : Word) (s : State) : (issue w s).busy = true := rfl
@[simp] theorem issue_done (w : Word) (s : State) : (issue w s).done = false := rfl
@[simp] theorem issue_err (w : Word) (s : State) : (issue w s).err = false := rfl
@[simp] theorem issue_noop (w : Word) (s : State) : (issue w s).noop = false := rfl
@[simp] theorem issue_overrun (w : Word) (s : State) : (issue w s).overrun = s.overrun := rfl
@[simp] theorem issue_errcode (w : Word) (s : State) : (issue w s).errcode = 0 := rfl
@[simp] theorem issue_detail (w : Word) (s : State) : (issue w s).detail = 0 := rfl
@[simp] theorem issue_cmd (w : Word) (s : State) : (issue w s).cmd = w := rfl
@[simp] theorem issue_srcBase (w : Word) (s : State) : (issue w s).srcBase = s.srcBase := rfl
@[simp] theorem issue_srcLen (w : Word) (s : State) : (issue w s).srcLen = s.srcLen := rfl
@[simp] theorem issue_dstBase (w : Word) (s : State) : (issue w s).dstBase = s.dstBase := rfl
@[simp] theorem issue_dstCap (w : Word) (s : State) : (issue w s).dstCap = s.dstCap := rfl
@[simp] theorem issue_dstLen (w : Word) (s : State) : (issue w s).dstLen = 0 := rfl
@[simp] theorem issue_errInfo (w : Word) (s : State) : (issue w s).errInfo = 0 := rfl
@[simp] theorem issue_huffInfo (w : Word) (s : State) : (issue w s).huffInfo = 0 := rfl
@[simp] theorem issue_lat (w : Word) (s : State) : (issue w s).lat = ⟨w, s.srcBase, s.srcLen, s.dstBase, s.dstCap⟩ := rfl
@[simp] theorem issue_mem (w : Word) (s : State) : (issue w s).mem = s.mem := rfl
@[simp] theorem issue_refusal (w : Word) (s : State) : (issue w s).refusal = s.refusal := rfl
@[simp] theorem issue_platform (w : Word) (s : State) : (issue w s).platform = s.platform := rfl
@[simp] theorem issue_agenda (w : Word) (s : State) : (issue w s).agenda = s.agenda := rfl
@[simp] theorem issue_readData (w : Word) (s : State) : (issue w s).readData = s.readData := rfl
@[simp] theorem issue_draws (w : Word) (s : State) : (issue w s).draws = s.draws := rfl

/-! ### Placing a command -/

@[simp] theorem placeCommand_irqEn (w : Word) (s : State) : (placeCommand w s).irqEn = s.irqEn := rfl
@[simp] theorem placeCommand_busy (w : Word) (s : State) : (placeCommand w s).busy = true := rfl
@[simp] theorem placeCommand_done (w : Word) (s : State) : (placeCommand w s).done = false := rfl
@[simp] theorem placeCommand_err (w : Word) (s : State) : (placeCommand w s).err = false := rfl
@[simp] theorem placeCommand_noop (w : Word) (s : State) : (placeCommand w s).noop = false := rfl
@[simp] theorem placeCommand_overrun (w : Word) (s : State) : (placeCommand w s).overrun = s.overrun := rfl
@[simp] theorem placeCommand_errcode (w : Word) (s : State) : (placeCommand w s).errcode = 0 := rfl
@[simp] theorem placeCommand_detail (w : Word) (s : State) : (placeCommand w s).detail = 0 := rfl
@[simp] theorem placeCommand_cmd (w : Word) (s : State) : (placeCommand w s).cmd = w := rfl
@[simp] theorem placeCommand_srcBase (w : Word) (s : State) : (placeCommand w s).srcBase = s.srcBase := rfl
@[simp] theorem placeCommand_srcLen (w : Word) (s : State) : (placeCommand w s).srcLen = s.srcLen := rfl
@[simp] theorem placeCommand_dstBase (w : Word) (s : State) : (placeCommand w s).dstBase = s.dstBase := rfl
@[simp] theorem placeCommand_dstCap (w : Word) (s : State) : (placeCommand w s).dstCap = s.dstCap := rfl
@[simp] theorem placeCommand_dstLen (w : Word) (s : State) : (placeCommand w s).dstLen = 0 := rfl
@[simp] theorem placeCommand_errInfo (w : Word) (s : State) : (placeCommand w s).errInfo = 0 := rfl
@[simp] theorem placeCommand_huffInfo (w : Word) (s : State) : (placeCommand w s).huffInfo = 0 := rfl
@[simp] theorem placeCommand_lat (w : Word) (s : State) : (placeCommand w s).lat = ⟨w, s.srcBase, s.srcLen, s.dstBase, s.dstCap⟩ := rfl
@[simp] theorem placeCommand_mem (w : Word) (s : State) : (placeCommand w s).mem = s.mem := rfl
@[simp] theorem placeCommand_refusal (w : Word) (s : State) : (placeCommand w s).refusal = none := rfl
@[simp] theorem placeCommand_platform (w : Word) (s : State) : (placeCommand w s).platform = s.platform := rfl
@[simp] theorem placeCommand_agenda (w : Word) (s : State) : (placeCommand w s).agenda = [] := rfl
@[simp] theorem placeCommand_readData (w : Word) (s : State) : (placeCommand w s).readData = s.readData := rfl
@[simp] theorem placeCommand_draws (w : Word) (s : State) : (placeCommand w s).draws = s.draws := rfl

/-! ### The acknowledgement -/

@[simp] theorem ackStatus_irqEn (v : Word) (s : State) : (ackStatus v s).irqEn = s.irqEn := rfl
@[simp] theorem ackStatus_busy (v : Word) (s : State) : (ackStatus v s).busy = s.busy := rfl
@[simp] theorem ackStatus_done (v : Word) (s : State) : (ackStatus v s).done = w1c s.done (v.getLsbD 1) := rfl
@[simp] theorem ackStatus_err (v : Word) (s : State) : (ackStatus v s).err = w1c s.err (v.getLsbD 2) := rfl
@[simp] theorem ackStatus_noop (v : Word) (s : State) : (ackStatus v s).noop = w1c s.noop (v.getLsbD 3) := rfl
@[simp] theorem ackStatus_overrun (v : Word) (s : State) : (ackStatus v s).overrun = w1c s.overrun (v.getLsbD 4) := rfl
@[simp] theorem ackStatus_errcode (v : Word) (s : State) : (ackStatus v s).errcode = s.errcode := rfl
@[simp] theorem ackStatus_detail (v : Word) (s : State) : (ackStatus v s).detail = s.detail := rfl
@[simp] theorem ackStatus_cmd (v : Word) (s : State) : (ackStatus v s).cmd = s.cmd := rfl
@[simp] theorem ackStatus_srcBase (v : Word) (s : State) : (ackStatus v s).srcBase = s.srcBase := rfl
@[simp] theorem ackStatus_srcLen (v : Word) (s : State) : (ackStatus v s).srcLen = s.srcLen := rfl
@[simp] theorem ackStatus_dstBase (v : Word) (s : State) : (ackStatus v s).dstBase = s.dstBase := rfl
@[simp] theorem ackStatus_dstCap (v : Word) (s : State) : (ackStatus v s).dstCap = s.dstCap := rfl
@[simp] theorem ackStatus_dstLen (v : Word) (s : State) : (ackStatus v s).dstLen = s.dstLen := rfl
@[simp] theorem ackStatus_errInfo (v : Word) (s : State) : (ackStatus v s).errInfo = s.errInfo := rfl
@[simp] theorem ackStatus_huffInfo (v : Word) (s : State) : (ackStatus v s).huffInfo = s.huffInfo := rfl
@[simp] theorem ackStatus_lat (v : Word) (s : State) : (ackStatus v s).lat = s.lat := rfl
@[simp] theorem ackStatus_mem (v : Word) (s : State) : (ackStatus v s).mem = s.mem := rfl
@[simp] theorem ackStatus_refusal (v : Word) (s : State) : (ackStatus v s).refusal = s.refusal := rfl
@[simp] theorem ackStatus_platform (v : Word) (s : State) : (ackStatus v s).platform = s.platform := rfl
@[simp] theorem ackStatus_agenda (v : Word) (s : State) : (ackStatus v s).agenda = s.agenda := rfl
@[simp] theorem ackStatus_readData (v : Word) (s : State) : (ackStatus v s).readData = s.readData := rfl
@[simp] theorem ackStatus_draws (v : Word) (s : State) : (ackStatus v s).draws = s.draws := rfl

/-! ### Completion with an output -/

@[simp] theorem complete_ok_irqEn (out : List Byte) (h : Word) (s : State) : (complete (.ok out h) s).irqEn = s.irqEn := rfl
@[simp] theorem complete_ok_busy (out : List Byte) (h : Word) (s : State) : (complete (.ok out h) s).busy = false := rfl
@[simp] theorem complete_ok_done (out : List Byte) (h : Word) (s : State) : (complete (.ok out h) s).done = true := rfl
@[simp] theorem complete_ok_err (out : List Byte) (h : Word) (s : State) : (complete (.ok out h) s).err = s.err := rfl
@[simp] theorem complete_ok_noop (out : List Byte) (h : Word) (s : State) : (complete (.ok out h) s).noop = s.noop := rfl
@[simp] theorem complete_ok_overrun (out : List Byte) (h : Word) (s : State) : (complete (.ok out h) s).overrun = s.overrun := rfl
@[simp] theorem complete_ok_errcode (out : List Byte) (h : Word) (s : State) : (complete (.ok out h) s).errcode = 0 := rfl
@[simp] theorem complete_ok_detail (out : List Byte) (h : Word) (s : State) : (complete (.ok out h) s).detail = 0 := rfl
@[simp] theorem complete_ok_cmd (out : List Byte) (h : Word) (s : State) : (complete (.ok out h) s).cmd = s.cmd := rfl
@[simp] theorem complete_ok_srcBase (out : List Byte) (h : Word) (s : State) : (complete (.ok out h) s).srcBase = s.srcBase := rfl
@[simp] theorem complete_ok_srcLen (out : List Byte) (h : Word) (s : State) : (complete (.ok out h) s).srcLen = s.srcLen := rfl
@[simp] theorem complete_ok_dstBase (out : List Byte) (h : Word) (s : State) : (complete (.ok out h) s).dstBase = s.dstBase := rfl
@[simp] theorem complete_ok_dstCap (out : List Byte) (h : Word) (s : State) : (complete (.ok out h) s).dstCap = s.dstCap := rfl
@[simp] theorem complete_ok_dstLen (out : List Byte) (h : Word) (s : State) : (complete (.ok out h) s).dstLen = BitVec.ofNat 32 out.length := rfl
@[simp] theorem complete_ok_errInfo (out : List Byte) (h : Word) (s : State) : (complete (.ok out h) s).errInfo = 0 := rfl
@[simp] theorem complete_ok_huffInfo (out : List Byte) (h : Word) (s : State) : (complete (.ok out h) s).huffInfo = h := rfl
@[simp] theorem complete_ok_lat (out : List Byte) (h : Word) (s : State) : (complete (.ok out h) s).lat = s.lat := rfl
@[simp] theorem complete_ok_mem (out : List Byte) (h : Word) (s : State) : (complete (.ok out h) s).mem = memWriteBytes s.mem s.lat.dstBase.toNat out := rfl
@[simp] theorem complete_ok_refusal (out : List Byte) (h : Word) (s : State) : (complete (.ok out h) s).refusal = s.refusal := rfl
@[simp] theorem complete_ok_platform (out : List Byte) (h : Word) (s : State) : (complete (.ok out h) s).platform = s.platform := rfl
@[simp] theorem complete_ok_agenda (out : List Byte) (h : Word) (s : State) : (complete (.ok out h) s).agenda = s.agenda := rfl
@[simp] theorem complete_ok_readData (out : List Byte) (h : Word) (s : State) : (complete (.ok out h) s).readData = s.readData := rfl
@[simp] theorem complete_ok_draws (out : List Byte) (h : Word) (s : State) : (complete (.ok out h) s).draws = s.draws := rfl

/-! ### Completion of a no-op -/

@[simp] theorem complete_noOp_irqEn (s : State) : (complete .noOp s).irqEn = s.irqEn := rfl
@[simp] theorem complete_noOp_busy (s : State) : (complete .noOp s).busy = false := rfl
@[simp] theorem complete_noOp_done (s : State) : (complete .noOp s).done = true := rfl
@[simp] theorem complete_noOp_err (s : State) : (complete .noOp s).err = s.err := rfl
@[simp] theorem complete_noOp_noop (s : State) : (complete .noOp s).noop = true := rfl
@[simp] theorem complete_noOp_overrun (s : State) : (complete .noOp s).overrun = s.overrun := rfl
@[simp] theorem complete_noOp_errcode (s : State) : (complete .noOp s).errcode = s.errcode := rfl
@[simp] theorem complete_noOp_detail (s : State) : (complete .noOp s).detail = s.detail := rfl
@[simp] theorem complete_noOp_cmd (s : State) : (complete .noOp s).cmd = s.cmd := rfl
@[simp] theorem complete_noOp_srcBase (s : State) : (complete .noOp s).srcBase = s.srcBase := rfl
@[simp] theorem complete_noOp_srcLen (s : State) : (complete .noOp s).srcLen = s.srcLen := rfl
@[simp] theorem complete_noOp_dstBase (s : State) : (complete .noOp s).dstBase = s.dstBase := rfl
@[simp] theorem complete_noOp_dstCap (s : State) : (complete .noOp s).dstCap = s.dstCap := rfl
@[simp] theorem complete_noOp_dstLen (s : State) : (complete .noOp s).dstLen = 0 := rfl
@[simp] theorem complete_noOp_errInfo (s : State) : (complete .noOp s).errInfo = s.errInfo := rfl
@[simp] theorem complete_noOp_huffInfo (s : State) : (complete .noOp s).huffInfo = s.huffInfo := rfl
@[simp] theorem complete_noOp_lat (s : State) : (complete .noOp s).lat = s.lat := rfl
@[simp] theorem complete_noOp_mem (s : State) : (complete .noOp s).mem = s.mem := rfl
@[simp] theorem complete_noOp_refusal (s : State) : (complete .noOp s).refusal = s.refusal := rfl
@[simp] theorem complete_noOp_platform (s : State) : (complete .noOp s).platform = s.platform := rfl
@[simp] theorem complete_noOp_agenda (s : State) : (complete .noOp s).agenda = s.agenda := rfl
@[simp] theorem complete_noOp_readData (s : State) : (complete .noOp s).readData = s.readData := rfl
@[simp] theorem complete_noOp_draws (s : State) : (complete .noOp s).draws = s.draws := rfl

/-! ### Completion with an error -/

@[simp] theorem complete_err_irqEn (e : CmdError) (i : Word) (s : State) : (complete (.err e i) s).irqEn = s.irqEn := rfl
@[simp] theorem complete_err_busy (e : CmdError) (i : Word) (s : State) : (complete (.err e i) s).busy = false := rfl
@[simp] theorem complete_err_done (e : CmdError) (i : Word) (s : State) : (complete (.err e i) s).done = true := rfl
@[simp] theorem complete_err_err (e : CmdError) (i : Word) (s : State) : (complete (.err e i) s).err = true := rfl
@[simp] theorem complete_err_noop (e : CmdError) (i : Word) (s : State) : (complete (.err e i) s).noop = s.noop := rfl
@[simp] theorem complete_err_overrun (e : CmdError) (i : Word) (s : State) : (complete (.err e i) s).overrun = s.overrun := rfl
@[simp] theorem complete_err_errcode (e : CmdError) (i : Word) (s : State) : (complete (.err e i) s).errcode = errorCode e := rfl
@[simp] theorem complete_err_detail (e : CmdError) (i : Word) (s : State) : (complete (.err e i) s).detail = errorDetail e := rfl
@[simp] theorem complete_err_cmd (e : CmdError) (i : Word) (s : State) : (complete (.err e i) s).cmd = s.cmd := rfl
@[simp] theorem complete_err_srcBase (e : CmdError) (i : Word) (s : State) : (complete (.err e i) s).srcBase = s.srcBase := rfl
@[simp] theorem complete_err_srcLen (e : CmdError) (i : Word) (s : State) : (complete (.err e i) s).srcLen = s.srcLen := rfl
@[simp] theorem complete_err_dstBase (e : CmdError) (i : Word) (s : State) : (complete (.err e i) s).dstBase = s.dstBase := rfl
@[simp] theorem complete_err_dstCap (e : CmdError) (i : Word) (s : State) : (complete (.err e i) s).dstCap = s.dstCap := rfl
@[simp] theorem complete_err_dstLen (e : CmdError) (i : Word) (s : State) : (complete (.err e i) s).dstLen = 0 := rfl
@[simp] theorem complete_err_errInfo (e : CmdError) (i : Word) (s : State) : (complete (.err e i) s).errInfo = i := rfl
@[simp] theorem complete_err_huffInfo (e : CmdError) (i : Word) (s : State) : (complete (.err e i) s).huffInfo = s.huffInfo := rfl
@[simp] theorem complete_err_lat (e : CmdError) (i : Word) (s : State) : (complete (.err e i) s).lat = s.lat := rfl
@[simp] theorem complete_err_mem (e : CmdError) (i : Word) (s : State) : (complete (.err e i) s).mem = if errorLeavesDstFree e then freeDst s.lat s.draws s.mem else s.mem := rfl
@[simp] theorem complete_err_refusal (e : CmdError) (i : Word) (s : State) : (complete (.err e i) s).refusal = s.refusal := rfl
@[simp] theorem complete_err_platform (e : CmdError) (i : Word) (s : State) : (complete (.err e i) s).platform = s.platform := rfl
@[simp] theorem complete_err_agenda (e : CmdError) (i : Word) (s : State) : (complete (.err e i) s).agenda = s.agenda := rfl
@[simp] theorem complete_err_readData (e : CmdError) (i : Word) (s : State) : (complete (.err e i) s).readData = s.readData := rfl
@[simp] theorem complete_err_draws (e : CmdError) (i : Word) (s : State) : (complete (.err e i) s).draws = if errorLeavesDstFree e then s.draws + dstSpan s.lat else s.draws := rfl

/-! ### Reset -/

@[simp] theorem resetBlock_irqEn (s : State) : (resetBlock s).irqEn = false := rfl
@[simp] theorem resetBlock_busy (s : State) : (resetBlock s).busy = false := rfl
@[simp] theorem resetBlock_done (s : State) : (resetBlock s).done = false := rfl
@[simp] theorem resetBlock_err (s : State) : (resetBlock s).err = false := rfl
@[simp] theorem resetBlock_noop (s : State) : (resetBlock s).noop = false := rfl
@[simp] theorem resetBlock_overrun (s : State) : (resetBlock s).overrun = false := rfl
@[simp] theorem resetBlock_errcode (s : State) : (resetBlock s).errcode = 0 := rfl
@[simp] theorem resetBlock_detail (s : State) : (resetBlock s).detail = 0 := rfl
@[simp] theorem resetBlock_cmd (s : State) : (resetBlock s).cmd = 0 := rfl
@[simp] theorem resetBlock_srcBase (s : State) : (resetBlock s).srcBase = 0 := rfl
@[simp] theorem resetBlock_srcLen (s : State) : (resetBlock s).srcLen = 0 := rfl
@[simp] theorem resetBlock_dstBase (s : State) : (resetBlock s).dstBase = 0 := rfl
@[simp] theorem resetBlock_dstCap (s : State) : (resetBlock s).dstCap = 0 := rfl
@[simp] theorem resetBlock_dstLen (s : State) : (resetBlock s).dstLen = 0 := rfl
@[simp] theorem resetBlock_errInfo (s : State) : (resetBlock s).errInfo = 0 := rfl
@[simp] theorem resetBlock_huffInfo (s : State) : (resetBlock s).huffInfo = 0 := rfl
@[simp] theorem resetBlock_lat (s : State) : (resetBlock s).lat = ⟨0, 0, 0, 0, 0⟩ := rfl
@[simp] theorem resetBlock_mem (s : State) : (resetBlock s).mem = if s.busy then freeDst s.lat s.draws s.mem else s.mem := rfl
@[simp] theorem resetBlock_refusal (s : State) : (resetBlock s).refusal = s.refusal := rfl
@[simp] theorem resetBlock_platform (s : State) : (resetBlock s).platform = s.platform := rfl
@[simp] theorem resetBlock_agenda (s : State) : (resetBlock s).agenda = s.agenda := rfl
@[simp] theorem resetBlock_readData (s : State) : (resetBlock s).readData = s.readData := rfl
@[simp] theorem resetBlock_draws (s : State) : (resetBlock s).draws = if s.busy then s.draws + dstSpan s.lat else s.draws := rfl

/-! ### What no completion changes -/

@[simp] theorem complete_irqEn (o : CmdOutcome) (s : State) : (complete o s).irqEn = s.irqEn := by cases o <;> rfl
@[simp] theorem complete_overrun (o : CmdOutcome) (s : State) : (complete o s).overrun = s.overrun := by cases o <;> rfl
@[simp] theorem complete_cmd (o : CmdOutcome) (s : State) : (complete o s).cmd = s.cmd := by cases o <;> rfl
@[simp] theorem complete_srcBase (o : CmdOutcome) (s : State) : (complete o s).srcBase = s.srcBase := by cases o <;> rfl
@[simp] theorem complete_srcLen (o : CmdOutcome) (s : State) : (complete o s).srcLen = s.srcLen := by cases o <;> rfl
@[simp] theorem complete_dstBase (o : CmdOutcome) (s : State) : (complete o s).dstBase = s.dstBase := by cases o <;> rfl
@[simp] theorem complete_dstCap (o : CmdOutcome) (s : State) : (complete o s).dstCap = s.dstCap := by cases o <;> rfl
@[simp] theorem complete_lat (o : CmdOutcome) (s : State) : (complete o s).lat = s.lat := by cases o <;> rfl
@[simp] theorem complete_refusal (o : CmdOutcome) (s : State) : (complete o s).refusal = s.refusal := by cases o <;> rfl
@[simp] theorem complete_platform (o : CmdOutcome) (s : State) : (complete o s).platform = s.platform := by cases o <;> rfl
@[simp] theorem complete_agenda (o : CmdOutcome) (s : State) : (complete o s).agenda = s.agenda := by cases o <;> rfl
@[simp] theorem complete_readData (o : CmdOutcome) (s : State) : (complete o s).readData = s.readData := by cases o <;> rfl
@[simp] theorem complete_busy (o : CmdOutcome) (s : State) : (complete o s).busy = false := by cases o <;> rfl
@[simp] theorem complete_done (o : CmdOutcome) (s : State) : (complete o s).done = true := by cases o <;> rfl
@[simp] theorem complete_mem (o : CmdOutcome) (s : State) : (complete o s).mem = completionMem o s := rfl
@[simp] theorem complete_draws (o : CmdOutcome) (s : State) : (complete o s).draws = completionDraws o s := rfl

end Sys2Proof.Machine
end

