-- ==== Sys2Proof/Laws/Step.lean ====
section
/-! SUPPORT. What the check order, a command, the engine and a step can do, said once: later proofs cite these and do not
unfold the definitions. -/

namespace Sys2Proof.Machine

/-! ### The check order -/

/-- A bus fault is the lowest failing address of its range. -/
theorem firstBusFault_some {p : Platform} {k : AccessKind} {a n x : Nat} (h : firstBusFault p k a n = some x) :
    a ≤ x ∧ x < a + n ∧ memOk p k x = false ∧ ∀ y, a ≤ y → y < x → memOk p k y = true := by
  induction n generalizing a with
  | zero => cases h
  | succ n ih =>
    unfold firstBusFault at h
    split at h
    · rename_i hok
      obtain ⟨h1, h2, h3, h4⟩ := ih h
      refine ⟨by omega, by omega, h3, fun y hy hy' => ?_⟩
      rcases Nat.lt_or_ge a y with hlt | hge
      · exact h4 y (by omega) hy'
      · have : y = a := by omega
        exact this ▸ hok
    · rename_i hok
      cases h
      exact ⟨Nat.le_refl _, by omega, by simpa using hok, fun y _ _ => by omega⟩

/-- No bus fault: every access of the range succeeds. -/
theorem firstBusFault_none {p : Platform} {k : AccessKind} {a n : Nat} :
    firstBusFault p k a n = none ↔ ∀ j, j < n → memOk p k (a + j) = true := by
  induction n generalizing a with
  | zero => simp [firstBusFault]
  | succ n ih =>
    unfold firstBusFault
    split
    · rename_i hok
      rw [ih]
      constructor
      · intro h j hj
        cases j with
        | zero => exact hok
        | succ j => have := h j (by omega); rwa [show a + 1 + j = a + (j + 1) by omega] at this
      · intro h j hj
        have := h (j + 1) (by omega)
        rwa [show a + (j + 1) = a + 1 + j by omega] at this
    · rename_i hok
      exact ⟨fun h => (nomatch h), fun h => absurd (h 0 (Nat.succ_pos n)) hok⟩

/-- An output that is published fits the destination, and every write of it succeeds. -/
theorem transformOutcome_ok {F : List Byte → Transform} {s : State} {out : List Byte} {h : Word}
    (ho : transformOutcome F s = .ok out h) :
    F (sourceBytes s) = .ok (out, h) ∧ out.length ≤ s.lat.dstCap.toNat := by
  unfold transformOutcome at ho
  split at ho
  · cases ho
  · split at ho
    · cases ho
    · rename_i out' h' hF
      split at ho
      · cases ho
      · rename_i hcap
        split at ho
        · cases ho
        · cases ho
          exact ⟨hF, by omega⟩

/-- The check order never ends in the no-op, which is decided before it. -/
theorem transformOutcome_ne_noOp (F : List Byte → Transform) (s : State) : transformOutcome F s ≠ .noOp := by
  unfold transformOutcome
  split
  · exact fun h => by cases h
  · split
    · exact fun h => by cases h
    · split
      · exact fun h => by cases h
      · split <;> exact fun h => by cases h

theorem rangeError_none {l : Latch} (h : rangeError l = none) :
    l.srcBase.toNat + l.srcLen.toNat ≤ addrCount ∧ l.dstBase.toNat + l.dstCap.toNat ≤ addrCount ∧
      rangesMeet l.srcBase.toNat l.srcLen.toNat l.dstBase.toNat l.dstCap.toNat = false := by
  unfold rangeError at h
  split at h
  · cases h
  · split at h
    · cases h
    · split at h
      · cases h
      · rename_i h1 h2 h3
        exact ⟨by omega, by omega, by simpa using h3⟩

/-! ### A command -/

/-- Everything a command can do: be refused for its memory, or complete with one outcome; and what is known of that
outcome. -/
theorem runCommand_cases (F : List Byte → Transform) (s : State) :
    (runCommand F s = refuse .regionOnDevice s ∧ rangeError s.lat = none ∧ regionOnDevice s.platform s.lat = true) ∨
      (∃ e, rangeError s.lat = some e ∧ runCommand F s = complete (.err e 0) s) ∨
      (rangeError s.lat = none ∧ runCommand F s = complete (transformOutcome F s) s) := by
  unfold runCommand
  split
  · rename_i e he
    exact .inr (.inl ⟨e, he, rfl⟩)
  · rename_i hn
    split
    · rename_i hd
      exact .inl ⟨rfl, hn, hd⟩
    · exact .inr (.inr ⟨hn, rfl⟩)

/-- A command that passes the range checks with a region on memory that is not normal is refused. -/
theorem runCommand_onDevice (F : List Byte → Transform) {s : State} (hr : rangeError s.lat = none)
    (hd : regionOnDevice s.platform s.lat = true) : runCommand F s = refuse .regionOnDevice s := by
  simp only [runCommand, hr, hd, if_true]

/-- Everything exec can do: a next state, in which the command was refused for its memory or completed. An output that is
published fits the DST region, and the region lies in the address space. -/
theorem exec_cases {i : Instr} {s t : State} (h : exec i s = .next t) :
    (t = refuse .regionOnDevice s ∧ isNoOp i = false ∧ rangeError s.lat = none ∧
        regionOnDevice s.platform s.lat = true) ∨
      ∃ o, t = complete o s ∧
        ∀ out hi, o = .ok out hi →
          out.length ≤ s.lat.dstCap.toNat ∧ s.lat.dstBase.toNat + s.lat.dstCap.toNat ≤ addrCount := by
  have key : ∀ F, isNoOp i = false → t = runCommand F s →
      (t = refuse .regionOnDevice s ∧ isNoOp i = false ∧ rangeError s.lat = none ∧
          regionOnDevice s.platform s.lat = true) ∨
        ∃ o, t = complete o s ∧
          ∀ out hi, o = .ok out hi →
            out.length ≤ s.lat.dstCap.toNat ∧ s.lat.dstBase.toNat + s.lat.dstCap.toNat ≤ addrCount := by
    intro F hn ht
    rcases runCommand_cases F s with ⟨h1, h2⟩ | ⟨e, _, h1⟩ | ⟨hr, h1⟩
    · exact .inl ⟨ht.trans h1, hn, h2⟩
    · exact .inr ⟨_, ht.trans h1, fun out hi ho => by cases ho⟩
    · exact .inr ⟨_, ht.trans h1, fun out hi ho => ⟨(transformOutcome_ok ho).2, (rangeError_none hr).2.1⟩⟩
  have key7 : ∀ F ob, isNoOp i = !obValid ob → t = runLz77 F ob s →
      (t = refuse .regionOnDevice s ∧ isNoOp i = false ∧ rangeError s.lat = none ∧
          regionOnDevice s.platform s.lat = true) ∨
        ∃ o, t = complete o s ∧
          ∀ out hi, o = .ok out hi →
            out.length ≤ s.lat.dstCap.toNat ∧ s.lat.dstBase.toNat + s.lat.dstCap.toNat ≤ addrCount := by
    intro F ob hn ht
    unfold runLz77 at ht
    split at ht
    · rename_i hv
      exact key _ (by rw [hn, hv]; rfl) ht
    · exact .inr ⟨_, ht, fun out hi ho => by cases ho⟩
  cases i with
  | huffEnc ob => exact key huffEncode rfl (by simpa [exec, execHuffEnc] using h.symm)
  | huffDec ob => exact key huffDecode rfl (by simpa [exec, execHuffDec] using h.symm)
  | lz77Enc ob => exact key7 lz77Encode ob rfl (by simpa [exec, execLz77Enc] using h.symm)
  | lz77Dec ob => exact key7 lz77Decode ob rfl (by simpa [exec, execLz77Dec] using h.symm)

/-- exec refuses a command that is no no-op, passes the range checks and has a region on memory that is not normal. -/
theorem exec_onDevice {i : Instr} {s : State} (hn : isNoOp i = false) (hr : rangeError s.lat = none)
    (hd : regionOnDevice s.platform s.lat = true) : exec i s = .next (refuse .regionOnDevice s) := by
  have run : ∀ F, runCommand F s = refuse .regionOnDevice s := fun F => runCommand_onDevice F hr hd
  cases i with
  | huffEnc ob => exact congrArg _ (run _)
  | huffDec ob => exact congrArg _ (run _)
  | lz77Enc ob =>
    have hv : obValid ob = true := by simpa [isNoOp] using hn
    simp only [exec, execLz77Enc, runLz77, hv, if_true, run]
  | lz77Dec ob =>
    have hv : obValid ob = true := by simpa [isNoOp] using hn
    simp only [exec, execLz77Dec, runLz77, hv, if_true, run]

/-- exec always answers a next state. -/
theorem exec_next (i : Instr) (s : State) : ∃ t, exec i s = .next t := by
  cases i <;> exact ⟨_, rfl⟩

/-! ### A completion's memory -/

/-- A completion changes no byte outside the DST region. -/
theorem completionMem_outside {o : CmdOutcome} {s : State} {x : Nat}
    (ho : ∀ out hi, o = .ok out hi → out.length ≤ s.lat.dstCap.toNat) (hx : inDst s.lat x = false) :
    memByte (completionMem o s) x = memByte s.mem x := by
  cases o with
  | ok out hi =>
    have h1 := ho out hi rfl
    have h2 := inRange_eq_false_iff.mp hx
    exact memByte_writeBytes_outside _ _ _ _ (by omega)
  | noOp => rfl
  | err e i =>
    show memByte (if errorLeavesDstFree e then freeDst s.lat s.draws s.mem else s.mem) x = _
    split
    · exact memByte_freeDst_outside _ _ _ _ hx
    · rfl

/-- A completion keeps the canonical form of memory. -/
theorem completionMem_wf {o : CmdOutcome} {s : State}
    (ho : ∀ out hi, o = .ok out hi →
      out.length ≤ s.lat.dstCap.toNat ∧ s.lat.dstBase.toNat + s.lat.dstCap.toNat ≤ addrCount)
    (hm : Memory.wf s.mem) : Memory.wf (completionMem o s) := by
  cases o with
  | ok out hi =>
    have := ho out hi rfl
    exact memWriteBytes_wf _ _ _ hm (by omega)
  | noOp => exact hm
  | err e i =>
    show Memory.wf (if errorLeavesDstFree e then freeDst s.lat s.draws s.mem else s.mem)
    split
    · exact freeDst_wf _ _ _ hm
    · exact hm

/-! ### The engine and a step -/

/-- Everything the engine's turn can do. -/
theorem engineStep_cases {s t : State} (h : engineStep s = .next t) :
    (s.busy = false ∧ t = s) ∨
      (s.busy = true ∧
        ((t = refuse .regionOnDevice s ∧ runsOnDevice s = true) ∨
          ∃ o, t = complete o s ∧
            ∀ out hi, o = .ok out hi →
              out.length ≤ s.lat.dstCap.toNat ∧ s.lat.dstBase.toNat + s.lat.dstCap.toNat ≤ addrCount)) := by
  unfold engineStep at h
  cases hb : s.busy with
  | false =>
    simp [hb] at h
    exact .inl ⟨rfl, h.symm⟩
  | true =>
    refine .inr ⟨rfl, ?_⟩
    simp [hb] at h
    split at h
    · rename_i i hi
      rcases exec_cases h with ⟨ht, hn, hr, hd⟩ | ho
      · refine .inl ⟨ht, ?_⟩
        have hi' : decodeWord s.lat.word = .ok i := hi
        cases i <;> simp_all [runsOnDevice, touchesMemory, isNoOp]
      · exact .inr ho
    · cases h
      exact .inr ⟨_, rfl, fun out hi ho => by cases ho⟩

/-- A step that answers a next state starts unmarked and runs the next event, or the engine's turn when there is none. -/
theorem step_cases {s t : State} (h : step s = .next t) :
    s.refusal = none ∧
      ((s.agenda = [] ∧ engineStep s = .next t) ∨
        ∃ e rest, s.agenda = e :: rest ∧ eventStep e { s with agenda := rest } = .next t) := by
  unfold step runStep at h
  split at h
  · cases h
  · rename_i hr
    refine ⟨hr, ?_⟩
    split at h
    · rename_i ha
      exact .inl ⟨ha, h⟩
    · rename_i e rest ha
      exact .inr ⟨e, rest, ha, h⟩

end Sys2Proof.Machine
end

