-- ==== Sys2Proof/Laws/Host.lean ====
section
/-! SUPPORT. Which register a CSR access reaches, and every case of a step at once. -/

namespace Sys2Proof.Machine

/-- An aligned 32-bit access inside the block reaches the register at its offset (10_state.md R28). -/
theorem csrTarget_of_offset (p : Platform) (off : Nat) (hal : off % 4 = 0) (hle : off ≤ 0xFC) :
    csrTarget p (csrBase p + off) 4 = some (csrAt off) := by
  unfold csrTarget
  rw [if_pos ⟨rfl, by omega, by rw [Nat.add_sub_cancel_left]; exact hal,
    by rw [Nat.add_sub_cancel_left]; show off < 0x100; omega⟩, Nat.add_sub_cancel_left]

/-- An access that reaches a register is an aligned 32-bit one inside the block. -/
theorem csrTarget_some {p : Platform} {addr bytes : Nat} {c : Csr} (h : csrTarget p addr bytes = some c) :
    bytes = 4 ∧ ∃ off, off % 4 = 0 ∧ off ≤ 0xFC ∧ addr = csrBase p + off ∧ c = csrAt off := by
  unfold csrTarget at h
  split at h
  · rename_i hh
    obtain ⟨h0, h1, h2, h3⟩ := hh
    have h3' : addr - csrBase p < 0x100 := h3
    cases h
    exact ⟨h0, addr - csrBase p, h2, by omega, by omega, rfl⟩
  · cases h

/-- Any other access reaches none. -/
theorem csrTarget_none_iff {p : Platform} {addr bytes : Nat} :
    csrTarget p addr bytes = none ↔
      ¬ (bytes = 4 ∧ ∃ off, off % 4 = 0 ∧ off ≤ 0xFC ∧ addr = csrBase p + off) := by
  constructor
  · rintro h ⟨rfl, off, h1, h2, rfl⟩
    rw [csrTarget_of_offset p off h1 h2] at h
    cases h
  · intro h
    cases hc : csrTarget p addr bytes with
    | none => rfl
    | some c =>
      obtain ⟨h1, off, h2, h3, h4, _⟩ := csrTarget_some hc
      exact absurd ⟨h1, off, h2, h3, h4⟩ h

/-! Only one offset reaches CTRL, STATUS or CMD. -/

theorem csrAt_ctrl {off : Nat} (h : csrAt off = .ctrl) : off = 0x04 := by
  by_contra hne
  unfold csrAt at h
  rw [if_neg hne] at h
  repeat' (split at h; · cases h)
  cases h

theorem csrAt_status {off : Nat} (h : csrAt off = .status) : off = 0x08 := by
  by_contra hne
  unfold csrAt at h
  rw [if_neg hne] at h
  repeat' (split at h; · cases h)
  cases h

theorem csrAt_cmd {off : Nat} (h : csrAt off = .cmd) : off = 0x0C := by
  by_contra hne
  unfold csrAt at h
  rw [if_neg hne] at h
  repeat' (split at h; · cases h)
  cases h

/-! The model's checks of the regions, in the terms claims use. -/

/-- Two ranges meet exactly where an address of the second lies in the first. -/
theorem rangesMeet_iff {base len base' len' : Nat} :
    rangesMeet base len base' len' = true ↔ ∃ j, j < len' ∧ inRange base len (base' + j) = true := by
  simp only [rangesMeet, inRange, Bool.and_eq_true, decide_eq_true_eq]
  constructor
  · rintro ⟨⟨⟨h1, h2⟩, h3⟩, h4⟩
    rcases Nat.le_total base base' with h | h
    · exact ⟨0, h2, by omega, by omega⟩
    · exact ⟨base - base', by omega, by omega, by omega⟩
  · rintro ⟨j, h1, h2, h3⟩
    omega

theorem regionOnDevice_iff {p : Platform} {l : Latch} : regionOnDevice p l = true ↔ ¬ inNormalMemory p l := by
  simp only [regionOnDevice, inNormalMemory, onDevice, List.any_eq_true, Bool.or_eq_true, rangesMeet_iff, not_and_or,
    not_forall, Bool.not_eq_false]
  constructor
  · rintro ⟨d, hd, ⟨j, hj, h⟩ | ⟨j, hj, h⟩⟩
    · exact .inl ⟨j, hj, d, hd, h⟩
    · exact .inr ⟨j, hj, d, hd, h⟩
  · rintro (⟨j, hj, d, hd, h⟩ | ⟨j, hj, d, hd, h⟩)
    · exact ⟨d, hd, .inl ⟨j, hj, h⟩⟩
    · exact ⟨d, hd, .inr ⟨j, hj, h⟩⟩

theorem rangeError_none_iff {l : Latch} : rangeError l = none ↔ rangesFit l := by
  unfold rangeError rangesFit rangesMeet addrCount
  split
  · simp; omega
  · split
    · simp; omega
    · split <;> simp_all <;> omega

theorem runsOnDevice_iff {s : State} : runsOnDevice s = true ↔ onDeviceMemory s := by
  simp only [runsOnDevice, onDeviceMemory, touchesMemory, Bool.and_eq_true, regionOnDevice_iff, Option.isNone_iff_eq_none,
    rangeError_none_iff]
  cases h : decodeWord s.lat.word with
  | error e => simp
  | ok i => cases i <;> simp [isNoOp] <;> tauto

/-- Everything a reset can do. -/
theorem resetStep_cases (s : State) :
    (runsOnDevice s = false ∧ resetStep s = resetBlock s) ∨
      (runsOnDevice s = true ∧ resetStep s = refuse .regionOnDevice (resetBlock s)) := by
  unfold resetStep
  split
  · exact .inr ⟨‹_›, rfl⟩
  · exact .inl ⟨Bool.eq_false_iff.mpr ‹_›, rfl⟩

/-- The state with the event that moves taken off the agenda. -/
abbrev popped (s : State) : State := { s with agenda := s.agenda.tail }

/-- The cases of a step (40_command_common.md R119), with what is known in each. -/
inductive StepCase (s : State) : State → Prop
  | idle (turn : engineTurn s) (hb : s.busy = false) : StepCase s (popped s)
  | device (turn : engineTurn s) (hb : s.busy = true) (hd : runsOnDevice s = true) :
      StepCase s (refuse .regionOnDevice (popped s))
  | completion (turn : engineTurn s) (hb : s.busy = true) (o : CmdOutcome)
      (fits : ∀ out hi, o = .ok out hi →
        out.length ≤ s.lat.dstCap.toNat ∧ s.lat.dstBase.toNat + s.lat.dstCap.toNat ≤ addrCount) :
      StepCase s (complete o (popped s))
  | reset (rest : List Event) (ha : s.agenda = .reset :: rest) (hd : runsOnDevice s = false) :
      StepCase s (resetBlock (popped s))
  | resetOnDevice (rest : List Event) (ha : s.agenda = .reset :: rest) (hd : runsOnDevice s = true) :
      StepCase s (refuse .regionOnDevice (resetBlock (popped s)))
  | csrRead (addr bytes : Nat) (rest : List Event) (c : Csr) (ha : s.agenda = .csrRead addr bytes :: rest)
      (hc : csrTarget s.platform addr bytes = some c) : StepCase s { popped s with readData := csrValue c (popped s) }
  | csrWrite (addr bytes : Nat) (v : Word) (rest : List Event) (c : Csr)
      (ha : s.agenda = .csrWrite addr bytes v :: rest) (hc : csrTarget s.platform addr bytes = some c) :
      StepCase s (csrStore c v (popped s))
  | badAccess (addr bytes : Nat) (rest : List Event)
      (ha : s.agenda = .csrRead addr bytes :: rest ∨ ∃ v, s.agenda = .csrWrite addr bytes v :: rest)
      (hc : csrTarget s.platform addr bytes = none) : StepCase s (refuse (.csrAccess addr bytes) (popped s))
  | memRead (a : Word) (rest : List Event) (ha : s.agenda = .memRead a :: rest) :
      StepCase s (hostMemRead a.toNat (popped s))
  | memRefused (a : Word) (b : Byte) (rest : List Event) (ha : s.agenda = .memWrite a b :: rest)
      (ho : regionOwned a.toNat s = true) : StepCase s (refuse (.hostWriteWhileBusy a.toNat) (popped s))
  | memWrite (a : Word) (b : Byte) (rest : List Event) (ha : s.agenda = .memWrite a b :: rest)
      (ho : regionOwned a.toNat s = false) : StepCase s (hostMemWrite a.toNat b (popped s))

theorem engine_stepCase {s t : State} (turn : engineTurn s) (h : engineStep (popped s) = .next t) : StepCase s t := by
  rcases engineStep_cases h with ⟨hb, rfl⟩ | ⟨hb, ⟨rfl, hd⟩ | ⟨o, rfl, ho⟩⟩
  · exact .idle turn hb
  · exact .device turn hb hd
  · exact .completion turn hb o ho

/-- Every next state of a step is one of the cases, and the step starts unmarked. -/
theorem step_stepCase {s t : State} (h : step s = .next t) : s.refusal = none ∧ StepCase s t := by
  obtain ⟨hr, ⟨ha, he⟩ | ⟨e, rest, ha, he⟩⟩ := step_cases h
  · refine ⟨hr, engine_stepCase (.inl ha) ?_⟩
    have : popped s = s := by cases s; cases ha; rfl
    rwa [this]
  · refine ⟨hr, ?_⟩
    have hp : ({ s with agenda := rest } : State) = popped s := by simp [popped, ha]
    rw [hp] at he
    cases e with
    | csrRead addr bytes =>
      simp only [eventStep, hostCsrRead] at he
      cases hc : csrTarget s.platform addr bytes with
      | none => simp only [hc] at he; cases he; exact .badAccess addr bytes rest (.inl ha) hc
      | some c => simp only [hc] at he; cases he; exact .csrRead addr bytes rest c ha hc
    | csrWrite addr bytes v =>
      simp only [eventStep, hostCsrWrite] at he
      cases hc : csrTarget s.platform addr bytes with
      | none => simp only [hc] at he; cases he; exact .badAccess addr bytes rest (.inr ⟨v, ha⟩) hc
      | some c => simp only [hc] at he; cases he; exact .csrWrite addr bytes v rest c ha hc
    | memRead a =>
      simp only [eventStep] at he
      split at he
      · cases he
      · cases he; exact .memRead a rest ha
    | memWrite a b =>
      simp only [eventStep] at he
      split at he
      · rename_i ho
        cases he; exact .memRefused a b rest ha ho
      · rename_i ho
        split at he
        · cases he
        · cases he; exact .memWrite a b rest ha (Bool.eq_false_iff.mpr ho)
    | engine => exact engine_stepCase (.inr ⟨rest, ha⟩) he
    | reset =>
      cases he
      rcases resetStep_cases (popped s) with ⟨hd, ht⟩ | ⟨hd, ht⟩ <;> rw [ht]
      · exact .reset rest ha hd
      · exact .resetOnDevice rest ha hd

end Sys2Proof.Machine
end

