-- ==== Sys2Proof/Laws/PerInstr.lean ====
section
/-! SUPPORT. Statements about every command as syntax, one lemma per constructor. -/

namespace Sys2Proof.Laws.MatchMask

/-- The match value of the command's row (30_encoding.md R88). -/
def matchValue : Instr → Word
  | .huffEnc _ => 0x00000001
  | .huffDec _ => 0x00000002
  | .lz77Enc _ => 0x00000003
  | .lz77Dec _ => 0x00000004

/-- The word of a well-formed command matches its own row under the mask 0xFFFF_E0FF (R88). -/
def Statement (i : Instr) : Prop := i.wellFormed = true → encode i &&& 0xFFFFE0FF#32 = matchValue i

/-- A claim about a 5-bit OB holds when it holds of the 32 values. -/
theorem forall_ob {P : Nat → Prop} (h : ∀ k : Fin 32, P k) (ob : Nat) (hob : obFits ob = true) : P ob :=
  h ⟨ob, by simpa [obFits] using hob⟩

theorem huffEnc (ob : Nat) : Statement (.huffEnc ob) := fun h =>
  forall_ob (P := fun ob => encode (.huffEnc ob) &&& 0xFFFFE0FF#32 = matchValue (.huffEnc ob)) (by decide) ob h

theorem huffDec (ob : Nat) : Statement (.huffDec ob) := fun h =>
  forall_ob (P := fun ob => encode (.huffDec ob) &&& 0xFFFFE0FF#32 = matchValue (.huffDec ob)) (by decide) ob h

theorem lz77Enc (ob : Nat) : Statement (.lz77Enc ob) := fun h =>
  forall_ob (P := fun ob => encode (.lz77Enc ob) &&& 0xFFFFE0FF#32 = matchValue (.lz77Enc ob)) (by decide) ob h

theorem lz77Dec (ob : Nat) : Statement (.lz77Dec ob) := fun h =>
  forall_ob (P := fun ob => encode (.lz77Dec ob) &&& 0xFFFFE0FF#32 = matchValue (.lz77Dec ob)) (by decide) ob h

end Sys2Proof.Laws.MatchMask
end

