-- ==== Sys2Proof/Machine/HostNotation.lean ====
section
/-! DEFINITION. The host program notation (30_encoding.md R101 to R104) and the order of bring-up (70_reset_and_hazards.md
R219), as lists of events. It is no feature of the block (R101). -/

namespace Sys2Proof.Machine

/-- The offset of a register in the CSR block (10_state.md R27); a reserved access is spelled with the first reserved
offset. -/
def csrOffset : Csr → Nat
  | .id => 0x00
  | .ctrl => 0x04
  | .status => 0x08
  | .cmd => 0x0C
  | .srcBase => 0x10
  | .srcLen => 0x14
  | .dstBase => 0x18
  | .dstCap => 0x1C
  | .dstLen => 0x20
  | .errInfo => 0x24
  | .huffInfo => 0x28
  | .caps => 0x2C
  | .reserved => 0x30

/-- csrw OFF, V (R101). -/
def csrw (p : Platform) (c : Csr) (v : Word) : Event := .csrWrite (csrBase p + csrOffset c) 4 v

/-- csrr OFF (R101): the value read appears in readData. -/
def csrr (p : Platform) (c : Csr) : Event := .csrRead (csrBase p + csrOffset c) 4

/-- The four operand stores of a pseudo-instruction (R102). -/
def operandStores (p : Platform) (src slen dst dcap : Word) : List Event :=
  [csrw p .srcBase src, csrw p .srcLen slen, csrw p .dstBase dst, csrw p .dstCap dcap]

/-- huff.enc (R102). -/
def hostHuffEnc (p : Platform) (src slen dst dcap : Word) : List Event :=
  operandStores p src slen dst dcap ++ [csrw p .cmd (encode (.huffEnc 0))]

/-- huff.dec (R102). -/
def hostHuffDec (p : Platform) (src slen dst dcap : Word) : List Event :=
  operandStores p src slen dst dcap ++ [csrw p .cmd (encode (.huffDec 0))]

/-- lz77.enc (R103). -/
def hostLz77Enc (p : Platform) (src slen dst dcap : Word) (ob : Nat) : List Event :=
  operandStores p src slen dst dcap ++ [csrw p .cmd (encode (.lz77Enc ob))]

/-- lz77.dec (R103). -/
def hostLz77Dec (p : Platform) (src slen dst dcap : Word) (ob : Nat) : List Event :=
  operandStores p src slen dst dcap ++ [csrw p .cmd (encode (.lz77Dec ob))]

/-- wait (R104): the poll of STATUS that reads DONE = 1, the one after the engine's completion. -/
def hostWait (p : Platform) : List Event := [.engine, csrr p .status]

/-- Steps 1 and 2 of the bring-up (R219): read ID and CAPS, write CTRL. -/
def hostBringUp (p : Platform) (irqEnable : Bool) : List Event :=
  [csrr p .id, csrr p .caps, csrw p .ctrl (BitVec.ofNat 32 irqEnable.toNat)]

/-- Steps 5 and 6 of R219: read the record, acknowledge. -/
def hostCollect (p : Platform) : List Event :=
  [csrr p .status, csrr p .dstLen, csrr p .errInfo, csrr p .huffInfo, csrw p .status 0xE]

end Sys2Proof.Machine
end

