-- ==== Sys2Proof/Tests/Slice0.lean ====
section
/-! SUPPORT. Tests: expected results come from the spec's tables (30_encoding.md R89, 95_test_vectors.md), never from the
model. Then one witness per obligation with hypotheses: a concrete state and operands that meet them, at a boundary for each
clause. -/

namespace Sys2Proof.Tests

open Sys2Proof Sys2Proof.Machine

/-! ### Helpers -/

/-- A byte string from its values. -/
def bytes (l : List Nat) : List Byte := l.map (BitVec.ofNat 8)

/-- The command word `w` running on `src` at 0x1000, with `cap` bytes of room at 0x2000. -/
def running (w : Word) (src : List Byte) (cap : Word) : State :=
  { State.reset with
    cmd := w
    lat := ⟨w, 0x1000, BitVec.ofNat 32 src.length, 0x2000, cap⟩
    busy := true
    mem := cellsFrom 0x1000 src }

/-- `s` with the event `e` next, and nothing after it. -/
def facing (e : Event) (s : State) : State := { s with agenda := [e] }

/-- `s` on a platform where the accesses of kind `k` to address `a` fail. -/
def withHole (k : AccessKind) (a : Nat) (s : State) : State := { s with platform := ⟨0, [⟨a, 1, k⟩], []⟩ }

/-- The state after a step, or `s` itself where there is none. -/
def after (s : State) : State :=
  match step s with
  | .next t => t
  | .fault _ => s
  | .refused _ => s

/-- STATUS and ERR_INFO after a step. -/
def report (s : State) : Word × Word := (csrValue .status (after s), (after s).errInfo)

/-- STATUS, DST_LEN and HUFF_INFO after a step, and the first `n` DST bytes. -/
def result (n : Nat) (s : State) : Word × Word × Word × List Byte :=
  (csrValue .status (after s), (after s).dstLen, (after s).huffInfo, memBytes (after s).mem s.lat.dstBase.toNat n)

/-! ### WellFormed: what each check refuses -/

theorem test_wellFormed_refuses_huffEnc_32 : (Instr.huffEnc 32).wellFormed = false := by decide
theorem test_wellFormed_refuses_huffDec_32 : (Instr.huffDec 32).wellFormed = false := by decide
theorem test_wellFormed_refuses_lz77Enc_32 : (Instr.lz77Enc 32).wellFormed = false := by decide
theorem test_wellFormed_refuses_lz77Dec_99 : (Instr.lz77Dec 99).wellFormed = false := by decide
theorem test_wellFormed_accepts_31 : (Instr.lz77Enc 31).wellFormed = true := by decide

/-! ### Decoding: words written field by field, reserved bits 31:13, OB 12:8, reserved bits 7:4, OP 3:0 (R82, R89) -/

theorem test_decode_huffEnc : decodeWord 0b0000000000000000000_00000_0000_0001#32 = .ok (.huffEnc 0) := by decide
theorem test_decode_huffEnc_ob31 : decodeWord 0b0000000000000000000_11111_0000_0001#32 = .ok (.huffEnc 31) := by decide
theorem test_decode_huffDec : decodeWord 0b0000000000000000000_00000_0000_0010#32 = .ok (.huffDec 0) := by decide
theorem test_decode_lz77Enc_ob8 : decodeWord 0b0000000000000000000_01000_0000_0011#32 = .ok (.lz77Enc 8) := by decide
theorem test_decode_lz77Dec_ob15 : decodeWord 0b0000000000000000000_01111_0000_0100#32 = .ok (.lz77Dec 15) := by decide
theorem test_decode_refuses_bit31 : decodeWord 0x80000001 = .error .reservedBits := by decide
theorem test_decode_refuses_bit4 : decodeWord 0x00000013 = .error .reservedBits := by decide
theorem test_decode_refuses_lzss : decodeWord 0x00000006 = .error .lzssReserved := by decide
theorem test_decode_refuses_op15 : decodeWord 0x0000000F = .error .reservedOp := by decide
theorem test_encode_lz77Dec_ob8 : encode (.lz77Dec 8) = 0x00000804 := by decide
theorem test_decodeTableWord : decodeTableWord 32 0x00000103 = some (.lz77Enc 1) := by decide

/-! ### One step of each command (95_test_vectors.md, sections 2.4 to 2.7) -/

/-- "AB" gives 0A 0D 09. -/
theorem test_huffEnc_AB :
    result 3 (running 1 (bytes [0x41, 0x42]) 16) = (2, 3, 0x00020130, bytes [0x0A, 0x0D, 0x09]) := by decide +kernel

/-- "ABRACADABRA": ties of the queue, codes of unequal length. -/
theorem test_huffEnc_ABRACADABRA :
    result 10 (running 1 (bytes [0x41, 0x42, 0x52, 0x41, 0x43, 0x41, 0x44, 0x41, 0x42, 0x52, 0x41]) 16) =
      (2, 10, 0x00050315, bytes [0xAA, 0x09, 0x43, 0xA2, 0x28, 0x55, 0x26, 0xE8, 0xAD, 0xC0]) := by decide +kernel

/-- 0A 1A 83 42 80 gives "ACCCCCC". -/
theorem test_huffDec_ACCCCCC :
    result 7 (running 2 (bytes [0x0A, 0x1A, 0x83, 0x42, 0x80]) 16) =
      (2, 7, 0x000301D0, bytes [0x41, 0x43, 0x43, 0x43, 0x43, 0x43, 0x43]) := by decide +kernel

/-- 74: the read of bit 5 passes the limit. -/
theorem test_huffDec_tree_truncated : report (running 2 (bytes [0x74]) 16) = (0x00020106, 5) := by decide +kernel

/-- "ABCABDABE" with ob 8: at equal lengths the nearest wins. -/
theorem test_lz77Enc_nearest :
    result 15 (running 0x803 (bytes [0x41, 0x42, 0x43, 0x41, 0x42, 0x44, 0x41, 0x42, 0x45]) 16) =
      (2, 15, 0, bytes [0, 0, 0x41, 0, 0, 0x42, 0, 0, 0x43, 3, 2, 0x44, 3, 2, 0x45]) := by decide +kernel

/-- "AAAAAAAA" with ob 14: copies capped at Lmax = 3. -/
theorem test_lz77Enc_capped :
    result 9 (running 0xE03 (bytes [0x41, 0x41, 0x41, 0x41, 0x41, 0x41, 0x41, 0x41]) 16) =
      (2, 9, 0, bytes [0, 0, 0x41, 0, 7, 0x41, 0, 6, 0x41]) := by decide +kernel

/-- 00 00 41 80 03 42 with ob 1 gives "AAAAB". -/
theorem test_lz77Dec_AAAAB :
    result 5 (running 0x104 (bytes [0, 0, 0x41, 0x80, 3, 0x42]) 16) = (2, 5, 0, bytes [0x41, 0x41, 0x41, 0x41, 0x42]) := by
  decide +kernel

/-- 00 00 41 02 01 42: the second triple reaches before the start. -/
theorem test_lz77Dec_before_start : report (running 0x804 (bytes [0, 0, 0x41, 2, 1, 0x42]) 16) = (0x00070106, 3) := by
  decide +kernel

/-! ### Checks and their order (95_test_vectors.md, section 2.3) -/

theorem test_V14_dst_wrap :
    report { running 1 (bytes [0x41, 0x42]) 0x20 with lat := ⟨1, 0x1000, 2, 0xFFFFFFF0, 0x20⟩ } = (0x00020306, 0) := by
  decide +kernel

theorem test_V18_illegal_beats_range :
    report { running 0x11 [] 0 with lat := ⟨0x11, 0xFFFFFFFF, 2, 0x2000, 16⟩ } = (0x00000206, 0x11) := by decide +kernel

theorem test_V19_noOp_beats_range :
    report { running 0x1003 [] 0 with lat := ⟨0x1003, 0xFFFFFFFF, 2, 0x2000, 16⟩ } = (0x0000000A, 0) := by decide +kernel

theorem test_V22_corrupt_beats_overflow :
    report (running 2 (bytes [0x6A, 0x1A, 0x83, 0x42, 0x88]) 1) = (0x00040106, 37) := by decide +kernel

theorem test_V23_read_fault : report (withHole .read 0x1000 (running 2 (bytes [0]) 16)) = (0x00000506, 0x1000) := by
  decide +kernel

theorem test_V25_overflow_beats_write_fault :
    report (withHole .write 0x2002 (running 1 (bytes [0x41, 0x42, 0x43]) 4)) = (0x00000406, 5) := by decide +kernel

/-! ### CSRs (95_test_vectors.md, section 2.2) -/

theorem test_V3_ctrl : csrValue .ctrl (after (facing (csrw ⟨0, [], []⟩ .ctrl 0xFFFFFFFF) State.reset)) = 1 := by decide

theorem test_V6_status_keeps_errcode :
    csrValue .status (after (facing (csrw ⟨0, [], []⟩ .status 4)
      { State.reset with done := true, err := true, errcode := 1, detail := 5 })) = 0x00050102 := by decide

theorem test_V8_overrun :
    let t := after (facing (csrw ⟨0, [], []⟩ .cmd 2) (running 1 [] 16))
    csrValue .status t = 0x11 ∧ t.cmd = 1 ∧ t.lat.word = 1 := by decide

theorem test_V11_narrow_access_refused :
    (after (facing (.csrRead 8 1) State.reset)).refusal = some (.csrAccess 8 1) := by decide

/-- lz77.enc with ob 8 is five stores, the last of 0x803 to CMD (program P2). -/
theorem test_notation_lz77Enc :
    hostLz77Enc ⟨0, [], []⟩ 0x1000 8 0x2000 0x40 8 =
      [.csrWrite 0x10 4 0x1000, .csrWrite 0x14 4 8, .csrWrite 0x18 4 0x2000, .csrWrite 0x1C 4 0x40,
        .csrWrite 0x0C 4 0x803] := by decide

/-! ### Witnesses: each obligation with hypotheses has a state and operands that meet them -/

/-- "AB" at 0x1000 for HUFF_ENC, 16 bytes of room. -/
def encodingAB : State := running 1 (bytes [0x41, 0x42]) 16

/-- A state with an LZ77_DEC of "A" and its overlapping copy running. -/
def decodingAs : State := running 0x804 (bytes [0, 0, 0x41, 1, 6, 0x41]) 16

/-- A running command whose SRC region is a device. -/
def onDeviceAB : State := { encodingAB with platform := ⟨0, [], [⟨0x1000, 1⟩]⟩ }

/-- A running HUFF_ENC with the given regions. -/
def withRegions (src slen dst dcap : Word) : State := { running 1 [] 0 with lat := ⟨1, src, slen, dst, dcap⟩ }

theorem witness_DecodeAndEncodeAgree :
    (Instr.lz77Dec 31).wellFormed = true ∧ decodeWord 0x00001F04 = .ok (.lz77Dec 31) := by decide

theorem witness_ResetAbandonsTheCommand :
    State.reset.busy = false ∧ (inDst encodingAB.lat 0x2010 = false ∧ inSrc encodingAB.lat 0x1001 = true) ∧
      encodingAB.busy = true ∧ 15 < encodingAB.lat.dstCap.toNat ∧ encodingAB.lat.dstBase.toNat + 15 < 2 ^ 32 ∧
      inSrc encodingAB.lat (encodingAB.lat.dstBase.toNat + 15) = false := by decide

theorem witness_ResetAbandons_on_device : onDeviceMemory onDeviceAB ∧ ¬ onDeviceMemory encodingAB :=
  ⟨runsOnDevice_iff.mp (by decide), fun h => absurd (runsOnDevice_iff.mpr h) (by decide)⟩

theorem witness_CsrAccesses_mapped : ∀ off ∈ [0x00, 0x2C],
    ∃ s : State, s.refusal = none ∧ s.agenda = .csrRead (csrBase s.platform + off) 4 :: [] :=
  fun off _ => ⟨facing (.csrRead off 4) State.reset, rfl, by simp [facing, State.reset, csrBase]⟩

theorem witness_CsrAccesses_reserved : ∀ off ∈ [0x30, 0xFC],
    off % 4 = 0 ∧ 0x30 ≤ off ∧ off ≤ 0xFC ∧
      ∃ s : State, s.refusal = none ∧ s.agenda = .csrRead (csrBase s.platform + off) 4 :: [] :=
  fun off h => ⟨by simp at h; omega, by simp at h; omega, by simp at h; omega,
    facing (.csrRead off 4) State.reset, rfl, by simp [facing, State.reset, csrBase]⟩

theorem witness_CsrAccesses_refused :
    ∃ s : State, s.refusal = none ∧ s.agenda = .csrRead 0x100 4 :: [] ∧
      ¬ (4 = 4 ∧ ∃ off, off % 4 = 0 ∧ off ≤ 0xFC ∧ 0x100 = csrBase s.platform + off) :=
  ⟨facing (.csrRead 0x100 4) State.reset, by decide, by decide, by
    rintro ⟨-, off, -, h, he⟩
    have : csrBase (facing (.csrRead 0x100 4) State.reset).platform = 0 := by decide
    omega⟩

theorem witness_ReadOnlyRegisters : ∀ off ∈ [0x20, 0xFC],
    (off ∈ [0x00, 0x20, 0x24, 0x28, 0x2C] ∨ (off % 4 = 0 ∧ 0x30 ≤ off ∧ off ≤ 0xFC)) ∧
      ∃ s : State, s.refusal = none ∧ s.agenda = .csrWrite (csrBase s.platform + off) 4 0x12345678 :: [] :=
  fun off h => ⟨by simp at h; rcases h with rfl | rfl <;> decide,
    facing (.csrWrite off 4 0x12345678) State.reset, rfl, by simp [facing, State.reset, csrBase]⟩

theorem witness_StatusWriteClearsFlags :
    ∃ s : State, s.refusal = none ∧ s.agenda = .csrWrite (csrBase s.platform + 0x08) 4 0x1E :: [] ∧ s.done = true :=
  ⟨facing (.csrWrite 8 4 0x1E) { State.reset with done := true }, by decide⟩

theorem witness_ControlWriteSetsIrqEnable :
    ∃ s : State, s.refusal = none ∧ s.agenda = .csrWrite (csrBase s.platform + 0x04) 4 1 :: [] :=
  ⟨facing (.csrWrite 4 4 1) State.reset, by decide⟩

theorem witness_OperandWritesStoreAllBits : ∀ off ∈ [0x10, 0x14, 0x18, 0x1C],
    ∃ s : State, s.refusal = none ∧ s.agenda = .csrWrite (csrBase s.platform + off) 4 0xFFFFFFFF :: [] :=
  fun off _ => ⟨facing (.csrWrite off 4 0xFFFFFFFF) State.reset, rfl, by simp [facing, State.reset, csrBase]⟩

theorem witness_CommandWrite_idle :
    ∃ s : State, s.refusal = none ∧ s.agenda = .csrWrite (csrBase s.platform + 0x0C) 4 0x11 :: [] ∧ s.busy = false :=
  ⟨facing (.csrWrite 0x0C 4 0x11) State.reset, by decide⟩

theorem witness_CommandWrite_busy :
    ∃ s : State, s.refusal = none ∧ s.agenda = .csrWrite (csrBase s.platform + 0x0C) 4 1 :: [] ∧ s.busy = true :=
  ⟨facing (.csrWrite 0x0C 4 1) encodingAB, by decide⟩

theorem witness_IrqRises_by_completion :
    ∃ s t : State, step s = .next t ∧ irq s = false ∧ irq t = true ∧ s.busy = true :=
  ⟨{ running 0x803 [] 0 with irqEn := true }, _, rfl, by decide +kernel⟩

theorem witness_IrqRises_by_enable :
    ∃ s t : State, step s = .next t ∧ irq s = false ∧ irq t = true ∧ s.busy = false :=
  ⟨facing (.csrWrite 4 4 1) { State.reset with done := true }, _, rfl, by decide⟩

theorem witness_OverrunIsSticky_set :
    ∃ s t : State, step s = .next t ∧ s.overrun = false ∧ t.overrun = true :=
  ⟨facing (.csrWrite 0x0C 4 1) encodingAB, _, rfl, by decide⟩

theorem witness_OverrunIsSticky_cleared :
    ∃ s t : State, step s = .next t ∧ s.overrun = true ∧ t.overrun = false :=
  ⟨facing (.csrWrite 8 4 0x10) { encodingAB with overrun := true }, _, rfl, by decide⟩

theorem witness_BusyStartsAtIssue : ∃ s t : State, step s = .next t ∧ s.busy = false ∧ t.busy = true :=
  ⟨facing (.csrWrite 0x0C 4 1) State.reset, _, rfl, by decide⟩

theorem witness_BusyEndsAtCompletion : ∃ s t : State, step s = .next t ∧ s.busy = true ∧ t.busy = false :=
  ⟨running 0x803 [] 0, _, rfl, by decide +kernel⟩

theorem witness_LatchChangesOnlyAtIssueOrReset : ∃ s t : State, step s = .next t ∧ t.lat ≠ s.lat :=
  ⟨facing (.csrWrite 0x0C 4 1) State.reset, _, rfl, by decide⟩

theorem witness_HostMemory_refused_write :
    ∃ s : State, s.refusal = none ∧ onDevice s.platform 0x200F = false ∧ s.agenda = .memWrite 0x200F 7 :: [] ∧ s.busy = true ∧
      inDst s.lat 0x200F = true :=
  ⟨facing (.memWrite 0x200F 7) encodingAB, by decide⟩

theorem witness_HostMemory_write :
    ∃ s : State, s.refusal = none ∧ onDevice s.platform 0x2010 = false ∧ s.agenda = .memWrite 0x2010 7 :: [] ∧
      memOk s.platform .write 0x2010 = true ∧ inSrc s.lat 0x2010 = false ∧ inDst s.lat 0x2010 = false :=
  ⟨facing (.memWrite 0x2010 7) encodingAB, by decide⟩

theorem witness_HostMemory_read_source :
    ∃ s : State, s.refusal = none ∧ onDevice s.platform 0x1001 = false ∧ s.agenda = .memRead 0x1001 :: [] ∧
      memOk s.platform .read 0x1001 = true ∧ inSrc s.lat 0x1001 = true :=
  ⟨facing (.memRead 0x1001) encodingAB, by decide⟩

theorem witness_HostMemory_read_destination :
    ∃ s : State, s.refusal = none ∧ onDevice s.platform 0x2000 = false ∧ s.agenda = .memRead 0x2000 :: [] ∧
      memOk s.platform .read 0x2000 = true ∧ s.busy = true ∧ inSrc s.lat 0x2000 = false ∧ inDst s.lat 0x2000 = true :=
  ⟨facing (.memRead 0x2000) encodingAB, by decide⟩

theorem witness_OnlyRefusedAccesses_marked : ∃ s : State, s.refusal = some .regionOnDevice :=
  ⟨{ State.reset with refusal := some .regionOnDevice }, rfl⟩

theorem witness_OnlyRefusedAccesses_csr : ∃ s t : State, step s = .next t ∧ t.refusal = some (.csrAccess 8 1) :=
  ⟨facing (.csrRead 8 1) State.reset, _, rfl, by decide⟩

theorem witness_OnlyRefusedAccesses_host_write :
    ∃ s t : State, step s = .next t ∧ t.refusal = some (.hostWriteWhileBusy 0x1000) :=
  ⟨facing (.memWrite 0x1000 7) encodingAB, _, rfl, by decide⟩

theorem witness_OnlyRefusedAccesses_device :
    onDeviceAB.refusal = none ∧ engineTurn onDeviceAB ∧ onDeviceMemory onDeviceAB ∧
      ∃ t, step onDeviceAB = .next t ∧ t.refusal = some .regionOnDevice :=
  ⟨rfl, .inl rfl, witness_ResetAbandons_on_device.1, _, rfl, by decide⟩

theorem witness_OnlyRefusedAccesses_device_reset :
    ∃ t, step (facing .reset onDeviceAB) = .next t ∧ t.refusal = some .regionOnDevice := ⟨_, rfl, by decide⟩

theorem witness_StepRunsTheDecodedCommand :
    encodingAB.refusal = none ∧ encodingAB.busy = true ∧ decodeWord encodingAB.lat.word = .ok (.huffEnc 0) ∧
      encodingAB.agenda = [] ∧ (facing .engine encodingAB).agenda = .engine :: [] := by decide

theorem witness_PlacedCommandRunsNext : (Instr.lz77Enc 31).wellFormed = true := by decide

theorem witness_IllegalWord_each_ground :
    ∀ w ∈ [0x00000005#32, 0x00000081#32, 0x80000001#32],
      (running w [] 0).refusal = none ∧ (running w [] 0).busy = true ∧ engineTurn (running w [] 0) ∧
        (¬ (w.toNat % 16 = 1 ∨ w.toNat % 16 = 2 ∨ w.toNat % 16 = 3 ∨ w.toNat % 16 = 4) ∨
          w.toNat / 16 % 16 ≠ 0 ∨ w.toNat / 2 ^ 13 ≠ 0) := by
  intro w hw
  simp only [List.mem_cons, List.not_mem_nil, or_false] at hw
  rcases hw with rfl | rfl | rfl <;> exact ⟨rfl, rfl, .inl rfl, by decide⟩

theorem witness_IdleEngineChangesNothing :
    State.reset.refusal = none ∧ State.reset.busy = false ∧ State.reset.agenda = [] ∧
      (facing .engine State.reset).agenda = .engine :: [] := by decide

theorem ready_encodingAB : commandReady encodingAB :=
  ⟨by decide, by decide, by decide, by decide⟩

theorem witness_StepPublishesExec :
    encodingAB.refusal = none ∧ encodingAB.busy = true ∧ engineTurn encodingAB ∧
      inNormalMemory encodingAB.platform encodingAB.lat :=
  ⟨rfl, rfl, .inl rfl, ready_encodingAB.2.1⟩

theorem witness_HuffEncCompletes :
    commandReady encodingAB ∧
      (writeStream (serialize (huffTree (sourceBytes encodingAB)))
        (payloadBits (codeTable (huffTree (sourceBytes encodingAB))) (sourceBytes encodingAB))).1.length ≤
          encodingAB.lat.dstCap.toNat :=
  ⟨ready_encodingAB, by decide +kernel⟩

/-- The stream 74 10 of "A", with exactly one byte of room. -/
theorem witness_HuffDecCompletes :
    let s := running 2 (bytes [0x74, 0x10]) 1
    let bits := unpack (sourceBytes s)
    commandReady s ∧ 3 ≤ bits.length ∧
      ∃ root st out, parseNode 256 ⟨3, (bits.take (bits.length - valMSB (bits.take 3))).drop 3, 0, 0⟩ = .ok (root, st) ∧
        mapSymbols root st.cur st.rest = .ok out ∧ out.length ≤ s.lat.dstCap.toNat :=
  ⟨⟨by decide, by decide, by decide, by decide⟩, by decide, .leaf 0x41, ⟨12, [false], 0, 1⟩, [0x41],
    by decide +kernel, by decide +kernel, by decide⟩

/-- "AAAAAAAA" with exactly the six bytes of room its two triples need. -/
theorem witness_Lz77EncCompletes :
    let s := running 0x803 (bytes [0x41, 0x41, 0x41, 0x41, 0x41, 0x41, 0x41, 0x41]) 6
    commandReady s ∧ (indexLoop (sourceBytes s) 8 (sourceBytes s).length 0).length ≤ s.lat.dstCap.toNat :=
  ⟨⟨by decide, by decide, by decide, by decide⟩, by decide +kernel⟩

theorem witness_Lz77DecCompletes :
    commandReady decodingAs ∧ decodingAs.lat.srcLen.toNat % 3 = 0 ∧
      ∃ out, decodeWalk 8 0 [] (sourceBytes decodingAs) = .ok out ∧ out.length ≤ decodingAs.lat.dstCap.toNat :=
  ⟨⟨by decide, by decide, by decide, by decide⟩, by decide, bytes [0x41, 0x41, 0x41, 0x41, 0x41, 0x41, 0x41, 0x41],
    by decide +kernel, by decide⟩

theorem witness_InvalidOffsetBits :
    (0 = 0 ∨ 16 ≤ 0) ∧ (16 = 0 ∨ 16 ≤ 16) ∧ recordClear (running 0x1003 [] 0) ∧
      ∃ t, exec (.lz77Enc 16) (running 0x1003 [] 0) = .next t :=
  ⟨by decide, by decide, by decide, _, rfl⟩

theorem witness_BadRange_srcWrap :
    isNoOp (.huffEnc 0) = false ∧ 2 ^ 32 < (withRegions 0xFFFFFFFF 2 0 0).lat.srcBase.toNat +
      (withRegions 0xFFFFFFFF 2 0 0).lat.srcLen.toNat := by decide

theorem witness_BadRange_dstWrap :
    let l := (withRegions 0xFFFFFFFF 1 0xFFFFFFF0 0x11).lat
    l.srcBase.toNat + l.srcLen.toNat ≤ 2 ^ 32 ∧ 2 ^ 32 < l.dstBase.toNat + l.dstCap.toNat := by decide

theorem witness_BadRange_overlap :
    let l := (withRegions 0x1000 2 0x1001 4).lat
    l.srcBase.toNat + l.srcLen.toNat ≤ 2 ^ 32 ∧ l.dstBase.toNat + l.dstCap.toNat ≤ 2 ^ 32 ∧ 0 < l.srcLen.toNat ∧
      0 < l.dstCap.toNat ∧ l.srcBase.toNat < l.dstBase.toNat + l.dstCap.toNat ∧
      l.dstBase.toNat < l.srcBase.toNat + l.srcLen.toNat := by decide

/-- Two regions that end at 2^32 and begin where the other ends, and an empty one inside the other, both fit. -/
theorem witness_BadRange_fits :
    rangesFit (withRegions 0xFFFFFFFE 1 0xFFFFFFFF 1).lat ∧ rangesFit (withRegions 0x1000 0 0x1000 4).lat ∧
      (withRegions 0x1000 0 0x1000 4).errcode ≠ 3 ∧ ∃ t, exec (.huffEnc 0) (withRegions 0x1000 0 0x1000 4) = .next t :=
  ⟨by decide, by decide, by decide, _, rfl⟩

theorem witness_BusError_read :
    let s := withHole .read 0x1001 encodingAB
    rangesFit s.lat ∧ inNormalMemory s.platform s.lat ∧ s.lat.srcBase.toNat ≤ 0x1001 ∧
      0x1001 < s.lat.srcBase.toNat + s.lat.srcLen.toNat ∧ memOk s.platform .read 0x1001 = false ∧
      ∀ x, s.lat.srcBase.toNat ≤ x → x < 0x1001 → memOk s.platform .read x = true :=
  ⟨by decide, by decide, by decide, by decide, by decide, fun x _ h => by
    have : x ≠ 0x1001 := by omega
    simp [withHole, encodingAB, running, memOk, inRange]
    omega⟩

theorem witness_BusError_write :
    let s := withHole .write 0x2002 encodingAB
    rangesFit s.lat ∧ inNormalMemory s.platform s.lat ∧ sourceReadable s.platform s.lat ∧
      (∃ out hinfo, transformOf (.huffEnc 0) (sourceBytes s) = .ok (out, hinfo) ∧ out.length ≤ s.lat.dstCap.toNat ∧
        s.lat.dstBase.toNat ≤ 0x2002 ∧ 0x2002 < s.lat.dstBase.toNat + out.length) ∧
      memOk s.platform .write 0x2002 = false ∧
      ∀ x, s.lat.dstBase.toNat ≤ x → x < 0x2002 → memOk s.platform .write x = true :=
  ⟨by decide, by decide, by decide, ⟨bytes [0x0A, 0x0D, 0x09], 0x00020130, by decide +kernel, by decide, by decide,
    by decide⟩, by decide, fun x _ h => by
    simp [withHole, encodingAB, running, memOk, inRange]
    omega⟩

/-- 74 18 with no room at all: the corrupt stream wins over the overflow. -/
theorem witness_CorruptStreamBeatsCapacity :
    let s := running 2 (bytes [0x74, 0x18]) 0
    commandReady s ∧ isNoOp (.huffDec 0) = false ∧
      transformOf (.huffDec 0) (sourceBytes s) = .error (.singleLeafBit1, 12) :=
  ⟨⟨by decide, by decide, by decide, by decide⟩, by decide, by decide +kernel⟩

/-- "AB" needs three bytes and has room for two. -/
theorem witness_OverflowReportsNeededLength :
    let s := running 1 (bytes [0x41, 0x42]) 2
    commandReady s ∧ ∃ out hinfo, transformOf (.huffEnc 0) (sourceBytes s) = .ok (out, hinfo) ∧
      s.lat.dstCap.toNat < out.length :=
  ⟨⟨by decide, by decide, by decide, by decide⟩, bytes [0x0A, 0x0D, 0x09], 0x00020130, by decide +kernel, by decide⟩

theorem witness_OnlyDecodersFail :
    huffDecode [] = .error (.hdrShort, 0) ∧ lz77Decode (bytes [0, 1, 0x78]) 8 = .error (.zeroOffsetCopy, 0) := by
  decide +kernel

theorem witness_CommandFrame :
    (∃ t, exec (.huffEnc 0) encodingAB = .next t) ∧ ∃ t, exec (.lz77Dec 8) decodingAs = .next t := ⟨⟨_, rfl⟩, ⟨_, rfl⟩⟩

theorem witness_DestinationAfterCompletion :
    rangesFit encodingAB.lat ∧ (List.replicate 16 (0 : Byte)).length ≤ encodingAB.lat.dstCap.toNat ∧
      15 < encodingAB.lat.dstCap.toNat ∧ errorCode .treeTrunc = 1 ∧ errorCode .illegalCmd = 2 ∧ errorCode .srcWrap = 3 ∧
      errorCode .outOverflow = 4 ∧ errorCode .busError = 5 := by decide

theorem witness_OnlyDstBytes_by_host :
    ∃ s t : State, step s = .next t ∧ memByte t.mem 0x1000 ≠ memByte s.mem 0x1000 :=
  ⟨facing (.memWrite 0x1000 7) { State.reset with mem := [(0x1000, 8)] }, _, rfl, by decide⟩

theorem witness_OnlyDstBytes_by_engine :
    ∃ s t : State, step s = .next t ∧ memByte t.mem 0x2000 ≠ memByte s.mem 0x2000 :=
  ⟨{ running 0x803 (bytes [0x41]) 3 with mem := [(0x1000, 0x41), (0x2000, 8)] }, _, rfl, by decide +kernel⟩

/-- Two states that differ in CTRL, OVERRUN, CMD and a byte outside the SRC region. -/
theorem witness_OutcomeDependsOnOperandsAlone :
    let s := running 0x803 (bytes [0x41]) 3
    let s' := { s with irqEn := true, overrun := true, cmd := 5, mem := [(0x1000, 0x41), (0x1001, 9)] }
    s.lat = s'.lat ∧ s.platform = s'.platform ∧ s.busy = s'.busy ∧
      (∀ a, inSrc s.lat a = true → memByte s.mem a = memByte s'.mem a) ∧ recordClear s ∧ recordClear s' ∧
      (∃ t, exec (.lz77Enc 8) s = .next t) ∧ ∃ t', exec (.lz77Enc 8) s' = .next t' :=
  ⟨rfl, rfl, rfl, fun a h => by
    have : a = 0x1000 := by
      simp [running, inSrc, inRange, bytes] at h
      omega
    subst this
    decide, by decide, by decide, ⟨_, rfl⟩, ⟨_, rfl⟩⟩

theorem witness_StepKeepsRunInvariant :
    runInv encodingAB ∧ ∃ t, step encodingAB = .next t := ⟨by decide, _, rfl⟩

theorem witness_StepKeepsHuffInfoShape :
    huffInfoInv { State.reset with huffInfo := 0x01009FF6 } ∧ huffInfoInv encodingAB ∧ ∃ t, step encodingAB = .next t :=
  ⟨Or.inr ⟨6, 256, by decide, by decide, by decide, by decide⟩, Or.inl rfl, _, rfl⟩

theorem witness_PackAndUnpack :
    (List.replicate 16 true).length % 8 = 0 ∧ 1 < (List.replicate 16 true).length / 8 ∧ 7 < 8 ∧
      0 < (bytes [0xA5]).length := by decide

theorem witness_CountsSumToLength :
    (bytes [0x41, 0x41]).length < 2 ^ 32 ∧ (0x41#8, 2) ∈ freqCount (bytes [0x41, 0x41]) ∧
      [(0x41#8, 2)].Sublist (freqCount (bytes [0x41, 0x41])) := by decide +kernel

/-- "ABC" (section 2.4): A and B merge first, then C and their node, C to the left. -/
theorem witness_TreeHoldsTheLeafSet :
    bytes [0x41] ≠ [] ∧
      BuildsTree [⟨1, 0, .leaf 0x41⟩, ⟨1, 1, .leaf 0x42⟩, ⟨1, 2, .leaf 0x43⟩] 3
        (.node (.leaf 0x43) (.node (.leaf 0x41) (.leaf 0x42))) :=
  ⟨by decide, .merge _ [⟨1, 2, .leaf 0x43⟩] ⟨1, 0, .leaf 0x41⟩ ⟨1, 1, .leaf 0x42⟩ _ _ (.refl _)
    (by simp [keyBefore]) (by simp [keyBefore])
    (.merge _ [] ⟨1, 2, .leaf 0x43⟩ ⟨2, 3, .node (.leaf 0x41) (.leaf 0x42)⟩ _ _ (.swap ..)
      (by simp [keyBefore]) (by simp) (.done _ _))⟩

theorem witness_SerializedTreeLength :
    1 ≤ leafCount (.leaf 0) ∧ leafCount (.node (.leaf 0) (.leaf 1)) ≤ 256 := by decide

theorem witness_StreamIsPadded : 1 < (writeStream [true] [false, true]).2 := by decide

theorem witness_DegenerateInputs : 1 ≤ 1 := by decide

theorem witness_DecodedStreamsReportTheirTree :
    huffDecode (bytes [0x90, 0x00]) = .ok ([], 0x00010094) := by decide +kernel

/-- The bits of a stream after its padding field and below its limit. -/
def streamBody (B : List Byte) : Bits := ((unpack B).take (8 * B.length - valMSB ((unpack B).take 3))).drop 3

/-- E0 and 00: a limit below the tree, and five internal nodes; 74: the limit inside a leaf (R160, section 2.5). -/
theorem witness_DecoderRejects_treeTrunc :
    treeOpen [] ∧ treeOpen (List.replicate 5 none) ∧ streamBody (bytes [0xE0]) = tokenBits [] ∧
      streamBody (bytes [0x00]) = tokenBits (List.replicate 5 none) ∧
      streamBody (bytes [0x74]) = tokenBits [] ++ true :: [false] := by
  unfold treeOpen
  decide +kernel

/-- 33 zero bytes: 255 internal nodes, then bit 258, with E = 264. -/
theorem witness_DecoderRejects_treeTooLarge :
    treeOpen (List.replicate 255 none) ∧ (List.replicate 255 (none : Option Byte)).count none = 255 ∧
      streamBody (bytes (List.replicate 33 0)) = tokenBits (List.replicate 255 none) ++ false :: List.replicate 5 false :=
  ⟨fun k _ => by
    rw [List.countP_eq_zero.mpr fun a ha => by rw [List.eq_of_mem_replicate (List.mem_of_mem_take ha)]; simp]
    exact Nat.zero_le _, by decide +kernel, by decide +kernel⟩

/-- 74 18: the bit right after the tree. -/
theorem witness_DecoderRejects_singleLeafBit1 :
    streamBody (bytes [0x74, 0x18]) = serialize (.leaf 0x41) ++ List.replicate 0 false ++ true :: [] := by decide +kernel

/-- 6A 1A 83 42 88 (V22): the codes of "ACC", then one bit of a longer code; 0A 0D 09 ends with whole codes. -/
theorem witness_DecoderRejects_codeTrunc :
    let t : Machine.Tree := .node (.leaf 0x43) (.node (.leaf 0x41) (.leaf 0x42))
    let es : List (Byte × Bits) := [(0x41, [true, false]), (0x43, [false]), (0x43, [false])]
    internalCount t ≤ 255 ∧ (∀ e ∈ es, e ∈ codeTable t) ∧
      streamBody (bytes [0x6A, 0x1A, 0x83, 0x42, 0x88]) = serialize t ++ es.flatMap (·.2) ++ [true] ∧
      (∃ e ∈ codeTable t, [true] <+: e.2 ∧ [true] ≠ e.2) ∧
      streamBody (bytes [0x0A, 0x0D, 0x09]) =
        serialize (.node (.leaf 0x41) (.leaf 0x42)) ++ [((0x41 : Byte), [false]), (0x42, [true])].flatMap (·.2) ++ [] := by
  decide +kernel

/-- 74 10 and 74 17: below the padding's limit they agree (section 2.5). -/
theorem witness_PaddingBitsAreIgnored :
    let B := bytes [0x74, 0x10]
    let B' := bytes [0x74, 0x17]
    B.length = B'.length ∧ B ≠ B' ∧
      ∀ k, k < 3 ∨ k < 8 * B.length - valMSB ((unpack B).take 3) → (unpack B)[k]? = (unpack B')[k]? :=
  ⟨by decide, by decide, by
    have h : ∀ k < 13, (unpack (bytes [0x74, 0x10]))[k]? = (unpack (bytes [0x74, 0x17]))[k]? := by decide
    have he : 8 * (bytes [0x74, 0x10]).length - valMSB ((unpack (bytes [0x74, 0x10])).take 3) = 13 := by decide
    intro k hk
    exact h k (by omega)⟩

theorem witness_TriplesPackAndUnpack :
    (1 ≤ 1 ∧ 1 ≤ 2 ^ 1 - 1 ∧ 32767 ≤ 2 ^ (16 - 1) - 1) ∧ 15 ≤ 15 ∧ 32767 ≤ 2 ^ 15 - 1 ∧ 1 ≤ 2 ^ (16 - 15) - 1 := by decide

/-- "AAAB" with ob 8: position 1 is a candidate at 2; the match at 1 is 1 back and 2 bytes long; "B" has none. -/
theorem witness_MatchFinder :
    let data := bytes [0x41, 0x41, 0x41, 0x42]
    2 < data.length ∧ (1 < 2 ∧ data[1]? = data[2]? ∧ 2 - 1 ≤ 2 ^ 8 - 1) ∧
      findMatch 8 (passedBefore data 1) (data.drop 1) = ⟨1, 2⟩ ∧
      (findMatch 8 (passedBefore data 3) (data.drop 3)).length = 0 := by decide +kernel

theorem witness_EncoderEmits :
    let data := bytes [0x41, 0x41, 0x41]
    data ≠ [] ∧ lz77Encode data 8 = .ok (bytes [0, 0, 0x41, 1, 1, 0x41], 0) ∧
      bytes [0, 0, 0x41, 1, 1, 0x41] = bytes [0, 0, 0x41] ++ 1#8 :: 1#8 :: 0x41#8 :: [] ∧
      (bytes [0, 0, 0x41]).length % 3 = 0 := by decide +kernel

theorem witness_Lz77RoundTrip : 1 ≤ 1 ∧ 1 ≤ 15 ∧ 15 ≤ 15 := by decide

theorem witness_CopiesGoForward : 1 ≤ 1 ∧ 1 ≤ (bytes [0x41]).length ∧ 5 < 6 ∧ 0 < (bytes [0x41]).reverse.length := by
  decide

theorem witness_DecodedLength :
    lz77Decode (bytes [0, 0, 0x41, 1, 6, 0x41]) 8 =
      .ok (bytes [0x41, 0x41, 0x41, 0x41, 0x41, 0x41, 0x41, 0x41], 0) := by decide +kernel

/-- 05 00 51 has length 0 and offset 5, and decodes to "Q" from an empty output (R185). -/
theorem witness_DecoderChecks_zero_length :
    lz77Decode [] 8 = .ok ([], 0) ∧ tripleLength 8 5 0 = 0 ∧ tripleOffset 8 5 0 = 5 ∧
      lz77Decode (bytes [5, 0, 0x51]) 8 = .ok (bytes [0x51], 0) := by decide +kernel

theorem witness_DecoderChecks_length : (bytes [0, 0]).length % 3 ≠ 0 := by decide

/-- After "A", triples of length 1 and of offset 0, 2 and 1, with a whole triple behind. -/
theorem witness_DecoderChecks_copy :
    lz77Decode (bytes [0, 0, 0x41]) 8 = .ok (bytes [0x41], 0) ∧ (bytes [0, 0, 0]).length % 3 = 0 ∧
      0 < tripleLength 8 0 1 ∧ tripleOffset 8 0 1 = 0 ∧ 0 < tripleLength 8 2 1 ∧
      (bytes [0x41]).length < tripleOffset 8 2 1 ∧ 0 < tripleLength 8 1 1 ∧ 1 ≤ tripleOffset 8 1 1 ∧
      tripleOffset 8 1 1 ≤ (bytes [0x41]).length := by decide +kernel

end Sys2Proof.Tests
end

/-! Proofs for 00_scope.md: bit sequences and bytes (R13, R14). The rules of bitsMSB and valMSB come first, then
those of unpack and pack, byte by byte. -/

namespace Sys2Proof.Proofs
open Sys2Proof.Machine

/-! ### bitsMSB and valMSB (R13) -/

@[simp] theorem length_bitsMSB (v n : Nat) : (bitsMSB v n).length = n := by
  induction n with
  | zero => rfl
  | succ n ih => simp [bitsMSB, ih]

/-- Bit k of the sequence is the bit of weight `2 ^ (n - 1 - k)` of the number. -/
theorem getElem?_bitsMSB (v : Nat) {n k : Nat} (hk : k < n) : (bitsMSB v n)[k]? = some (v.testBit (n - 1 - k)) := by
  induction n generalizing k with
  | zero => omega
  | succ n ih =>
    cases k with
    | zero => simp [bitsMSB]
    | succ k =>
      have hindex : n + 1 - 1 - (k + 1) = n - 1 - k := by omega
      rw [bitsMSB, List.getElem?_cons_succ, ih (by omega), hindex]

/-- bitsMSB looks at the n low bits alone. -/
theorem bitsMSB_mod_two_pow (v n : Nat) : bitsMSB (v % 2 ^ n) n = bitsMSB v n := by
  refine List.ext_getElem? fun k => ?_
  by_cases hk : k < n
  · have hlow : n - 1 - k < n := by omega
    rw [getElem?_bitsMSB _ hk, getElem?_bitsMSB _ hk, Nat.testBit_mod_two_pow]
    simp [hlow]
  · rw [List.getElem?_eq_none (by simp; omega), List.getElem?_eq_none (by simp; omega)]

@[simp] theorem valMSB_nil : valMSB [] = 0 := rfl

@[simp] theorem valMSB_append_singleton (s : Bits) (b : Bool) : valMSB (s ++ [b]) = 2 * valMSB s + b.toNat := by
  simp [valMSB]

/-- The first bit of a sequence is its most significant one. -/
theorem valMSB_cons (b : Bool) (s : Bits) : valMSB (b :: s) = 2 ^ s.length * b.toNat + valMSB s := by
  induction s using List.reverseRecOn with
  | nil => simp [valMSB]
  | append_singleton s c ih =>
    rw [← List.cons_append, valMSB_append_singleton, ih, valMSB_append_singleton, List.length_append,
      List.length_singleton, Nat.pow_succ]
    ring

theorem valMSB_lt_two_pow_length (s : Bits) : valMSB s < 2 ^ s.length := by
  induction s using List.reverseRecOn with
  | nil => simp
  | append_singleton s b ih =>
    have hb := Bool.toNat_le b
    rw [valMSB_append_singleton, List.length_append, List.length_singleton, Nat.pow_succ]
    omega

theorem valMSB_bitsMSB (v n : Nat) : valMSB (bitsMSB v n) = v % 2 ^ n := by
  induction n with
  | zero => simp [bitsMSB, Nat.mod_one]
  | succ n ih =>
    rw [bitsMSB, valMSB_cons, ih, length_bitsMSB, Nat.toNat_testBit, Nat.mod_pow_succ, Nat.add_comm]

theorem bitsMSB_valMSB (s : Bits) : bitsMSB (valMSB s) s.length = s := by
  induction s with
  | nil => rfl
  | cons b s ih =>
    have hlt := valMSB_lt_two_pow_length s
    have hfirst : (valMSB (b :: s)).testBit s.length = b := by
      rw [valMSB_cons, Nat.testBit_two_pow_mul_add _ hlt]
      cases b <;> simp
    have hrest : valMSB (b :: s) % 2 ^ s.length = valMSB s := by
      rw [valMSB_cons, Nat.mul_add_mod, Nat.mod_eq_of_lt hlt]
    rw [List.length_cons, bitsMSB, hfirst, ← bitsMSB_mod_two_pow, hrest, ih]

/-! ### unpack (R14) -/

@[simp] theorem unpack_nil : unpack [] = [] := rfl

@[simp] theorem unpack_cons (b : Byte) (B : List Byte) : unpack (b :: B) = bitsMSB b.toNat 8 ++ unpack B := rfl

@[simp] theorem length_unpack (B : List Byte) : (unpack B).length = 8 * B.length := by
  induction B with
  | nil => rfl
  | cons b B ih => simp [ih]; omega

/-- The eight bits of a byte stand together in the unpacked sequence. -/
theorem take_drop_unpack {B : List Byte} {j : Nat} (hj : j < B.length) :
    ((unpack B).drop (8 * j)).take 8 = bitsMSB B[j].toNat 8 := by
  induction B generalizing j with
  | nil => simp at hj
  | cons b B ih =>
    cases j with
    | zero => simp
    | succ j =>
      have hpast : 8 * (j + 1) = (bitsMSB b.toNat 8).length + 8 * j := by simp; omega
      rw [unpack_cons, hpast, List.drop_length_add_append, ih (by simpa using hj), List.getElem_cons_succ]

theorem getElem?_unpack {B : List Byte} {j k : Nat} (hj : j < B.length) (hk : k < 8) :
    (unpack B)[8 * j + k]? = some (B[j].getLsbD (7 - k)) :=
  calc (unpack B)[8 * j + k]? = (((unpack B).drop (8 * j)).take 8)[k]? := by
        rw [List.getElem?_take_of_lt hk, List.getElem?_drop]
    _ = some (B[j].getLsbD (7 - k)) := by rw [take_drop_unpack hj, getElem?_bitsMSB _ hk]; rfl

/-! ### pack (R14), and that pack and unpack undo each other -/

@[simp] theorem pack_nil : pack [] = [] := rfl

/-- Eight bits in front of a sequence are one byte in front of its bytes. -/
theorem pack_append {c : Bits} (hc : c.length = 8) (s : Bits) :
    pack (c ++ s) = BitVec.ofNat 8 (valMSB c) :: pack s := by
  match c, hc with
  | [_, _, _, _, _, _, _, _], _ => rfl

theorem pack_unpack (B : List Byte) : pack (unpack B) = B := by
  induction B with
  | nil => rfl
  | cons b B ih =>
    have hvalue : BitVec.ofNat 8 (valMSB (bitsMSB b.toNat 8)) = b := by
      rw [valMSB_bitsMSB, Nat.mod_eq_of_lt b.isLt, BitVec.ofNat_toNat, BitVec.setWidth_eq]
    rw [unpack_cons, pack_append (length_bitsMSB _ _), hvalue, ih]

/-- Unpacking the byte of eight bits gives the bits. -/
theorem bitsMSB_ofNat_valMSB {c : Bits} (hc : c.length = 8) : bitsMSB (BitVec.ofNat 8 (valMSB c)).toNat 8 = c := by
  rw [BitVec.toNat_ofNat, bitsMSB_mod_two_pow, ← hc, bitsMSB_valMSB]

theorem unpack_pack {s : Bits} (hs : s.length % 8 = 0) : unpack (pack s) = s := by
  by_cases hnil : s = []
  · rw [hnil, pack_nil, unpack_nil]
  · have hpos := List.length_pos_iff.mpr hnil
    have hc : (s.take 8).length = 8 := by rw [List.length_take]; omega
    have hrest : (s.drop 8).length % 8 = 0 := by rw [List.length_drop]; omega
    calc unpack (pack s) = unpack (pack (s.take 8 ++ s.drop 8)) := by rw [List.take_append_drop]
      _ = s.take 8 ++ s.drop 8 := by
        rw [pack_append hc, unpack_cons, bitsMSB_ofNat_valMSB hc, unpack_pack hrest]
      _ = s := List.take_append_drop 8 s
termination_by s.length
decreasing_by rw [List.length_drop]; omega

theorem length_pack {s : Bits} (hs : s.length % 8 = 0) : (pack s).length = s.length / 8 := by
  have hlength : 8 * (pack s).length = s.length := by rw [← length_unpack, unpack_pack hs]
  omega

/-- Byte j of a packed sequence spells bits 8j to 8j + 7: they are the bits of that byte in `unpack (pack s) = s`. -/
theorem getElem?_pack {s : Bits} (hs : s.length % 8 = 0) {j : Nat} (hj : j < s.length / 8) :
    (pack s)[j]?.map BitVec.toNat = some (valMSB ((s.drop (8 * j)).take 8)) := by
  have hj' : j < (pack s).length := by rwa [length_pack hs]
  have hbits : (s.drop (8 * j)).take 8 = bitsMSB (pack s)[j].toNat 8 := by
    rw [← take_drop_unpack hj', unpack_pack hs]
  rw [hbits, valMSB_bitsMSB, Nat.mod_eq_of_lt (pack s)[j].isLt, List.getElem?_eq_getElem hj', Option.map_some]

/-- Settles O42: both halves are the rules of pack and unpack above, each by induction over the bytes. -/
theorem packAndUnpackBitByBit : Obligations.PackAndUnpackBitByBit :=
  ⟨fun _ hs => ⟨length_pack hs, fun _ hj => getElem?_pack hs hj, unpack_pack hs⟩,
    fun B => ⟨length_unpack B, fun _ _ hj hk => getElem?_unpack hj hk, pack_unpack B⟩⟩

end Sys2Proof.Proofs

/-! Proofs for 10_state.md: the CSRs, the record and HUFF_INFO. What one step of each kind answers comes first, then what
a step can do to the registers; the invariants of O40 and O41 and the other statements follow. -/

namespace Sys2Proof.Proofs
open Sys2Proof.Machine

/-! ### The step that an event or the engine's turn gives -/

theorem step_event {s : State} {e : Event} {rest : List Event} (hr : s.refusal = none) (ha : s.agenda = e :: rest) :
    step s = eventStep e { s with agenda := rest } := by
  simp only [step, runStep, hr, ha]

/-- At the engine's turn the step is the engine's, on the state without the event that gave it the turn. -/
theorem step_engineTurn {s : State} (hr : s.refusal = none) (turn : engineTurn s) : step s = engineStep (popped s) := by
  obtain ha | ⟨rest, ha⟩ := turn
  · have hpopped : popped s = s := by cases s; cases ha; rfl
    simp only [step, runStep, hr, ha, hpopped]
  · simp only [step_event hr ha, eventStep, popped, ha, List.tail_cons]

theorem engineStep_decoded {s : State} {i : Instr} (hb : s.busy = true) (hi : decodeWord s.lat.word = .ok i) :
    engineStep s = exec i s := by
  simp only [engineStep, fetchWord, hb, hi, if_true]

/-- The agenda is no register. -/
@[simp] theorem csrValue_agenda (c : Csr) (s : State) (rest : List Event) :
    csrValue c { s with agenda := rest } = csrValue c s := by
  cases c <;> rfl

section HostAccess
variable {s : State} {rest : List Event} {off : Nat}

/-- R27, R28: a defined read answers the register at the offset. -/
theorem step_csrRead (hr : s.refusal = none) (ha : s.agenda = .csrRead (csrBase s.platform + off) 4 :: rest)
    (hal : off % 4 = 0) (hle : off ≤ 0xFC) :
    step s = .next { s with agenda := rest, readData := csrValue (csrAt off) s } := by
  simp only [step_event hr ha, eventStep, hostCsrRead, csrTarget_of_offset _ off hal hle, csrValue_agenda]

/-- R27, R28: a defined write stores to the register at the offset. -/
theorem step_csrWrite {v : Word} (hr : s.refusal = none)
    (ha : s.agenda = .csrWrite (csrBase s.platform + off) 4 v :: rest) (hal : off % 4 = 0) (hle : off ≤ 0xFC) :
    step s = .next (csrStore (csrAt off) v { s with agenda := rest }) := by
  simp only [step_event hr ha, eventStep, hostCsrWrite, csrTarget_of_offset _ off hal hle]

/-- R28: an access that reaches no register sets the mark. -/
theorem step_badAccess {addr bytes : Nat} {v : Word} (hr : s.refusal = none)
    (ha : s.agenda = .csrRead addr bytes :: rest ∨ s.agenda = .csrWrite addr bytes v :: rest)
    (hc : csrTarget s.platform addr bytes = none) :
    step s = .next { s with agenda := rest, refusal := some (.csrAccess addr bytes) } := by
  obtain ha | ha := ha
  · simp only [step_event hr ha, eventStep, hostCsrRead, hc, refuse]
  · simp only [step_event hr ha, eventStep, hostCsrWrite, hc, refuse]

end HostAccess

/-- An access that reaches a register of one offset only is at that offset. -/
theorem csrTarget_offset {p : Platform} {addr bytes k : Nat} {c : Csr} (only : ∀ {off}, csrAt off = c → off = k)
    (h : csrTarget p addr bytes = some c) : addr = csrBase p + k ∧ bytes = 4 := by
  obtain ⟨hbytes, off, -, -, haddr, hc⟩ := csrTarget_some h
  exact ⟨only hc.symm ▸ haddr, hbytes⟩

theorem csrAt_reserved {off : Nat} (h : 0x30 ≤ off) : csrAt off = .reserved := by
  unfold csrAt
  iterate 12 rw [if_neg (by omega)]

/-- R106, R107: a store to CMD is an overrun or an issue. -/
theorem csrStore_cmd_cases (v : Word) (s : State) :
    (s.busy = true ∧ csrStore .cmd v s = { s with overrun := true }) ∨
      (s.busy = false ∧ csrStore .cmd v s = issue v s) := by
  cases hb : s.busy <;> simp [csrStore, hb]

/-! ### What a step does to the registers -/

/-- The four things a step can do to the registers: leave them, complete the command, reset them, store to one. -/
inductive RegisterCase (s : State) : State → Prop
  | kept (r : Option Refusal) (m : Memory) (d : Word) (n : Nat) (hm : Memory.wf s.mem → Memory.wf m) :
      RegisterCase s { popped s with refusal := r, mem := m, readData := d, draws := n }
  | completion (turn : engineTurn s) (hb : s.busy = true) (o : CmdOutcome)
      (fits : ∀ out hi, o = .ok out hi →
        out.length ≤ s.lat.dstCap.toNat ∧ s.lat.dstBase.toNat + s.lat.dstCap.toNat ≤ addrCount) :
      RegisterCase s (complete o (popped s))
  | reset (rest : List Event) (ha : s.agenda = .reset :: rest) (r : Option Refusal) :
      RegisterCase s { resetBlock (popped s) with refusal := r }
  | store (addr bytes : Nat) (v : Word) (rest : List Event) (c : Csr) (ha : s.agenda = .csrWrite addr bytes v :: rest)
      (hc : csrTarget s.platform addr bytes = some c) : RegisterCase s (csrStore c v (popped s))

theorem step_registerCase {s t : State} (h : step s = .next t) : RegisterCase s t := by
  obtain ⟨-, hcase⟩ := step_stepCase h
  cases hcase with
  | idle turn hb => exact .kept s.refusal s.mem s.readData s.draws id
  | device turn hb hd => exact .kept _ s.mem s.readData s.draws id
  | completion turn hb o fits => exact .completion turn hb o fits
  | reset rest ha hd => exact .reset rest ha s.refusal
  | resetOnDevice rest ha hd => exact .reset rest ha _
  | csrRead addr bytes rest c ha hc => exact .kept s.refusal s.mem _ s.draws id
  | csrWrite addr bytes v rest c ha hc => exact .store addr bytes v rest c ha hc
  | badAccess addr bytes rest ha hc => exact .kept _ s.mem s.readData s.draws id
  | memRead a rest ha =>
    unfold hostMemRead
    split
    · exact .kept s.refusal s.mem _ _ id
    · exact .kept s.refusal s.mem _ s.draws id
  | memRefused a b rest ha ho => exact .kept _ s.mem s.readData s.draws id
  | memWrite a b rest ha ho =>
    exact .kept s.refusal _ s.readData s.draws fun hm => memWriteBytes_wf _ _ _ hm a.isLt

/-! ### The invariant of a run (O40) -/

theorem legalRecord_error (e : CmdError) : legalRecord (errorCode e) (errorDetail e) = true := by cases e <;> decide

theorem errorCode_ne_zero (e : CmdError) : errorCode e ≠ 0 := by cases e <;> decide

@[simp] theorem w1c_false (b : Bool) : w1c false b = false := rfl

theorem eq_true_of_w1c {flag b : Bool} (h : w1c flag b = true) : flag = true := by
  simp only [w1c, Bool.and_eq_true] at h
  exact h.1

/-- A completion publishes a consistent record over one that issue has cleared. -/
theorem recordInv_complete (o : CmdOutcome) {s : State} (hclear : recordClear s) : recordInv (complete o s) := by
  obtain ⟨-, herr, hnoop, hcode, hdetail, -, hinfo, hhuff⟩ := hclear
  cases o with
  | ok out hi => simp [recordInv, legalRecord, hnoop, herr]
  | noOp => simp [recordInv, legalRecord, herr, hcode, hdetail, hinfo]
  | err e i =>
    have hne := errorCode_ne_zero e
    exact ⟨by simp, by simp [hnoop], fun _ => hne, legalRecord_error e, fun h0 => absurd h0 hne, fun _ => ⟨rfl, hhuff⟩⟩

/-- Issue clears the record, the command and its latch agree. -/
theorem recordInv_issue (w : Word) (s : State) : recordInv (issue w s) := by simp [recordInv, recordClear, legalRecord]

theorem recordInv_resetBlock (s : State) : recordInv (resetBlock s) := by simp [recordInv, legalRecord]

theorem recordInv_ackStatus (v : Word) {s : State} (h : recordInv s) : recordInv (ackStatus v s) := by
  obtain ⟨hbusy, hnoop, herr, hlegal, hinfo, hlen⟩ := h
  refine ⟨fun hb => ?_, fun hn => ?_, fun he => herr (eq_true_of_w1c he), hlegal, hinfo, hlen⟩
  · obtain ⟨⟨h1, h2, h3, hrest⟩, hword⟩ := hbusy hb
    exact ⟨⟨by simp [h1], by simp [h2], by simp [h3], hrest⟩, hword⟩
  · obtain ⟨h1, hcode⟩ := hnoop (eq_true_of_w1c hn)
    exact ⟨by simp [h1], hcode⟩

theorem recordInv_csrStore (c : Csr) (v : Word) {s : State} (h : recordInv s) : recordInv (csrStore c v s) := by
  cases c with
  | status => exact recordInv_ackStatus v h
  | cmd =>
    obtain ⟨-, heq⟩ | ⟨-, heq⟩ := csrStore_cmd_cases v s <;> rw [heq]
    · exact h
    · exact recordInv_issue v s
  | _ => exact h

/-- A store to a register writes no memory. -/
@[simp] theorem csrStore_mem (c : Csr) (v : Word) (s : State) : (csrStore c v s).mem = s.mem := by
  cases c with
  | cmd => obtain ⟨-, heq⟩ | ⟨-, heq⟩ := csrStore_cmd_cases v s <;> simp [heq]
  | _ => rfl

/-- Settles O40: by the four things a step can do to the registers. -/
theorem stepKeepsRunInvariant : Obligations.StepKeepsRunInvariant := by
  rintro s t ⟨hmem, hrecord⟩ h
  cases step_registerCase h with
  | kept r m d n hm => exact ⟨hm hmem, hrecord⟩
  | completion turn hb o fits =>
    obtain ⟨hbusy, -⟩ := hrecord
    obtain ⟨hclear, -⟩ := hbusy hb
    exact ⟨completionMem_wf (s := popped s) fits hmem, recordInv_complete o (s := popped s) hclear⟩
  | reset rest ha r =>
    refine ⟨?_, recordInv_resetBlock (popped s)⟩
    show Memory.wf (if s.busy then freeDst s.lat s.draws s.mem else s.mem)
    split
    · exact freeDst_wf _ _ _ hmem
    · exact hmem
  | store addr bytes v rest c ha hc =>
    exact ⟨(csrStore_mem c v (popped s)).symm ▸ hmem, recordInv_csrStore c v (s := popped s) hrecord⟩

/-! ### A tree and its field (30_encoding.md R93) -/

theorem leafCount_eq_internalCount (t : Machine.Tree) : leafCount t = internalCount t + 1 := by
  induction t with
  | leaf v => rfl
  | node l r ihl ihr => simp only [leafCount, internalCount, ihl, ihr]; omega

theorem length_serialize (t : Machine.Tree) : (serialize t).length = 10 * leafCount t - 1 := by
  have key : (serialize t).length = 10 * internalCount t + 9 := by
    induction t with
    | leaf v => simp [serialize, internalCount]
    | node l r ihl ihr => simp only [serialize, internalCount, List.length_cons, List.length_append, ihl, ihr]; omega
  rw [key, leafCount_eq_internalCount]
  omega

theorem length_leafSymbols (t : Machine.Tree) : (leafSymbols t).length = leafCount t := by
  induction t with
  | leaf v => rfl
  | node l r ihl ihr => simp only [leafSymbols, leafCount, List.length_append, ihl, ihr]

/-! ### The tree of the encoder (41_huffman_encode.md R126 to R130) -/

section EncoderTree
open scoped List

/-- The symbols at the leaves of a queue's trees. -/
def queueSymbols (q : List QueueEntry) : List Byte := q.flatMap fun e => leafSymbols e.node

theorem queueInsert_perm (x : QueueEntry) (q : List QueueEntry) : queueInsert x q ~ x :: q := by
  induction q with
  | nil => exact .refl _
  | cons y ys ih =>
    unfold queueInsert
    split
    · exact .refl _
    · exact (ih.cons y).trans (.swap x y ys)

theorem length_queueInsert (x : QueueEntry) (q : List QueueEntry) : (queueInsert x q).length = q.length + 1 :=
  (queueInsert_perm x q).length_eq

theorem queueSymbols_insert (x : QueueEntry) (q : List QueueEntry) :
    queueSymbols (queueInsert x q) ~ leafSymbols x.node ++ queueSymbols q :=
  (queueInsert_perm x q).flatMap_right _

theorem length_seedQueue (es : List (Byte × Nat)) (seq : Nat) (q : List QueueEntry) :
    (seedQueue es seq q).length = es.length + q.length := by
  induction es generalizing seq q with
  | nil => simp [seedQueue]
  | cons e es ih => simp only [seedQueue, ih, length_queueInsert, List.length_cons]; omega

theorem queueSymbols_seedQueue (es : List (Byte × Nat)) (seq : Nat) (q : List QueueEntry) :
    queueSymbols (seedQueue es seq q) ~ es.map (·.1) ++ queueSymbols q := by
  induction es generalizing seq q with
  | nil => exact .refl _
  | cons e es ih =>
    calc queueSymbols (seedQueue (e :: es) seq q)
      _ ~ es.map (·.1) ++ queueSymbols (queueInsert ⟨e.2, seq, .leaf e.1⟩ q) := ih _ _
      _ ~ es.map (·.1) ++ (e.1 :: queueSymbols q) := (queueSymbols_insert _ q).append_left _
      _ ~ e.1 :: (es.map (·.1) ++ queueSymbols q) := List.perm_middle

/-- Merging a queue, with a merge to spare for all entries but one, keeps the symbols. -/
theorem leafSymbols_mergeQueue (fuel seq : Nat) (q : List QueueEntry) (hne : q ≠ []) (hfuel : q.length ≤ fuel + 1) :
    leafSymbols (mergeQueue fuel seq q) ~ queueSymbols q := by
  induction fuel generalizing seq q with
  | zero =>
    match q, hne, hfuel with
    | [a], _, _ => simp [mergeQueue, queueSymbols]
  | succ fuel ih =>
    match q, hne, hfuel with
    | [a], _, _ => simp [mergeQueue, queueSymbols]
    | a :: b :: q, _, hfuel =>
      have hlength := length_queueInsert ⟨a.weight + b.weight, seq, .node a.node b.node⟩ q
      have hmore : queueInsert ⟨a.weight + b.weight, seq, .node a.node b.node⟩ q ≠ [] :=
        List.ne_nil_of_length_pos (by omega)
      calc leafSymbols (mergeQueue (fuel + 1) seq (a :: b :: q))
        _ ~ _ := ih (seq + 1) _ hmore (by simp only [List.length_cons] at hfuel; omega)
        _ ~ (leafSymbols a.node ++ leafSymbols b.node) ++ queueSymbols q := queueSymbols_insert _ q
        _ = queueSymbols (a :: b :: q) := by simp [queueSymbols]

theorem leafSet_ne_nil (B : List Byte) : leafSet B ≠ [] := by
  unfold leafSet
  split <;> exact List.cons_ne_nil _ _

theorem length_leafSet_le (B : List Byte) : (leafSet B).length ≤ 256 := by
  have hfilter : ((freqCount B).filter fun e => decide (0 < e.2)).length ≤ 256 := by
    simpa [freqCount, allSymbols] using List.length_filter_le (fun e => decide (0 < e.2)) (freqCount B)
  unfold leafSet
  split
  · decide
  · rename_i e es h
    rwa [← h]

/-- R128: the tree of an input has exactly the symbols of the leaf set at its leaves. -/
theorem leafSymbols_huffTree (B : List Byte) : leafSymbols (huffTree B) ~ (leafSet B).map (·.1) := by
  have hlength : (seedQueue (leafSet B) 0 []).length = (leafSet B).length := length_seedQueue _ _ _
  have hpos := List.length_pos_iff.mpr (leafSet_ne_nil B)
  calc leafSymbols (huffTree B)
    _ ~ queueSymbols (seedQueue (leafSet B) 0 []) :=
      leafSymbols_mergeQueue _ _ _ (List.ne_nil_of_length_pos (by omega)) (by omega)
    _ ~ (leafSet B).map (·.1) ++ queueSymbols [] := queueSymbols_seedQueue _ _ _
    _ = (leafSet B).map (·.1) := List.append_nil _

theorem leafCount_huffTree (B : List Byte) : leafCount (huffTree B) = (leafSet B).length := by
  rw [← length_leafSymbols, (leafSymbols_huffTree B).length_eq, List.length_map]

end EncoderTree

/-! ### The tree of the decoder (42_huffman_decode.md R150, R151) -/

/-- From `st` to `st'` the cursor has read exactly `bits`, with `i` internal nodes and `l` leaves. -/
structure Reads (st : ParseState) (bits : Bits) (i l : Nat) (st' : ParseState) : Prop where
  rest : st.rest = bits ++ st'.rest
  cur : st'.cur = st.cur + bits.length
  nint : st'.nint = st.nint + i
  nleaves : st'.nleaves = st.nleaves + l

theorem Reads.refl (st : ParseState) : Reads st [] 0 0 st := ⟨rfl, rfl, rfl, rfl⟩

theorem Reads.trans {st₁ st₂ st₃ : ParseState} {b₁ b₂ : Bits} {i₁ i₂ l₁ l₂ : Nat} (h₁ : Reads st₁ b₁ i₁ l₁ st₂)
    (h₂ : Reads st₂ b₂ i₂ l₂ st₃) : Reads st₁ (b₁ ++ b₂) (i₁ + i₂) (l₁ + l₂) st₃ where
  rest := by rw [h₁.rest, h₂.rest, List.append_assoc]
  cur := by rw [h₂.cur, h₁.cur, List.length_append, Nat.add_assoc]
  nint := by rw [h₂.nint, h₁.nint, Nat.add_assoc]
  nleaves := by rw [h₂.nleaves, h₁.nleaves, Nat.add_assoc]

theorem readTreeBit_reads {st st' : ParseState} {b : Bool} (h : readTreeBit st = .ok (b, st')) :
    Reads st [b] 0 0 st' := by
  unfold readTreeBit at h
  split at h
  · cases h
  · rename_i hrest
    cases h
    exact ⟨hrest, rfl, rfl, rfl⟩

theorem readSymbol_reads {n v v' : Nat} {st st' : ParseState} (h : readSymbol n v st = .ok (v', st')) :
    ∃ bits, bits.length = n ∧ v' = 2 ^ n * v + valMSB bits ∧ Reads st bits 0 0 st' := by
  induction n generalizing v st with
  | zero =>
    cases h
    exact ⟨[], rfl, by simp, .refl _⟩
  | succ n ih =>
    unfold readSymbol at h
    split at h
    · cases h
    · rename_i b st₁ hbit
      obtain ⟨bits, hlength, hvalue, hreads⟩ := ih h
      refine ⟨b :: bits, by simp [hlength], ?_, (readTreeBit_reads hbit).trans hreads⟩
      rw [hvalue, valMSB_cons, hlength, Nat.pow_succ]
      ring

/-- The parser reads exactly the field of the tree it gives, and stays below the 256th internal node. -/
theorem parseNode_reads {fuel : Nat} {st st' : ParseState} {t : Machine.Tree} (h : parseNode fuel st = .ok (t, st')) :
    Reads st (serialize t) (internalCount t) (leafCount t) st' ∧
      (st.nint ≤ Config.maxInternal → st'.nint ≤ Config.maxInternal) := by
  induction fuel generalizing st st' t with
  | zero => cases h
  | succ fuel ih =>
    unfold parseNode at h
    split at h
    · cases h
    · rename_i st₁ hbit
      split at h
      · cases h
      · rename_i v st₂ hsymbol
        cases h
        obtain ⟨bits, hlength, hvalue, hreads⟩ := readSymbol_reads hsymbol
        have hbits : bitsMSB (BitVec.ofNat 8 v).toNat 8 = bits := by
          rw [hvalue, Nat.mul_zero, Nat.zero_add, bitsMSB_ofNat_valMSB hlength]
        have hleaf : Reads st₂ [] 0 1 { st₂ with nleaves := st₂.nleaves + 1 } := ⟨rfl, rfl, rfl, rfl⟩
        have hall := ((readTreeBit_reads hbit).trans hreads).trans hleaf
        refine ⟨?_, fun hle => by rw [hall.nint]; exact hle⟩
        rw [serialize, hbits]
        simpa [internalCount, leafCount] using hall
    · rename_i st₁ hbit
      split at h
      · cases h
      · rename_i hroom
        split at h
        · cases h
        · rename_i l st₂ hl
          split at h
          · cases h
          · rename_i r st₃ hr
            cases h
            obtain ⟨hreadsl, hlel⟩ := ih hl
            obtain ⟨hreadsr, hler⟩ := ih hr
            have hnode : Reads st₁ [] 1 0 { st₁ with nint := st₁.nint + 1 } := ⟨rfl, rfl, rfl, rfl⟩
            have hall := (((readTreeBit_reads hbit).trans hnode).trans hreadsl).trans hreadsr
            refine ⟨?_, fun _ => hler (hlel (Nat.not_lt.mp hroom))⟩
            have hcount : 0 + 1 + internalCount l + internalCount r = internalCount (.node l r) := by
              simp only [internalCount]; omega
            simpa [serialize, leafCount, hcount] using hall

/-! ### HUFF_INFO describes a tree (O41) -/

/-- The shape `huffInfoInv` asks of HUFF_INFO, as a predicate on the value. -/
def HuffInfoShape (w : Word) : Prop :=
  w = 0 ∨ ∃ p n, p ≤ 7 ∧ 1 ≤ n ∧ n ≤ 256 ∧ w = huffInfoWord p (10 * n - 1) n

theorem huffInfoInv_iff {s : State} : huffInfoInv s ↔ HuffInfoShape s.huffInfo := Iff.rfl

theorem padSize_le (n : Nat) : padSize n ≤ 7 := by unfold padSize; omega

theorem writeStream_pad_le (treeBits payload : Bits) : (writeStream treeBits payload).2 ≤ 7 := padSize_le _

theorem huffEncode_huffInfo {B out : List Byte} {w : Word} (h : huffEncode B = .ok (out, w)) : HuffInfoShape w := by
  cases h
  refine .inr ⟨_, _, writeStream_pad_le (serialize (huffTree B)) (payloadBits (codeTable (huffTree B)) B),
    List.length_pos_iff.mpr (leafSet_ne_nil B), length_leafSet_le B, ?_⟩
  rw [length_serialize, leafCount_huffTree]

theorem huffDecode_huffInfo {B out : List Byte} {w : Word} (h : huffDecode B = .ok (out, w)) : HuffInfoShape w := by
  unfold huffDecode at h
  simp only at h
  split at h
  · cases h
  · split at h
    · cases h
    · rename_i root st hparse
      split at h
      · cases h
      · cases h
        obtain ⟨hreads, hle⟩ := parseNode_reads hparse
        have hcur : st.cur = 3 + (serialize root).length := hreads.cur
        have hnint : st.nint = 0 + internalCount root := hreads.nint
        have hnleaves : st.nleaves = 0 + leafCount root := hreads.nleaves
        have hmax : st.nint ≤ 255 := hle (Nat.zero_le _)
        have hroot := leafCount_eq_internalCount root
        have hpad : valMSB ((unpack B).take 3) < 2 ^ 3 :=
          (valMSB_lt_two_pow_length _).trans_le (Nat.pow_le_pow_right (by omega) (List.length_take_le 3 _))
        rw [length_serialize] at hcur
        refine .inr ⟨valMSB ((unpack B).take 3), st.nleaves, by omega, by omega, by omega, ?_⟩
        congr 1
        omega

theorem lz77Encode_huffInfo {B out : List Byte} {ob : Nat} {w : Word} (h : lz77Encode B ob = .ok (out, w)) : w = 0 := by
  cases h
  rfl

theorem lz77Decode_huffInfo {B out : List Byte} {ob : Nat} {w : Word} (h : lz77Decode B ob = .ok (out, w)) : w = 0 := by
  unfold lz77Decode at h
  split at h
  · split at h <;> cases h
    rfl
  · cases h

/-- R49: whatever the command, the HUFF_INFO value of its result function has the shape. -/
theorem transformOf_huffInfo {i : Instr} {B out : List Byte} {w : Word} (h : transformOf i B = .ok (out, w)) :
    HuffInfoShape w := by
  cases i with
  | huffEnc ob => exact huffEncode_huffInfo h
  | huffDec ob => exact huffDecode_huffInfo h
  | lz77Enc ob => exact .inl (lz77Encode_huffInfo h)
  | lz77Dec ob => exact .inl (lz77Decode_huffInfo h)

/-- A command leaves HUFF_INFO, or publishes the value its result function gave for the source bytes. -/
theorem runCommand_huffInfo (F : List Byte → Transform) (s : State) :
    (runCommand F s).huffInfo = s.huffInfo ∨ ∃ out, F (sourceBytes s) = .ok (out, (runCommand F s).huffInfo) := by
  obtain ⟨heq, -⟩ | ⟨e, -, heq⟩ | ⟨-, heq⟩ := runCommand_cases F s
  · exact .inl (by rw [heq, refuse_huffInfo])
  · exact .inl (by rw [heq, complete_err_huffInfo])
  · cases ho : transformOutcome F s with
    | ok out hi => exact .inr ⟨out, by rw [heq, ho, complete_ok_huffInfo, (transformOutcome_ok ho).1]⟩
    | noOp => exact absurd ho (transformOutcome_ne_noOp F s)
    | err e info => exact .inl (by rw [heq, ho, complete_err_huffInfo])

theorem runLz77_huffInfo (F : List Byte → Nat → Transform) (ob : Nat) (s : State) :
    (runLz77 F ob s).huffInfo = s.huffInfo ∨ ∃ out, F (sourceBytes s) ob = .ok (out, (runLz77 F ob s).huffInfo) := by
  unfold runLz77
  split
  · exact runCommand_huffInfo _ s
  · exact .inl (complete_noOp_huffInfo s)

theorem exec_huffInfo {i : Instr} {s t : State} (h : exec i s = .next t) :
    t.huffInfo = s.huffInfo ∨ ∃ out, transformOf i (sourceBytes s) = .ok (out, t.huffInfo) := by
  cases i with
  | huffEnc ob => cases h; exact runCommand_huffInfo huffEncode s
  | huffDec ob => cases h; exact runCommand_huffInfo huffDecode s
  | lz77Enc ob => cases h; exact runLz77_huffInfo lz77Encode ob s
  | lz77Dec ob => cases h; exact runLz77_huffInfo lz77Decode ob s

theorem engineStep_keeps_huffInfoInv {s t : State} (hs : huffInfoInv s) (h : engineStep s = .next t) : huffInfoInv t := by
  rw [huffInfoInv_iff] at hs ⊢
  unfold engineStep at h
  split at h
  · split at h
    · obtain heq | ⟨out, hout⟩ := exec_huffInfo h
      · exact heq ▸ hs
      · exact transformOf_huffInfo hout
    · cases h
      exact hs
  · cases h
    exact hs

theorem csrStore_huffInfo (c : Csr) (v : Word) (s : State) :
    (csrStore c v s).huffInfo = s.huffInfo ∨ (csrStore c v s).huffInfo = 0 := by
  cases c with
  | cmd =>
    obtain ⟨-, heq⟩ | ⟨-, heq⟩ := csrStore_cmd_cases v s <;> rw [heq]
    · exact .inl rfl
    · exact .inr rfl
  | _ => exact .inl rfl

/-- Settles O41: HUFF_INFO is written by a completion, with the value of a result function, and cleared by an issue and a
reset. -/
theorem stepKeepsHuffInfoShape : Obligations.StepKeepsHuffInfoShape := by
  intro s t hs h
  obtain ⟨hr, -⟩ := step_cases h
  cases step_registerCase h with
  | kept r m d n hm => exact hs
  | completion turn hb o fits =>
    rw [step_engineTurn hr turn] at h
    exact engineStep_keeps_huffInfoInv (s := popped s) hs h
  | reset rest ha r => exact .inl rfl
  | store addr bytes v rest c ha hc =>
    obtain heq | heq := csrStore_huffInfo c v (popped s)
    · exact huffInfoInv_iff.mpr (heq ▸ hs)
    · exact .inl heq

/-! ### What a read returns (O6, O8) -/

theorem ctrlWord_eq (s : State) : ctrlWord s = if s.irqEn then 1 else 0 := by
  unfold ctrlWord
  cases s.irqEn <;> rfl

/-- The twelve registers of the CSR map (R27) at their offsets, each with the value its row gives it. -/
def csrMap (s : State) : List (Nat × Word) :=
  [(0x00, 0x4B430100#32), (0x04, if s.irqEn then 1#32 else 0#32), (0x08, csrValue .status s), (0x0C, s.cmd),
    (0x10, s.srcBase), (0x14, s.srcLen), (0x18, s.dstBase), (0x1C, s.dstCap), (0x20, s.dstLen), (0x24, s.errInfo),
    (0x28, s.huffInfo), (0x2C, 3#32)]

/-- Each row's offset is one of a defined access, and reading it gives the row's value. -/
theorem csrMap_rows (s : State) :
    ∀ row ∈ csrMap s, row.1 % 4 = 0 ∧ row.1 ≤ 0xFC ∧ csrValue (csrAt row.1) s = row.2 := by
  simp [csrMap, csrAt, csrValue, ctrlWord_eq, Config.idValue, Config.capsValue]

/-- Settles O6: a defined read answers the register at its offset, any other access sets the mark. -/
theorem csrAccessesDefinedOrRefused : Obligations.CsrAccessesDefinedOrRefused := by
  intro s rest hr
  refine ⟨fun off v hrow ha => ?_, fun off hal hlow hle ha => ?_, fun addr bytes v ha hbad => ?_⟩
  · obtain ⟨hal, hle, hvalue⟩ := csrMap_rows s (off, v) hrow
    rw [step_csrRead hr ha hal hle, hvalue]
  · rw [step_csrRead hr ha hal hle, csrAt_reserved hlow]
    rfl
  · exact step_badAccess hr ha (csrTarget_none_iff.mpr hbad)

/-- A flag shifted to bit `k` is that bit and no other. -/
theorem testBit_toNat_shiftLeft (b : Bool) (k i : Nat) : (b.toNat <<< k).testBit i = (decide (i = k) && b) := by
  cases b with
  | false => simp
  | true => simp [Nat.one_shiftLeft, Nat.testBit_two_pow, eq_comm]

/-- R33: the bit of STATUS at every index. -/
theorem getLsbD_statusWord (s : State) {i : Nat} (hi : i < 32) :
    (statusWord s).getLsbD i =
      (decide (i = 0) && s.busy || decide (i = 1) && s.done || decide (i = 2) && s.err || decide (i = 3) && s.noop ||
        decide (i = 4) && s.overrun || decide (8 ≤ i) && s.errcode.getLsbD (i - 8) ||
        decide (16 ≤ i) && s.detail.getLsbD (i - 16)) := by
  have hbusy : s.busy.toNat.testBit i = (decide (i = 0) && s.busy) := testBit_toNat_shiftLeft s.busy 0 i
  simp only [statusWord, BitVec.getLsbD_ofNat, hi, decide_true, Bool.true_and, Nat.testBit_or, hbusy,
    testBit_toNat_shiftLeft]
  simp only [Nat.testBit_shiftLeft, BitVec.testBit_toNat, ge_iff_le]

/-- Above the flags only ERRCODE and DETAIL stand. -/
theorem getLsbD_statusWord_high (s : State) {i : Nat} (hlow : 5 ≤ i) (hi : i < 32) :
    (statusWord s).getLsbD i =
      (decide (8 ≤ i) && s.errcode.getLsbD (i - 8) || decide (16 ≤ i) && s.detail.getLsbD (i - 16)) := by
  have hflags : i ≠ 0 ∧ i ≠ 1 ∧ i ≠ 2 ∧ i ≠ 3 ∧ i ≠ 4 := by omega
  simp [getLsbD_statusWord s hi, hflags]

/-- A field of STATUS above the flags, bit by bit. -/
theorem extract_statusWord {s : State} {lo n : Nat} {field : BitVec n}
    (h : ∀ j, j < n → (decide (8 ≤ lo + j) && s.errcode.getLsbD (lo + j - 8) ||
      decide (16 ≤ lo + j) && s.detail.getLsbD (lo + j - 16)) = field.getLsbD j)
    (hlow : 5 ≤ lo := by decide) (hhigh : lo + n ≤ 32 := by decide) : (statusWord s).extractLsb' lo n = field :=
  BitVec.eq_of_getLsbD_eq fun j hj => by
    rw [BitVec.getLsbD_extractLsb', decide_eq_true hj, Bool.true_and,
      getLsbD_statusWord_high s (by omega) (by omega), h j hj]

/-- Settles O8: each flag is its bit; of the fields above the flags, at most one stands at each bit. -/
theorem statusReadsFieldByField : Obligations.StatusReadsFieldByField := by
  intro s
  simp only [csrValue]
  refine ⟨?_, ?_, ?_, ?_, ?_, extract_statusWord fun j hj => ?_, extract_statusWord fun j hj => ?_,
    extract_statusWord fun j hj => ?_, extract_statusWord fun j hj => ?_, extract_statusWord fun j hj => ?_⟩
  iterate 5 · rw [getLsbD_statusWord s (by omega)]; simp
  · simp [show ¬ 16 ≤ 8 + j by omega]
  · simp [BitVec.getLsbD_of_ge s.errcode (16 + j - 8) (by omega)]
  · simp [show ¬ 8 ≤ 5 + j by omega, show ¬ 16 ≤ 5 + j by omega]
  · simp [BitVec.getLsbD_of_ge s.errcode (12 + j - 8) (by omega), show ¬ 16 ≤ 12 + j by omega]
  · simp [BitVec.getLsbD_of_ge s.errcode (20 + j - 8) (by omega),
      BitVec.getLsbD_of_ge s.detail (20 + j - 16) (by omega)]

/-! ### OVERRUN and the latch (O14, O16) -/

/-- R38: a store to another register than CMD and STATUS leaves OVERRUN; these set it while busy and clear it by bit 4. -/
theorem csrStore_overrun (c : Csr) (v : Word) (s : State) :
    (csrStore c v s).overrun = s.overrun ∨
      (c = .cmd ∧ s.busy = true ∧ (csrStore c v s).overrun = true) ∨
      (c = .status ∧ v.getLsbD 4 = true ∧ (csrStore c v s).overrun = false) := by
  cases c with
  | cmd =>
    obtain ⟨hb, heq⟩ | ⟨-, heq⟩ := csrStore_cmd_cases v s <;> rw [heq]
    · exact .inr (.inl ⟨rfl, hb, rfl⟩)
    · exact .inl rfl
  | status =>
    rw [csrStore, ackStatus_overrun]
    cases hv : v.getLsbD 4 with
    | false => exact .inl (Bool.and_true _)
    | true => exact .inr (.inr ⟨rfl, rfl, Bool.and_false _⟩)
  | _ => exact .inl rfl

theorem csrStore_lat (c : Csr) (v : Word) (s : State) :
    (csrStore c v s).lat = s.lat ∨
      (c = .cmd ∧ s.busy = false ∧ (csrStore c v s).lat = ⟨v, s.srcBase, s.srcLen, s.dstBase, s.dstCap⟩) := by
  cases c with
  | cmd =>
    obtain ⟨-, heq⟩ | ⟨hb, heq⟩ := csrStore_cmd_cases v s <;> rw [heq]
    · exact .inl rfl
    · exact .inr ⟨rfl, hb, rfl⟩
  | _ => exact .inl rfl

/-- The only steps that change OVERRUN (R38). -/
theorem step_overrun {s t : State} (h : step s = .next t) :
    t.overrun = s.overrun ∨
      (t.overrun = true ∧ s.busy = true ∧ ∃ v rest, s.agenda = .csrWrite (csrBase s.platform + 0x0C) 4 v :: rest) ∨
      (t.overrun = false ∧
        ((∃ v rest, s.agenda = .csrWrite (csrBase s.platform + 0x08) 4 v :: rest ∧ v.getLsbD 4 = true) ∨
          ∃ rest, s.agenda = .reset :: rest)) := by
  cases step_registerCase h with
  | kept r m d n hm => exact .inl rfl
  | completion turn hb o fits => exact .inl (complete_overrun o _)
  | reset rest ha r => exact .inr (.inr ⟨rfl, .inr ⟨rest, ha⟩⟩)
  | store addr bytes v rest c ha hc =>
    obtain heq | ⟨rfl, hb, heq⟩ | ⟨rfl, hv, heq⟩ := csrStore_overrun c v (popped s)
    · exact .inl heq
    · obtain ⟨rfl, rfl⟩ := csrTarget_offset csrAt_cmd hc
      exact .inr (.inl ⟨heq, hb, v, rest, ha⟩)
    · obtain ⟨rfl, rfl⟩ := csrTarget_offset csrAt_status hc
      exact .inr (.inr ⟨heq, .inl ⟨v, rest, ha, hv⟩⟩)

/-- A CMD write while busy leaves OVERRUN set. -/
theorem overrun_of_cmdWrite {s t : State} {v : Word} {rest : List Event} (h : step s = .next t) (hb : s.busy = true)
    (ha : s.agenda = .csrWrite (csrBase s.platform + 0x0C) 4 v :: rest) : t.overrun = true := by
  obtain ⟨hr, -⟩ := step_cases h
  cases (step_csrWrite hr ha (by decide) (by decide)).symm.trans h
  obtain ⟨-, heq⟩ | ⟨hidle, -⟩ := csrStore_cmd_cases v { s with agenda := rest }
  · exact congrArg State.overrun heq
  · exact absurd (hb.symm.trans hidle) (by decide)

theorem overrun_of_statusWrite {s t : State} {v : Word} {rest : List Event} (h : step s = .next t)
    (hv : v.getLsbD 4 = true) (ha : s.agenda = .csrWrite (csrBase s.platform + 0x08) 4 v :: rest) :
    t.overrun = false := by
  obtain ⟨hr, -⟩ := step_cases h
  cases (step_csrWrite hr ha (by decide) (by decide)).symm.trans h
  show w1c s.overrun (v.getLsbD 4) = false
  rw [hv]
  exact Bool.and_false _

theorem overrun_of_reset {s t : State} {rest : List Event} (h : step s = .next t) (ha : s.agenda = .reset :: rest) :
    t.overrun = false := by
  obtain ⟨hr, -⟩ := step_cases h
  cases (step_event hr ha).symm.trans h
  obtain ⟨-, heq⟩ | ⟨-, heq⟩ := resetStep_cases { s with agenda := rest } <;> rw [heq] <;> rfl

/-- Settles O14: a step that changes OVERRUN is one of R38's, and each of R38's steps gives it its value. -/
theorem overrunIsSticky : Obligations.OverrunIsSticky := by
  intro s t h
  have hcases := step_overrun h
  refine ⟨fun hs => ⟨fun ht => ?_, fun ⟨hb, v, rest, ha⟩ => overrun_of_cmdWrite h hb ha⟩,
    fun hs => ⟨fun ht => ?_, ?_⟩⟩
  · simpa [hs, ht] using hcases
  · simpa [hs, ht] using hcases
  · rintro (⟨v, rest, ha, hv⟩ | ⟨rest, ha⟩)
    · exact overrun_of_statusWrite h hv ha
    · exact overrun_of_reset h ha

/-- Settles O16: a completion keeps the latch, so only a store to CMD and a reset remain. -/
theorem latchChangesOnlyAtIssueOrReset : Obligations.LatchChangesOnlyAtIssueOrReset := by
  intro s t h
  cases step_registerCase h with
  | kept r m d n hm => exact .inl rfl
  | completion turn hb o fits => exact .inl (complete_lat o _)
  | reset rest ha r => exact .inr (.inr ⟨rest, ha, rfl⟩)
  | store addr bytes v rest c ha hc =>
    obtain heq | ⟨rfl, hb, heq⟩ := csrStore_lat c v (popped s)
    · exact .inl heq
    · obtain ⟨rfl, rfl⟩ := csrTarget_offset csrAt_cmd hc
      exact .inr (.inl ⟨hb, v, rest, ha, heq⟩)

/-! ### The effect of a write to one register (O7, O9, O10, O11) -/

/-- R29: the registers whose writes are ignored. -/
theorem csrStore_readOnly {c : Csr} (hc : c ∈ [Csr.id, .dstLen, .errInfo, .huffInfo, .caps, .reserved]) (v : Word)
    (s : State) : csrStore c v s = s := by
  fin_cases hc <;> rfl

theorem csrAt_readOnly {off : Nat} (h : off ∈ [0x00, 0x20, 0x24, 0x28, 0x2C] ∨ (off % 4 = 0 ∧ 0x30 ≤ off ∧ off ≤ 0xFC)) :
    off % 4 = 0 ∧ off ≤ 0xFC ∧ csrAt off ∈ [Csr.id, .dstLen, .errInfo, .huffInfo, .caps, .reserved] := by
  obtain h | ⟨hal, hlow, hle⟩ := h
  · fin_cases h <;> decide
  · rw [csrAt_reserved hlow]
    exact ⟨hal, hle, by decide⟩

/-- R32: CTRL reads back bit 0 of the value written. -/
theorem ctrlWord_csrStore_ctrl (v : Word) (s : State) : ctrlWord (csrStore .ctrl v s) = v &&& 1#32 := by
  rw [ctrlWord_eq, BitVec.and_one_eq_setWidth_ofBool_getLsbD]
  show (if v.getLsbD 0 then 1 else 0) = _
  cases v.getLsbD 0 <;> rfl

/-- Settles O7: a write to a read-only register or a reserved offset stores nothing. -/
theorem readOnlyRegistersIgnoreWrites : Obligations.ReadOnlyRegistersIgnoreWrites := by
  refine fun v s => ⟨fun c hc => csrStore_readOnly hc v s, rfl, rfl, rfl, rfl, rfl, rfl, ctrlWord_csrStore_ctrl v s,
    fun off rest hr hoff ha => ?_⟩
  obtain ⟨hal, hle, hc⟩ := csrAt_readOnly hoff
  rw [step_csrWrite hr ha hal hle, csrStore_readOnly hc]

theorem w1c_eq_ite (flag b : Bool) : w1c flag b = if b then false else flag := by cases b <;> simp [w1c]

/-- Settles O9: STATUS stores by the acknowledgement. -/
theorem statusWriteClearsFlags : Obligations.StatusWriteClearsFlags := by
  intro s v rest hr ha
  simp only [← w1c_eq_ite]
  exact step_csrWrite hr ha (by decide) (by decide)

/-- Settles O10: the store to CTRL. -/
theorem controlWriteSetsIrqEnable : Obligations.ControlWriteSetsIrqEnable :=
  fun _ _ _ hr ha => step_csrWrite hr ha (by decide) (by decide)

/-- Settles O11: the stores to the four operand registers, none of which touches the latch. -/
theorem operandWritesStoreAllBits : Obligations.OperandWritesStoreAllBits :=
  fun _ _ _ hr => ⟨fun ha => step_csrWrite hr ha (by decide) (by decide),
    fun ha => step_csrWrite hr ha (by decide) (by decide), fun ha => step_csrWrite hr ha (by decide) (by decide),
    fun ha => step_csrWrite hr ha (by decide) (by decide)⟩

/-! ### A placed command (O20) -/

theorem tableWord_toNat (w : Word) : tableWord 32 w.toNat = some w := by
  simp [tableWord, Nat.mod_eq_of_lt w.isLt, w.isLt]

/-- R82 to R85: the word of a well-formed command decodes to it. -/
theorem decodeWord_encode {i : Instr} (h : i.wellFormed = true) : decodeWord (encode i) = .ok i := by
  have key : ∀ f : Nat → Instr, (∀ k : Fin 32, decodeWord (encode (f k)) = .ok (f k)) →
      ∀ ob, obFits ob = true → decodeWord (encode (f ob)) = .ok (f ob) :=
    fun f => Laws.MatchMask.forall_ob (P := fun ob => decodeWord (encode (f ob)) = .ok (f ob))
  cases i with
  | huffEnc ob => exact key .huffEnc (by decide) ob h
  | huffDec ob => exact key .huffDec (by decide) ob h
  | lz77Enc ob => exact key .lz77Enc (by decide) ob h
  | lz77Dec ob => exact key .lz77Dec (by decide) ob h

/-- Settles O20: a placed word is issued with an empty agenda, so the engine is next and decodes it. -/
theorem placedCommandRunsNext : Obligations.PlacedCommandRunsNext := by
  intro s i hi
  have hplaced : s.withFetchWord 32 (encode i).toNat = placeCommand (encode i) s := by
    simp only [State.withFetchWord, tableWord_toNat]
  calc step (s.withFetchWord 32 (encode i).toNat)
    _ = engineStep (placeCommand (encode i) s) := by
      rw [hplaced, step_engineTurn (placeCommand_refusal _ _) (.inl (placeCommand_agenda _ _))]
      rfl
    _ = exec i (placeCommand (encode i) s) := engineStep_decoded (placeCommand_busy _ _) (decodeWord_encode hi)

end Sys2Proof.Proofs

/-! Proofs for 20_memory.md: what one host memory access answers (R77), and which byte a step can change (R70). -/

namespace Sys2Proof.Proofs
open Sys2Proof.Machine

/-! ### A host memory access (O17) -/

theorem regionOwned_iff {a : Nat} {s : State} :
    regionOwned a s = true ↔ s.busy = true ∧ (inSrc s.lat a = true ∨ inDst s.lat a = true) := by
  simp only [regionOwned, Bool.and_eq_true, Bool.or_eq_true]

theorem regionOwned_eq_false_iff {a : Nat} {s : State} :
    regionOwned a s = false ↔ s.busy = false ∨ (inSrc s.lat a = false ∧ inDst s.lat a = false) := by
  simp only [regionOwned, Bool.and_eq_false_iff, Bool.or_eq_false_iff]

/-- The platform backs a host access to normal memory where MemOk holds. -/
theorem hostMemFault_none {k : AccessKind} {a : Nat} {s : State} (hnormal : onDevice s.platform a = false)
    (hok : memOk s.platform k a = true) : hostMemFault k a s = none := by
  simp only [hostMemFault, hnormal, hok, Bool.false_eq_true, if_false, if_true]

/-- R77: a read while idle, of a SRC byte or of a byte outside the DST region returns what memory holds. -/
theorem hostMemRead_held {a : Nat} {s : State}
    (h : s.busy = false ∨ inSrc s.lat a = true ∨ inDst s.lat a = false) :
    hostMemRead a s = { s with readData := (memByte s.mem a).zeroExtend 32 } := by
  refine if_neg ?_
  obtain h | h | h := h <;> simp [h]

/-- R77: a read of a DST byte beside a running command returns a free draw. -/
theorem hostMemRead_free {a : Nat} {s : State} (hb : s.busy = true) (hsrc : inSrc s.lat a = false)
    (hdst : inDst s.lat a = true) :
    hostMemRead a s = { s with readData := (Config.freeByte s.draws).zeroExtend 32, draws := s.draws + 1 } :=
  if_pos (by simp [hb, hsrc, hdst])

section HostMemory
variable {s : State} {a : Word} {rest : List Event}

/-- R77: a write to a byte of a running command's regions sets the mark. -/
theorem step_memWrite_owned {b : Byte} (hr : s.refusal = none) (ha : s.agenda = .memWrite a b :: rest)
    (ho : regionOwned a.toNat s = true) :
    step s = .next { s with agenda := rest, refusal := some (.hostWriteWhileBusy a.toNat) } := by
  rw [step_event hr ha]
  exact if_pos ho

/-- R77: any other write that the platform backs stores its byte. -/
theorem step_memWrite_stored {b : Byte} (hr : s.refusal = none) (ha : s.agenda = .memWrite a b :: rest)
    (hnormal : onDevice s.platform a.toNat = false) (hok : memOk s.platform .write a.toNat = true)
    (ho : regionOwned a.toNat s = false) :
    step s = .next { s with agenda := rest, mem := memWriteBytes s.mem a.toNat [b] } := by
  have ho' : ¬ regionOwned a.toNat { s with agenda := rest } = true := Bool.eq_false_iff.mp ho
  have hbacked : hostMemFault .write a.toNat { s with agenda := rest } = none := hostMemFault_none hnormal hok
  simp only [step_event hr ha, eventStep, if_neg ho', hbacked, hostMemWrite]

theorem step_memRead (hr : s.refusal = none) (ha : s.agenda = .memRead a :: rest)
    (hnormal : onDevice s.platform a.toNat = false) (hok : memOk s.platform .read a.toNat = true) :
    step s = .next (hostMemRead a.toNat { s with agenda := rest }) := by
  have hbacked : hostMemFault .read a.toNat { s with agenda := rest } = none := hostMemFault_none hnormal hok
  simp only [step_event hr ha, eventStep, hbacked]

end HostMemory

/-- Settles O17: by what the step answers for a write to an owned byte, another write, and a read. -/
theorem hostMemoryAccesses : Obligations.HostMemoryAccesses := by
  intro s a rest hr hnormal
  refine ⟨fun b ha hb hregion => ?_, fun b ha hok hfree => ?_, fun ha hok => ⟨fun hheld => ?_, fun hb hsrc hdst => ?_⟩⟩
  · exact step_memWrite_owned hr ha (regionOwned_iff.mpr ⟨hb, hregion⟩)
  · exact step_memWrite_stored hr ha hnormal hok (regionOwned_eq_false_iff.mpr hfree)
  · exact (step_memRead hr ha hnormal hok).trans (congrArg _ (hostMemRead_held hheld))
  · exact (step_memRead hr ha hnormal hok).trans (congrArg _ (hostMemRead_free hb hsrc hdst))

/-! ### The bytes a step can change (O37) -/

@[simp] theorem hostMemRead_mem (a : Nat) (s : State) : (hostMemRead a s).mem = s.mem := by
  unfold hostMemRead
  split <;> rfl

/-- R77: a host write changes no byte but its own, which then holds the written value. -/
theorem memByte_hostMemWrite (x : Nat) (b : Byte) (s : State) (a : Nat) :
    memByte (hostMemWrite x b s).mem a = if a = x then b else memByte s.mem a := by
  split
  · rename_i heq
    exact heq ▸ memByte_writeBytes_inside s.mem x [b] 0 Nat.one_pos
  · rename_i hne
    refine memByte_writeBytes_outside s.mem x [b] a ?_
    rw [List.length_singleton]
    omega

/-- R70, R114: a completion changes bytes of the DST region only. -/
theorem inDst_of_completion_change {o : CmdOutcome} {s : State} {a : Nat}
    (fits : ∀ out hi, o = .ok out hi → out.length ≤ s.lat.dstCap.toNat)
    (hne : memByte (complete o s).mem a ≠ memByte s.mem a) : inDst s.lat a = true := by
  by_contra hout
  exact hne (completionMem_outside fits (Bool.eq_false_iff.mpr hout))

/-- R217: a reset changes bytes of the abandoned command's DST region only. -/
theorem inDst_of_reset_change {s : State} {a : Nat} (hne : memByte (resetBlock s).mem a ≠ memByte s.mem a) :
    s.busy = true ∧ inDst s.lat a = true := by
  rw [resetBlock_mem] at hne
  split at hne
  · rename_i hb
    refine ⟨hb, ?_⟩
    by_contra hout
    exact hne (memByte_freeDst_outside _ _ _ _ (Bool.eq_false_iff.mpr hout))
  · exact absurd rfl hne

/-- Settles O37: of the cases of a step, only a completion, a reset and a host write touch memory. -/
theorem onlyDstBytesOrTheHostsByteChange : Obligations.OnlyDstBytesOrTheHostsByteChange := by
  intro s t a h hne
  obtain ⟨-, hcase⟩ := step_stepCase h
  cases hcase with
  | completion turn hb o fits =>
    have hdst := inDst_of_completion_change (s := popped s) (fun out hi ho => (fits out hi ho).1) hne
    exact .inl ⟨hb, hdst, .inl turn⟩
  | reset rest ha _ | resetOnDevice rest ha _ =>
    obtain ⟨hb, hdst⟩ := inDst_of_reset_change (s := popped s) hne
    exact .inl ⟨hb, hdst, .inr ⟨rest, ha⟩⟩
  | memWrite w b rest ha _ =>
    rw [memByte_hostMemWrite] at hne ⊢
    have heq : a = w.toNat := by
      by_contra hother
      exact hne (if_neg hother)
    exact .inr ⟨w, b, rest, ha, heq, if_pos heq⟩
  | idle | device | badAccess | memRefused | csrRead => exact absurd rfl hne
  | csrWrite addr bytes v rest c => exact absurd (by rw [csrStore_mem]) hne
  | memRead x => exact absurd (by rw [hostMemRead_mem]) hne

end Sys2Proof.Proofs

/-! Proofs for 30_encoding.md: the command word (R82 to R89), the field of a tree and the padding of a stream (R91, R93),
and the triples (R96, R97). -/

namespace Sys2Proof.Proofs
open Sys2Proof.Machine

/-! ### The fields of a command word (R82, R83) -/

theorem wordOp_eq (w : Word) : wordOp w = w.toNat % 16 := by simp [wordOp]

theorem wordOb_eq (w : Word) : wordOb w = w.toNat / 256 % 32 := by simp [wordOb, Nat.shiftRight_eq_div_pow]

/-- A word without reserved bits is its OB and its OP. -/
theorem toNat_of_no_reserved {w : Word} (h : wordRsv w = false) : w.toNat = 256 * wordOb w + wordOp w := by
  have hlt := w.isLt
  simp only [wordRsv, Bool.or_eq_false_iff, bne_eq_false_iff_eq, ← BitVec.toNat_inj, BitVec.extractLsb'_toNat,
    Nat.shiftRight_eq_div_pow, BitVec.ofNat_eq_ofNat, BitVec.toNat_ofNat] at h
  obtain ⟨hhigh, hmid⟩ := h
  rw [wordOp_eq, wordOb_eq]
  omega

/-- Words without reserved bits that agree in OP and OB are equal. -/
theorem word_eq_of_fields {v w : Word} (hv : wordRsv v = false) (hw : wordRsv w = false) (hop : wordOp v = wordOp w)
    (hob : wordOb v = wordOb w) : v = w :=
  BitVec.eq_of_toNat_eq (by rw [toNat_of_no_reserved hv, toNat_of_no_reserved hw, hop, hob])

/-! ### The decoder (R84, R85) -/

theorem decodeWord_ok_iff {w : Word} {i : Instr} :
    decodeWord w = .ok i ↔ wordRsv w = false ∧ wordOp w = opcodeOf i ∧ i.ob = wordOb w := by
  unfold decodeWord
  constructor
  · intro h
    split_ifs at h with hrsv h1 h2 h3 h4
    all_goals cases h
    all_goals refine ⟨Bool.eq_false_iff.mpr hrsv, ?_, rfl⟩
    exacts [h1, h2, h3, h4]
  · rintro ⟨hrsv, hop, hob⟩
    cases i <;> simp_all [opcodeOf, Instr.ob]

/-- Every 32-bit word decodes to a command or is refused, never both. -/
theorem decodeWord_error_iff {w : Word} : (∃ e, decodeWord w = .error e) ↔ ∀ i, decodeWord w ≠ .ok i := by
  cases decodeWord w <;> simp

/-- No two words decode to the same command. -/
theorem decodeWord_inj {v w : Word} {i : Instr} (hv : decodeWord v = .ok i) (hw : decodeWord w = .ok i) : v = w := by
  obtain ⟨hvrsv, hvop, hvob⟩ := decodeWord_ok_iff.mp hv
  obtain ⟨hwrsv, hwop, hwob⟩ := decodeWord_ok_iff.mp hw
  exact word_eq_of_fields hvrsv hwrsv (hvop.trans hwop.symm) (hvob.symm.trans hwob)

theorem wellFormed_of_decodeWord {w : Word} {i : Instr} (h : decodeWord w = .ok i) : i.wellFormed = true := by
  obtain ⟨-, -, hob⟩ := decodeWord_ok_iff.mp h
  exact decide_eq_true (hob ▸ (w.extractLsb' 8 5).isLt)

/-- Settles O1: the encoded word of a command decodes to it, and no other word does. -/
theorem decodeAndEncodeAgree : Obligations.DecodeAndEncodeAgree := by
  refine ⟨fun i hi => ⟨decodeWord_encode hi, ?_⟩, fun w i hw => ?_⟩
  · rw [decodeTableWord, tableWord_toNat, Option.bind_some, decodeWord_encode hi]
    rfl
  · have hi := wellFormed_of_decodeWord hw
    exact ⟨hi, decodeWord_inj (decodeWord_encode hi) hw⟩

/-! ### Mask and match (R88) -/

/-- The mask of R88 keeps OP, clears OB and keeps the reserved bits. -/
theorem fields_masked (w : Word) :
    wordOp (w &&& 0xFFFFE0FF#32) = wordOp w ∧ wordOb (w &&& 0xFFFFE0FF#32) = 0 ∧
      wordRsv (w &&& 0xFFFFE0FF#32) = wordRsv w := by
  have hop : (0xFFFFE0FF#32).extractLsb' 0 4 = BitVec.allOnes 4 := by decide
  have hob : (0xFFFFE0FF#32).extractLsb' 8 5 = 0#5 := by decide
  have hhigh : (0xFFFFE0FF#32).extractLsb' 13 19 = BitVec.allOnes 19 := by decide
  have hmid : (0xFFFFE0FF#32).extractLsb' 4 4 = BitVec.allOnes 4 := by decide
  simp only [wordOp, wordOb, wordRsv, BitVec.extractLsb'_and, hop, hob, hhigh, hmid, BitVec.and_allOnes, BitVec.and_zero,
    BitVec.toNat_ofNat, Nat.zero_mod, and_self]

theorem fields_matchValue (i : Instr) :
    wordOp (Laws.MatchMask.matchValue i) = opcodeOf i ∧ wordOb (Laws.MatchMask.matchValue i) = 0 ∧
      wordRsv (Laws.MatchMask.matchValue i) = false := by
  cases i <;> simp only [Laws.MatchMask.matchValue, opcodeOf] <;> decide

/-- R88: under the mask a word meets the match of a row exactly when it has no reserved bits and the row's OP. -/
theorem masked_eq_matchValue_iff {w : Word} {i : Instr} :
    w &&& 0xFFFFE0FF#32 = Laws.MatchMask.matchValue i ↔ wordRsv w = false ∧ wordOp w = opcodeOf i := by
  obtain ⟨hop, hob, hrsv⟩ := fields_masked w
  obtain ⟨mop, mob, mrsv⟩ := fields_matchValue i
  constructor
  · intro h
    rw [h] at hop hrsv
    exact ⟨hrsv.symm.trans mrsv, hop.symm.trans mop⟩
  · rintro ⟨wrsv, wop⟩
    exact word_eq_of_fields (hrsv.trans wrsv) mrsv ((hop.trans wop).trans mop.symm) (hob.trans mob.symm)

theorem decodeWord_ok_iff_match {w : Word} {i : Instr} :
    decodeWord w = .ok i ↔ w &&& 0xFFFFE0FF#32 = Laws.MatchMask.matchValue i ∧ i.ob = w.toNat / 256 % 32 := by
  rw [decodeWord_ok_iff, masked_eq_matchValue_iff, ← wordOb_eq, and_assoc]

/-- A word is refused exactly when it meets the match of no command. -/
theorem decodeWord_error_iff_noMatch {w : Word} :
    (∃ e, decodeWord w = .error e) ↔
      ∀ m ∈ [0x00000001#32, 0x00000002#32, 0x00000003#32, 0x00000004#32], w &&& 0xFFFFE0FF#32 ≠ m := by
  rw [decodeWord_error_iff]
  constructor
  · intro h
    have hrow : ∀ f : Nat → Instr, (f (wordOb w)).ob = wordOb w →
        w &&& 0xFFFFE0FF#32 ≠ Laws.MatchMask.matchValue (f (wordOb w)) :=
      fun f hob hm => h _ (decodeWord_ok_iff_match.mpr ⟨hm, hob.trans (wordOb_eq w)⟩)
    simp only [List.forall_mem_cons, List.not_mem_nil, false_implies, implies_true, and_true]
    exact ⟨hrow .huffEnc rfl, hrow .huffDec rfl, hrow .lz77Enc rfl, hrow .lz77Dec rfl⟩
  · intro h i hi
    obtain ⟨hm, -⟩ := decodeWord_ok_iff_match.mp hi
    exact h _ (by cases i <;> simp [Laws.MatchMask.matchValue]) hm

/-- Settles O2: each row's clause is the match of its command, and a refused word is one that no command matches. -/
theorem decoderFollowsMatchAndMask : Obligations.DecoderFollowsMatchAndMask := fun _ =>
  ⟨fun _ => decodeWord_ok_iff_match, fun _ => decodeWord_ok_iff_match, fun _ => decodeWord_ok_iff_match,
    fun _ => decodeWord_ok_iff_match, decodeWord_error_iff_noMatch⟩

/-- Settles O3: each word of the table is evaluated by the decoder. -/
theorem writtenWordsDecode : Obligations.WrittenWordsDecode := by
  unfold Obligations.WrittenWordsDecode
  decide

/-! ### The field of a tree (R93) -/

/-- Settles O45: a tree has one leaf more than internal nodes, and its field has 10n - 1 bits. -/
theorem serializedTreeLength : Obligations.SerializedTreeLength := by
  intro t
  have hcount := leafCount_eq_internalCount t
  have hlength := length_serialize t
  refine ⟨?_, ?_, hlength, fun hpos hle => ⟨?_, ?_⟩⟩ <;> omega

/-! ### The padding of a stream (R90, R91) -/

theorem add_padSize_mod (n : Nat) : (n + padSize n) % 8 = 0 := by unfold padSize; omega

/-- The padding size is the least count that makes whole bytes. -/
theorem add_mod_ne_zero_of_lt_padSize {n q : Nat} (h : q < padSize n) : (n + q) % 8 ≠ 0 := by unfold padSize at h; omega

theorem valMSB_bitsMSB_padSize (n : Nat) : valMSB (bitsMSB (padSize n) 3) = padSize n := by
  have hle := padSize_le n
  rw [valMSB_bitsMSB]
  omega

/-- R90: unpacked, the written bytes are the four parts of the stream. -/
theorem unpack_writeStream (treeBits payload : Bits) :
    unpack (writeStream treeBits payload).1 =
      bitsMSB (writeStream treeBits payload).2 3 ++ treeBits ++ payload ++
        List.replicate (writeStream treeBits payload).2 false := by
  refine unpack_pack ?_
  simp only [List.length_append, length_bitsMSB, List.length_replicate]
  exact add_padSize_mod _

theorem length_writeStream (treeBits payload : Bits) :
    8 * (writeStream treeBits payload).1.length =
      3 + treeBits.length + payload.length + (writeStream treeBits payload).2 := by
  rw [← length_unpack, unpack_writeStream]
  simp only [List.length_append, length_bitsMSB, List.length_replicate]

/-- Settles O47: the padding's arithmetic, and the four parts that unpacking the stream gives back. -/
theorem streamIsPaddedToWholeBytes : Obligations.StreamIsPaddedToWholeBytes := by
  intro treeBits payload p out
  have hunpack : unpack out = bitsMSB p 3 ++ treeBits ++ payload ++ List.replicate p false := unpack_writeStream _ _
  refine ⟨writeStream_pad_le _ _, add_padSize_mod _, fun _ hq => add_mod_ne_zero_of_lt_padSize hq, rfl,
    length_writeStream _ _, hunpack, ?_⟩
  have hfield : (unpack out).take 3 = bitsMSB p 3 := by
    rw [hunpack, List.append_assoc, List.append_assoc, List.take_left' (length_bitsMSB p 3)]
  rw [hfield]
  exact valMSB_bitsMSB_padSize _

/-! ### The triples (R96, R97) -/

theorem tripleWord_eq (b0 b1 : Byte) : tripleWord b0 b1 = 256 * b0.toNat + b1.toNat := by
  rw [tripleWord, ← Nat.shiftLeft_add_eq_or_of_lt b1.isLt, Nat.shiftLeft_eq, Nat.mul_comm]

theorem tripleWord_lt (b0 b1 : Byte) : tripleWord b0 b1 < 2 ^ 16 := by
  have h0 := b0.isLt
  have h1 := b1.isLt
  rw [tripleWord_eq]
  omega

theorem tripleOffset_eq (ob : Nat) (b0 b1 : Byte) : tripleOffset ob b0 b1 = tripleWord b0 b1 / 2 ^ (16 - ob) :=
  Nat.shiftRight_eq_div_pow _ _

theorem tripleLength_eq (ob : Nat) (b0 b1 : Byte) : tripleLength ob b0 b1 = tripleWord b0 b1 % 2 ^ (16 - ob) :=
  Nat.and_two_pow_sub_one_eq_mod _ _

/-- The high and the low byte of a 16-bit word spell it. -/
theorem tripleWord_bytes {W : Nat} (h : W < 2 ^ 16) :
    tripleWord (BitVec.ofNat 8 (W / 256)) (BitVec.ofNat 8 (W % 256)) = W := by
  rw [tripleWord_eq, BitVec.toNat_ofNat, BitVec.toNat_ofNat]
  omega

/-- R96: a triple whose length fits packs to the two bytes of offset x 2^(16 - ob) + length, and its literal. -/
theorem packTriple_eq {ob offset length : Nat} (literal : Byte) (h : length < 2 ^ (16 - ob)) :
    packTriple ob offset length literal =
      [BitVec.ofNat 8 ((offset * 2 ^ (16 - ob) + length) / 256), BitVec.ofNat 8 ((offset * 2 ^ (16 - ob) + length) % 256),
        literal] := by
  have hlow : ∀ W, W &&& 0xFF = W % 256 := fun W => Nat.and_two_pow_sub_one_eq_mod W 8
  rw [packTriple, ← Nat.shiftLeft_add_eq_or_of_lt h, Nat.shiftLeft_eq, hlow, Nat.shiftRight_eq_div_pow]

section Triple
variable {ob : Nat} (hob : ob ≤ 15)
include hob

/-- The 16 bits of a triple's word are those of its offset and those of its length (R96). -/
theorem two_pow_ob_mul : 2 ^ ob * 2 ^ (16 - ob) = 2 ^ 16 := by rw [← Nat.pow_add]; congr 1; omega

theorem tripleOffset_lt (b0 b1 : Byte) : tripleOffset ob b0 b1 < 2 ^ ob := by
  rw [tripleOffset_eq, Nat.div_lt_iff_lt_mul (by positivity), two_pow_ob_mul hob]
  exact tripleWord_lt b0 b1

/-- R96, then R97: what is packed within its bounds is unpacked. -/
theorem unpack_packTriple {offset length : Nat} (literal : Byte) (ho : offset < 2 ^ ob) (hl : length < 2 ^ (16 - ob)) :
    ∃ b0 b1, packTriple ob offset length literal = [b0, b1, literal] ∧ tripleOffset ob b0 b1 = offset ∧
      tripleLength ob b0 b1 = length ∧ 256 * b0.toNat + b1.toNat = offset * 2 ^ (16 - ob) + length := by
  have hfits : offset * 2 ^ (16 - ob) + length < 2 ^ 16 :=
    calc offset * 2 ^ (16 - ob) + length < (offset + 1) * 2 ^ (16 - ob) := by rw [Nat.succ_mul]; omega
      _ ≤ 2 ^ ob * 2 ^ (16 - ob) := Nat.mul_le_mul_right _ ho
      _ = 2 ^ 16 := two_pow_ob_mul hob
  have hword := tripleWord_bytes hfits
  refine ⟨_, _, packTriple_eq literal hl, ?_, ?_, by rw [← tripleWord_eq, hword]⟩
  · rw [tripleOffset_eq, hword, Nat.mul_comm, Nat.mul_add_div (by positivity), Nat.div_eq_of_lt hl, Nat.add_zero]
  · rw [tripleLength_eq, hword, Nat.mul_add_mod', Nat.mod_eq_of_lt hl]

end Triple

theorem tripleLength_lt (ob : Nat) (b0 b1 : Byte) : tripleLength ob b0 b1 < 2 ^ (16 - ob) := by
  rw [tripleLength_eq]
  exact Nat.mod_lt _ (by positivity)

/-- R97, then R96: any two bytes are packed again from what they unpack to. -/
theorem packTriple_unpacked (ob : Nat) (b0 b1 literal : Byte) :
    packTriple ob (tripleOffset ob b0 b1) (tripleLength ob b0 b1) literal = [b0, b1, literal] := by
  have hword : tripleOffset ob b0 b1 * 2 ^ (16 - ob) + tripleLength ob b0 b1 = 256 * b0.toNat + b1.toNat := by
    rw [tripleOffset_eq, tripleLength_eq, Nat.div_add_mod', tripleWord_eq]
  have hhigh : (256 * b0.toNat + b1.toNat) / 256 = b0.toNat := by have := b1.isLt; omega
  have hlow : (256 * b0.toNat + b1.toNat) % 256 = b1.toNat := by have := b1.isLt; omega
  rw [packTriple_eq literal (tripleLength_lt ob b0 b1), hword, hhigh, hlow, BitVec.ofNat_toNat, BitVec.ofNat_toNat,
    BitVec.setWidth_eq, BitVec.setWidth_eq]

/-- Settles O53: packing then unpacking, and unpacking then packing, over the quotient and the remainder of the word. -/
theorem triplesPackAndUnpack : Obligations.TriplesPackAndUnpack := by
  intro ob _ hob
  refine ⟨fun offset length literal ho hl => ?_, fun b0 b1 literal => ?_⟩
  · exact unpack_packTriple hob literal (Nat.lt_of_le_pred (by positivity) ho) (Nat.lt_of_le_pred (by positivity) hl)
  · rw [← tripleWord_eq]
    exact ⟨tripleOffset_eq ob b0 b1, tripleLength_eq ob b0 b1, Nat.le_pred_of_lt (tripleOffset_lt hob b0 b1),
      Nat.le_pred_of_lt (tripleLength_lt ob b0 b1), packTriple_unpacked ob b0 b1 literal⟩

end Sys2Proof.Proofs

/-! Proofs for 40_command_common.md: issue (R106, R107), Exec and its completion (R108 to R115), what an outcome depends on
(R117) and what sets the refusal mark (R119, R120). The rules of issue and of the engine's turn come first, then those of
exec and of Exec, then memory after a completion. -/

namespace Sys2Proof.Proofs
open Sys2Proof.Machine

/-! ### Issue (O12) -/

/-- R107: RSV is set by a bit of w[31:13] or of w[7:4]. -/
theorem wordRsv_iff (w : Word) : wordRsv w = true ↔ w.toNat / 2 ^ 13 ≠ 0 ∨ w.toNat / 2 ^ 4 % 2 ^ 4 ≠ 0 := by
  have hlt := w.isLt
  simp only [wordRsv, Bool.or_eq_true, bne_iff_ne, ne_eq, ← BitVec.toNat_inj, BitVec.extractLsb'_toNat,
    Nat.shiftRight_eq_div_pow, BitVec.ofNat_eq_ofNat, BitVec.toNat_ofNat]
  omega

/-- Settles O12: a store to CMD is an overrun or an issue, and the latch's fields are those of the word. -/
theorem commandWriteIssuesOrOverruns : Obligations.CommandWriteIssuesOrOverruns := by
  intro s w rest hr ha
  have hstep := step_csrWrite hr ha (by decide) (by decide)
  refine ⟨fun hb => ?_, fun hb => ?_, wordOp_eq w, wordOb_eq w, wordRsv_iff w⟩
  · exact hstep.trans (congrArg _ (if_pos hb))
  · exact hstep.trans (congrArg _ (if_neg (Bool.eq_false_iff.mp hb)))

/-! ### The engine's turn (O19, O22) -/

theorem popped_eq_self {s : State} (ha : s.agenda = []) : popped s = s := by cases s; cases ha; rfl

theorem popped_eq {s : State} {e : Event} {rest : List Event} (ha : s.agenda = e :: rest) :
    popped s = { s with agenda := rest } := by rw [popped, ha, List.tail_cons]

/-- Log 2: an idle engine stutters. -/
theorem engineStep_idle {s : State} (hb : s.busy = false) : engineStep s = .next s := by
  simp only [engineStep, hb, Bool.false_eq_true, if_false]

theorem step_idleTurn {s : State} (hr : s.refusal = none) (hb : s.busy = false) (turn : engineTurn s) :
    step s = .next (popped s) := by
  rw [step_engineTurn hr turn, engineStep_idle (s := popped s) hb]

theorem step_decodedTurn {s : State} {i : Instr} (hr : s.refusal = none) (hb : s.busy = true) (turn : engineTurn s)
    (hi : decodeWord s.lat.word = .ok i) : step s = exec i (popped s) := by
  rw [step_engineTurn hr turn, engineStep_decoded (s := popped s) hb hi]

/-- Settles O19: the engine decodes the latched word, on the state with its event taken off. -/
theorem stepRunsTheDecodedCommand : Obligations.StepRunsTheDecodedCommand := by
  intro s i hr hb hi
  refine ⟨fun ha => ?_, fun rest ha => ?_⟩
  · rw [step_decodedTurn hr hb (.inl ha) hi, popped_eq_self ha]
  · rw [step_decodedTurn hr hb (.inr ⟨rest, ha⟩) hi, popped_eq ha]

/-- Settles O22: an idle engine stutters, with its event taken off. -/
theorem idleEngineChangesNothing : Obligations.IdleEngineChangesNothing := by
  intro s hr hb
  refine ⟨fun ha => ?_, fun rest ha => ?_⟩
  · rw [step_idleTurn hr hb (.inl ha), popped_eq_self ha]
  · rw [step_idleTurn hr hb (.inr ⟨rest, ha⟩), popped_eq ha]

/-! ### The completion (O23) -/

/-- Settles O23: each of the three outcomes is one record update of the completion. -/
theorem completionUpdatesTheRecord : Obligations.CompletionUpdatesTheRecord :=
  fun _ => ⟨fun _ _ => rfl, rfl, fun _ _ => rfl⟩

/-! ### What exec answers, by the checks that touch no memory -/

/-- R110 step 2: an LZ77 command with an invalid OB completes as a no-op. -/
theorem exec_noOp {i : Instr} (h : isNoOp i = true) (s : State) : exec i s = .next (complete .noOp s) := by
  cases i with
  | huffEnc ob | huffDec ob => cases h
  | lz77Enc ob | lz77Dec ob => exact congrArg _ (if_neg (by simpa [isNoOp] using h))

/-- R111: any other command runs its result function. -/
theorem exec_run {i : Instr} (h : isNoOp i = false) (s : State) : exec i s = .next (runCommand (transformOf i) s) := by
  cases i with
  | huffEnc ob | huffDec ob => rfl
  | lz77Enc ob | lz77Dec ob => exact congrArg _ (if_pos (by simpa [isNoOp] using h))

/-- Steps 2 to 7 of R110 for a decoded command. -/
def commandOutcome (i : Instr) (s : State) : CmdOutcome :=
  if isNoOp i then .noOp
  else
    match rangeError s.lat with
    | some e => .err e 0
    | none => transformOutcome (transformOf i) s

/-- A command passes the checks that touch no memory and has a region on memory that is not normal (R72; log 8). -/
def RefusedForMemory (i : Instr) (p : Platform) (l : Latch) : Prop :=
  isNoOp i = false ∧ rangeError l = none ∧ regionOnDevice p l = true

/-- Log 8: such a command is refused. -/
theorem exec_refused {i : Instr} {s : State} (h : RefusedForMemory i s.platform s.lat) :
    exec i s = .next (refuse .regionOnDevice s) := by
  obtain ⟨hn, hr, hd⟩ := h
  exact exec_onDevice hn hr hd

/-- Every other command completes with the outcome of R110. -/
theorem exec_completes {i : Instr} {s : State} (h : ¬ RefusedForMemory i s.platform s.lat) :
    exec i s = .next (complete (commandOutcome i s) s) := by
  cases hn : isNoOp i with
  | true => rw [exec_noOp hn, commandOutcome, if_pos hn]
  | false =>
    rw [exec_run hn]
    cases hr : rangeError s.lat with
    | some e => simp [runCommand, commandOutcome, hn, hr]
    | none =>
      have hd : regionOnDevice s.platform s.lat = false := Bool.eq_false_iff.mpr fun hd => h ⟨hn, hr, hd⟩
      simp [runCommand, commandOutcome, hn, hr, hd]

/-! ### Exec in the rule's own order (O24) -/

theorem firstBusFault_eq_firstFailing (p : Platform) (k : AccessKind) (a n : Nat) :
    firstBusFault p k a n = (firstFailing p k a n).map (a + ·) := by
  induction n generalizing a with
  | zero => rfl
  | succ n ih =>
    rw [firstBusFault, firstFailing, List.range_succ_eq_map, List.find?_cons, Nat.add_zero]
    cases hok : memOk p k a with
    | false => rfl
    | true =>
      simp only [Bool.not_true, if_true, ih, firstFailing, List.find?_map, Option.map_map]
      simp only [Function.comp_def, Nat.succ_eq_add_one, Nat.add_assoc, Nat.add_comm 1]

theorem memBytes_eq_map_range (m : Memory) (a n : Nat) :
    memBytes m a n = (List.range n).map fun j => memByte m (a + j) := by
  induction n generalizing a with
  | zero => rfl
  | succ n ih =>
    rw [memBytes, ih, List.range_succ_eq_map, List.map_cons, List.map_map]
    simp only [Function.comp_def, Nat.succ_eq_add_one, Nat.add_assoc, Nat.add_comm 1, Nat.add_zero]

theorem transformAt_opcodeOf (i : Instr) (B : List Byte) : transformAt (opcodeOf i) i.ob B = transformOf i B := by
  cases i <;> rfl

/-- R84: the fields of an illegal word meet the condition of R110 step 1. -/
theorem illegal_of_decodeWord {l : Latch} {e : DecodeError} (h : decodeWord l.word = .error e) :
    latRsv l = true ∨ ¬ (latOp l = 1 ∨ latOp l = 2 ∨ latOp l = 3 ∨ latOp l = 4) := by
  by_contra hlegal
  obtain ⟨hrsv, hop⟩ := not_or.mp hlegal
  replace hrsv : wordRsv l.word = false := Bool.eq_false_iff.mpr hrsv
  have hnone := decodeWord_error_iff.mp ⟨e, h⟩
  obtain hop | hop | hop | hop := not_not.mp hop
  · exact hnone (.huffEnc _) (decodeWord_ok_iff.mpr ⟨hrsv, hop, rfl⟩)
  · exact hnone (.huffDec _) (decodeWord_ok_iff.mpr ⟨hrsv, hop, rfl⟩)
  · exact hnone (.lz77Enc _) (decodeWord_ok_iff.mpr ⟨hrsv, hop, rfl⟩)
  · exact hnone (.lz77Dec _) (decodeWord_ok_iff.mpr ⟨hrsv, hop, rfl⟩)

/-- R110 step 1. -/
theorem execOutcome_illegal {s : State} {e : DecodeError} (h : decodeWord s.lat.word = .error e) :
    execOutcome s = .err .illegalCmd s.lat.word :=
  if_pos (illegal_of_decodeWord h)

theorem opcodeOf_legal (i : Instr) : opcodeOf i = 1 ∨ opcodeOf i = 2 ∨ opcodeOf i = 3 ∨ opcodeOf i = 4 := by
  cases i <;> simp [opcodeOf]

/-- R110 step 2, by the number OP. -/
theorem isNoOp_iff (i : Instr) :
    isNoOp i = true ↔ (opcodeOf i = 3 ∨ opcodeOf i = 4) ∧ ¬ (1 ≤ i.ob ∧ i.ob ≤ 15) := by
  have hvalid : ∀ ob, (!obValid ob) = true ↔ ¬ (1 ≤ ob ∧ ob ≤ 15) := fun ob => by simp [obValid]; omega
  cases i with
  | huffEnc ob | huffDec ob => simp [isNoOp, opcodeOf]
  | lz77Enc ob | lz77Dec ob => simp only [isNoOp, hvalid, opcodeOf, Instr.ob]; simp

/-- R110 step 3: the overlap of two regions. -/
theorem rangesMeet_eq_true_iff (base len base' len' : Nat) :
    rangesMeet base len base' len' = true ↔ len > 0 ∧ len' > 0 ∧ base < base' + len' ∧ base' < base + len := by
  simp only [rangesMeet, Bool.and_eq_true, decide_eq_true_eq, and_assoc, gt_iff_lt]

/-- Steps 2 to 7 of R110, each check of the rule beside the model's: a range check, then the reads, the transform, the
capacity and the writes. -/
theorem execOutcome_decoded {s : State} {i : Instr} (h : decodeWord s.lat.word = .ok i) :
    execOutcome s = commandOutcome i s := by
  obtain ⟨hrsv, hop, hob⟩ := decodeWord_ok_iff.mp h
  have hlegal := opcodeOf_legal i
  simp only [execOutcome, latRsv, latOp, latOb, hrsv, hop, ← hob, ← isNoOp_iff, hlegal, commandOutcome, rangeError,
    transformOutcome, sourceBytes, rangesMeet_eq_true_iff, firstBusFault_eq_firstFailing, memBytes_eq_map_range,
    transformAt_opcodeOf, not_true, or_false, Bool.false_eq_true, if_false, addrCount, gt_iff_lt]
  split_ifs with hnoOp hsrc hdst hmeet
  iterate 4 rfl
  cases firstFailing s.platform .read s.lat.srcBase.toNat s.lat.srcLen.toNat with
  | some j => rfl
  | none =>
    simp only [Option.map_none]
    cases transformOf i ((List.range s.lat.srcLen.toNat).map fun j => memByte s.mem (s.lat.srcBase.toNat + j)) with
    | error failure => rfl
    | ok result =>
      obtain ⟨out, hinfo⟩ := result
      show ite _ _ _ = ite _ _ _
      split_ifs with hcap
      · rfl
      · cases firstFailing s.platform .write s.lat.dstBase.toNat out.length <;> rfl

/-- R108: with regions in normal memory a running command's turn completes it with Exec. -/
theorem engineStep_publishes {s : State} (hb : s.busy = true) (hnormal : inNormalMemory s.platform s.lat) :
    engineStep s = .next (complete (execOutcome s) s) := by
  cases h : decodeWord s.lat.word with
  | error e =>
    rw [execOutcome_illegal h]
    simp [engineStep, fetchWord, hb, h]
  | ok i =>
    have hcompletes : ¬ RefusedForMemory i s.platform s.lat := fun ⟨_, _, hd⟩ => regionOnDevice_iff.mp hd hnormal
    rw [engineStep_decoded hb h, exec_completes hcompletes, execOutcome_decoded h]

/-- Settles O24: the model's outcome is Exec's, for an illegal word as for a decoded one. -/
theorem stepPublishesExec : Obligations.StepPublishesExec := by
  intro s hr hb turn hnormal
  rw [step_engineTurn hr turn, engineStep_publishes (s := popped s) hb hnormal]
  rfl

/-! ### The frame of a command (O35) -/

theorem draws_le_completionDraws (o : CmdOutcome) (s : State) : s.draws ≤ completionDraws o s := by
  cases o with
  | ok out hi => exact Nat.le_refl _
  | noOp => exact Nat.le_refl _
  | err e info =>
    rw [completionDraws]
    split
    · exact Nat.le_add_right _ _
    · exact Nat.le_refl _

/-- Settles O35: a refusal changes the mark alone, and a completion the record and the DST region. -/
theorem commandFrame : Obligations.CommandFrame := by
  intro i s t h
  obtain ⟨rfl, -⟩ | ⟨o, rfl, fits⟩ := exec_cases h
  · simp [refuse]
  · have hmem : ∀ a, inDst s.lat a = false → memByte (completionMem o s) a = memByte s.mem a :=
      fun a => completionMem_outside fun out hi ho => (fits out hi ho).1
    simpa using ⟨draws_le_completionDraws o s, hmem⟩

/-! ### Memory after a completion (O36) -/

/-- With regions that fit, no DST byte is a SRC byte. -/
theorem inSrc_dst_eq_false {l : Latch} (hfit : rangesFit l) {j : Nat} (hj : j < l.dstCap.toNat) :
    inSrc l (l.dstBase.toNat + j) = false := by
  obtain ⟨-, -, happart⟩ := hfit
  exact inRange_eq_false_iff.mpr (by omega)

theorem dstSpan_eq_dstCap {l : Latch} (hfit : rangesFit l) : dstSpan l = l.dstCap.toNat := by
  obtain ⟨-, htop, -⟩ := hfit
  unfold dstSpan addrCount
  omega

theorem errorLeavesDstFree_eq_false {e : CmdError} (h : errorCode e = 2 ∨ errorCode e = 3) :
    errorLeavesDstFree e = false := by
  obtain h | h := h <;> rw [errorLeavesDstFree, h] <;> rfl

theorem errorLeavesDstFree_eq_true {e : CmdError} (h : errorCode e = 1 ∨ errorCode e = 4 ∨ errorCode e = 5) :
    errorLeavesDstFree e = true := by
  obtain h | h | h := h <;> rw [errorLeavesDstFree, h] <;> rfl

/-- Settles O36: an output is written, a no-op and an error of the first three checks leave memory, any other error frees the
DST region. -/
theorem destinationAfterCompletion : Obligations.DestinationAfterCompletion := by
  intro s hfit
  refine ⟨fun out hinfo _ => ⟨memByte_writeBytes_inside _ _ _, memByte_writeBytes_outside _ _ _⟩, fun _ => rfl,
    fun e info he a => ?_, fun e info he => ?_⟩
  · rw [complete_err_mem, errorLeavesDstFree_eq_false he]
    rfl
  · rw [complete_err_mem, errorLeavesDstFree_eq_true he, if_pos rfl]
    refine ⟨fun j hj => ?_, memByte_freeDst_outside _ _ _⟩
    exact memByte_freeDst_dst _ _ _ j (by rwa [dstSpan_eq_dstCap hfit]) (inSrc_dst_eq_false hfit hj)

/-! ### What an outcome depends on (O38) -/

/-- A command reads its SRC bytes alone. -/
theorem sourceBytes_congr {s s' : State} (hlat : s.lat = s'.lat)
    (hsrc : ∀ a, inSrc s.lat a = true → memByte s.mem a = memByte s'.mem a) : sourceBytes s = sourceBytes s' := by
  rw [sourceBytes, sourceBytes, ← hlat]
  exact memBytes_congr _ _ _ _ fun x hlow hhigh => hsrc x (inRange_iff.mpr ⟨hlow, hhigh⟩)

theorem commandOutcome_congr (i : Instr) {s s' : State} (hlat : s.lat = s'.lat) (hplatform : s.platform = s'.platform)
    (hsrc : sourceBytes s = sourceBytes s') : commandOutcome i s = commandOutcome i s' := by
  simp only [commandOutcome, transformOutcome, hlat, hplatform, hsrc]

/-- Every byte of a written output is the output's, whatever memory it is written to. -/
theorem memByte_writeBytes_congr (m m' : Memory) (a : Nat) {out : List Byte} {j : Nat} (hj : j < out.length) :
    memByte (memWriteBytes m a out) (a + j) = memByte (memWriteBytes m' a out) (a + j) := by
  rw [memByte_writeBytes_inside _ _ _ _ hj, memByte_writeBytes_inside _ _ _ _ hj]

/-- Settles O38: both runs are refused, or both complete with the outcome that the latch, the platform and the source bytes
give. -/
theorem outcomeDependsOnOperandsAlone : Obligations.OutcomeDependsOnOperandsAlone := by
  rintro i s s' t t' hlat hplatform hbusy hsrc hclear hclear' h h'
  by_cases hrefused : RefusedForMemory i s.platform s.lat
  · cases (exec_refused hrefused).symm.trans h
    cases (exec_refused (hplatform ▸ hlat ▸ hrefused)).symm.trans h'
    simp [hclear, hclear', hbusy]
  · cases (exec_completes hrefused).symm.trans h
    cases (exec_completes (hplatform ▸ hlat ▸ hrefused)).symm.trans h'
    rw [← commandOutcome_congr i hlat hplatform (sourceBytes_congr hlat hsrc)]
    cases commandOutcome i s with
    | ok out hi =>
      obtain ⟨-, herr, hnoop, -⟩ := hclear
      obtain ⟨-, herr', hnoop', -⟩ := hclear'
      refine ⟨rfl, rfl, herr.trans herr'.symm, hnoop.trans hnoop'.symm, rfl, rfl, rfl, rfl, rfl, fun j hj => ?_⟩
      have hout : j < out.length := by
        rw [complete_ok_dstLen, BitVec.toNat_ofNat] at hj
        exact hj.trans_le (Nat.mod_le _ _)
      rw [complete_ok_mem, complete_ok_mem, ← hlat]
      exact memByte_writeBytes_congr _ _ _ hout
    | noOp => simp [hclear, hclear']
    | err e info => simp [hclear, hclear']

/-! ### The refusal mark (O18) -/

@[simp] theorem csrStore_refusal (c : Csr) (v : Word) (s : State) : (csrStore c v s).refusal = s.refusal := by
  cases c with
  | cmd => obtain ⟨-, heq⟩ | ⟨-, heq⟩ := csrStore_cmd_cases v s <;> simp [heq]
  | _ => rfl

@[simp] theorem hostMemRead_refusal (a : Nat) (s : State) : (hostMemRead a s).refusal = s.refusal := by
  unfold hostMemRead
  split <;> rfl

/-- R72: the engine's turn of a command with a region on memory that is not normal sets the mark and does nothing else. -/
theorem engineStep_onDeviceMemory {s : State} (h : onDeviceMemory s) :
    engineStep s = .next (refuse .regionOnDevice s) := by
  obtain ⟨hb, ⟨i, hi, hn⟩, hfit, hdevice⟩ := h
  rw [engineStep_decoded hb hi, exec_refused ⟨hn, rangeError_none_iff.mpr hfit, regionOnDevice_iff.mpr hdevice⟩]

/-- Settles O18: of the cases of a step, which all start unmarked, the refused ones alone set the mark. -/
theorem onlyRefusedAccessesEndARun : Obligations.OnlyRefusedAccessesEndARun := by
  refine ⟨fun s r hr => ?_, fun s hr turn hdevice => ?_, fun s t r h hmark => ?_⟩
  · simp only [step, runStep, hr]
  · rw [step_engineTurn hr turn, engineStep_onDeviceMemory (s := popped s) hdevice]
    rfl
  · obtain ⟨hr, hcase⟩ := step_stepCase h
    have hkept : ¬ s.refusal = some r := by simp [hr]
    cases hcase with
    | badAccess addr bytes rest ha hc =>
      cases hmark
      exact .inl ⟨addr, bytes, rest, rfl, ha, csrTarget_none_iff.mp hc⟩
    | memRefused a b rest ha ho =>
      cases hmark
      obtain ⟨hb, hregion⟩ := regionOwned_iff.mp ho
      exact .inr (.inl ⟨a, b, rest, rfl, ha, hb, hregion⟩)
    | device turn hb hd =>
      cases hmark
      exact .inr (.inr ⟨rfl, runsOnDevice_iff.mp hd, .inl turn⟩)
    | resetOnDevice rest ha hd =>
      cases hmark
      exact .inr (.inr ⟨rfl, runsOnDevice_iff.mp hd, .inr ⟨rest, ha⟩⟩)
    | idle | reset | csrRead | memWrite => exact absurd hmark hkept
    | completion turn hb o => exact absurd (complete_refusal o (popped s) ▸ hmark) hkept
    | csrWrite addr bytes v rest c => exact absurd (csrStore_refusal c v (popped s) ▸ hmark) hkept
    | memRead a => exact absurd (hostMemRead_refusal _ (popped s) ▸ hmark) hkept

end Sys2Proof.Proofs

/-! Proofs for 41_huffman_encode.md: the counts and the leaf set (R124 to R126), the tree builder against the rule's own
loop (R127 to R130), the codes (R135, R136), the degenerate inputs (R141, R142), what can fail (R144) and the completion of
HUFF_ENC (R137 to R139). -/

namespace Sys2Proof.Proofs
open Sys2Proof.Machine

/-! ### The frequency analyzer (O43) -/

theorem mem_allSymbols (s : Byte) : s ∈ allSymbols :=
  List.mem_map.mpr ⟨s.toNat, List.mem_range.mpr s.isLt, by simp⟩

theorem allSymbols_ascending : allSymbols.Pairwise fun s t => s.toNat < t.toNat := by
  refine List.pairwise_map.mpr (List.pairwise_lt_range.imp_of_mem fun hs ht hlt => ?_)
  rw [List.mem_range] at hs ht
  simp only [BitVec.toNat_ofNat]
  omega

theorem nodup_allSymbols : allSymbols.Nodup :=
  allSymbols_ascending.imp fun hlt => ne_of_apply_ne BitVec.toNat hlt.ne

theorem mem_freqCount {B : List Byte} {e : Byte × Nat} : e ∈ freqCount B ↔ e.2 = B.count e.1 := by
  obtain ⟨s, w⟩ := e
  simp [freqCount, mem_allSymbols, eq_comm]

theorem freqCount_ascending (B : List Byte) : (freqCount B).Pairwise fun e f => e.1.toNat < f.1.toNat :=
  List.pairwise_map.mpr allSymbols_ascending

/-- Every byte is counted under exactly one symbol of a list that holds each symbol once. -/
theorem sum_map_count {symbols : List Byte} (hnodup : symbols.Nodup) (hall : ∀ s, s ∈ symbols) (B : List Byte) :
    (symbols.map fun s => B.count s).sum = B.length :=
  calc (symbols.map fun s => B.count s).sum = ∑ s ∈ symbols.toFinset, B.count s := (List.sum_toFinset _ hnodup).symm
    _ = B.length := by
      simpa using Multiset.sum_count_eq_card (m := (B : Multiset Byte)) fun s _ => List.mem_toFinset.mpr (hall s)

theorem sum_freqCount (B : List Byte) : ((freqCount B).map (·.2)).sum = B.length := by
  rw [freqCount, List.map_map]
  exact sum_map_count nodup_allSymbols mem_allSymbols B

/-- Settles O43: the sum of some counts is at most the sum of all of them, which is the length. -/
theorem countsSumToLength : Obligations.CountsSumToLength := by
  intro B
  have hcount : ∀ e ∈ freqCount B, e.2 ≤ B.length := fun e he => mem_freqCount.mp he ▸ List.count_le_length
  refine ⟨sum_freqCount B, hcount, fun es hes => ?_, fun hlt e he => (hcount e he).trans_lt hlt⟩
  rw [← sum_freqCount B]
  exact (hes.map _).sum_le_sum fun _ _ => Nat.zero_le _

/-! ### The leaf set (R126) -/

/-- The symbol 0x00 stands in for no symbol. -/
theorem leafSet_nil : leafSet [] = [(0, 0)] := by
  have hnone : (freqCount []).filter (fun e => decide (0 < e.2)) = [] :=
    List.filter_eq_nil_iff.mpr fun e he => by simp [mem_freqCount.mp he]
  rw [leafSet, hnone]

theorem leafSet_eq_filter {B : List Byte} (hB : B ≠ []) :
    leafSet B = (freqCount B).filter fun e => decide (0 < e.2) := by
  obtain ⟨b, hb⟩ := List.exists_mem_of_ne_nil B hB
  have hocc : (b, B.count b) ∈ (freqCount B).filter fun e => decide (0 < e.2) :=
    List.mem_filter.mpr ⟨mem_freqCount.mpr rfl, decide_eq_true (List.count_pos_iff.mpr hb)⟩
  unfold leafSet
  split
  · rename_i hnone
    rw [hnone] at hocc
    cases hocc
  · rename_i hsome
    exact hsome.symm

theorem mem_leafSet {B : List Byte} (hB : B ≠ []) {e : Byte × Nat} :
    e ∈ leafSet B ↔ e.1 ∈ B ∧ e.2 = B.count e.1 := by
  rw [leafSet_eq_filter hB, List.mem_filter, mem_freqCount, decide_eq_true_iff, and_comm]
  exact and_congr_left fun hcount => by rw [hcount, List.count_pos_iff]

theorem leafSet_counts {B : List Byte} {e : Byte × Nat} (he : e ∈ leafSet B) : e.2 = B.count e.1 := by
  by_cases hB : B = []
  · subst hB
    rw [leafSet_nil, List.mem_singleton] at he
    rw [he, List.count_nil]
  · exact ((mem_leafSet hB).mp he).2

theorem leafSet_ascending (B : List Byte) : (leafSet B).Pairwise fun e f => e.1.toNat < f.1.toNat := by
  by_cases hB : B = []
  · rw [hB, leafSet_nil]
    exact List.pairwise_singleton _ _
  · rw [leafSet_eq_filter hB]
    exact (freqCount_ascending B).filter _

theorem mem_leafSymbols_huffTree {B : List Byte} (hB : B ≠ []) (s : Byte) : s ∈ leafSymbols (huffTree B) ↔ s ∈ B := by
  rw [(leafSymbols_huffTree B).mem_iff, List.mem_map]
  constructor
  · rintro ⟨e, he, rfl⟩
    exact ((mem_leafSet hB).mp he).1
  · exact fun hs => ⟨(s, B.count s), (mem_leafSet hB).mpr ⟨hs, rfl⟩, rfl⟩

/-! ### The queue in ascending order of key (R127 to R129) -/

theorem keyLess_iff {x y : QueueEntry} : keyLess x y = true ↔ keyBefore x y := by simp [keyLess, keyBefore]

theorem keyBefore_trans {x y z : QueueEntry} (hxy : keyBefore x y) (hyz : keyBefore y z) : keyBefore x z := by
  unfold keyBefore at *
  omega

theorem keyBefore_asymm {x y : QueueEntry} (h : keyBefore x y) : ¬ keyBefore y x := by
  unfold keyBefore at *
  omega

theorem keyBefore_of_not {x y : QueueEntry} (hseq : x.seq ≠ y.seq) (h : ¬ keyBefore x y) : keyBefore y x := by
  unfold keyBefore at *
  omega

/-- Inserting an entry whose seq is new keeps the queue in ascending order. -/
theorem queueInsert_ascending {x : QueueEntry} {q : List QueueEntry} (hq : q.Pairwise keyBefore)
    (hseq : ∀ y ∈ q, y.seq < x.seq) : (queueInsert x q).Pairwise keyBefore := by
  induction q with
  | nil => exact List.pairwise_singleton _ _
  | cons y ys ih =>
    obtain ⟨hy, hys⟩ := List.pairwise_cons.mp hq
    obtain ⟨hyseq, hysseq⟩ := List.forall_mem_cons.mp hseq
    unfold queueInsert
    split
    · rename_i hless
      have hxy := keyLess_iff.mp hless
      exact .cons (List.forall_mem_cons.mpr ⟨hxy, fun z hz => keyBefore_trans hxy (hy z hz)⟩) hq
    · rename_i hless
      have hyx := keyBefore_of_not (by omega) (keyLess_iff.not.mp hless)
      refine .cons (fun z hz => ?_) (ih hys hysseq)
      obtain rfl | hz := List.mem_cons.mp ((queueInsert_perm x ys).mem_iff.mp hz)
      · exact hyx
      · exact hy z hz

/-- What the builder keeps of its queue: ascending keys, and every seq below the next one. -/
structure QueueOrdered (q : List QueueEntry) (next : Nat) : Prop where
  ascending : q.Pairwise keyBefore
  below : ∀ e ∈ q, e.seq < next

theorem QueueOrdered.nil (next : Nat) : QueueOrdered [] next := ⟨.nil, nofun⟩

theorem QueueOrdered.insert {q : List QueueEntry} {next : Nat} (h : QueueOrdered q next) (w : Nat) (t : Machine.Tree) :
    QueueOrdered (queueInsert ⟨w, next, t⟩ q) (next + 1) where
  ascending := queueInsert_ascending h.ascending h.below
  below e he := by
    obtain rfl | he := List.mem_cons.mp ((queueInsert_perm _ q).mem_iff.mp he)
    · exact Nat.lt_succ_self next
    · exact Nat.lt_succ_of_lt (h.below e he)

theorem QueueOrdered.tail {e : QueueEntry} {q : List QueueEntry} {next : Nat} (h : QueueOrdered (e :: q) next) :
    QueueOrdered q next :=
  ⟨h.ascending.of_cons, fun x hx => h.below x (List.mem_cons_of_mem e hx)⟩

theorem seedQueue_ordered (es : List (Byte × Nat)) {next : Nat} {q : List QueueEntry} (h : QueueOrdered q next) :
    QueueOrdered (seedQueue es next q) (next + es.length) := by
  induction es generalizing next q with
  | nil => exact h
  | cons e es ih =>
    have := ih (h.insert e.2 (.leaf e.1))
    rwa [Nat.add_assoc, Nat.add_comm 1] at this

section TreeBuilder
open scoped List

theorem seedQueue_perm (es : List (Byte × Nat)) (next : Nat) (q : List QueueEntry) :
    seedQueue es next q ~ ((es.zipIdx next).map fun e => (⟨e.1.2, e.2, .leaf e.1.1⟩ : QueueEntry)) ++ q := by
  induction es generalizing next q with
  | nil => exact .refl _
  | cons e es ih =>
    calc seedQueue (e :: es) next q
      _ ~ _ ++ queueInsert ⟨e.2, next, .leaf e.1⟩ q := ih (next + 1) _
      _ ~ _ ++ (⟨e.2, next, .leaf e.1⟩ :: q) := (queueInsert_perm _ q).append_left _
      _ ~ ⟨e.2, next, .leaf e.1⟩ :: (_ ++ q) := List.perm_middle

/-- The entry that precedes every other one heads every ascending arrangement, and the rest is the rest. -/
theorem least_unique {a x : QueueEntry} {q r : List QueueEntry} (hperm : a :: q ~ x :: r)
    (ha : ∀ y ∈ q, keyBefore a y) (hx : ∀ y ∈ r, keyBefore x y) : a = x ∧ q ~ r := by
  have heq : a = x := by
    by_contra hne
    have hxq : x ∈ q := (List.mem_cons.mp (hperm.mem_iff.mpr List.mem_cons_self)).resolve_left (Ne.symm hne)
    have har : a ∈ r := (List.mem_cons.mp (hperm.mem_iff.mp List.mem_cons_self)).resolve_left hne
    exact keyBefore_asymm (ha x hxq) (hx a har)
  subst heq
  exact ⟨rfl, (List.perm_cons a).mp hperm⟩

theorem mergeQueue_singleton (fuel next : Nat) (a : QueueEntry) : mergeQueue fuel next [a] = a.node := by
  cases fuel <;> rfl

/-- The loop on one entry gives its node. -/
theorem buildsTree_singleton {a : QueueEntry} {next : Nat} {root : Machine.Tree} :
    BuildsTree [a] next root ↔ root = a.node := by
  constructor
  · intro h
    cases h with
    | done => rfl
    | merge _ rest x y _ _ perm => exact absurd perm.length_eq (by simp)
  · rintro rfl
    exact .done a next

/-- The entry that the merge of `a` and `b` adds to the queue (R128). -/
def mergedEntry (a b : QueueEntry) (next : Nat) : QueueEntry := ⟨a.weight + b.weight, next, .node a.node b.node⟩

theorem mergeQueue_two (fuel next : Nat) (a b : QueueEntry) (q : List QueueEntry) :
    mergeQueue (fuel + 1) next (a :: b :: q) = mergeQueue fuel (next + 1) (queueInsert (mergedEntry a b next) q) := rfl

/-- The loop on a queue whose least two entries are `a`, then `b`, merges these and goes on, and can do nothing else. -/
theorem buildsTree_two_least {a b : QueueEntry} {q rest : List QueueEntry} {next : Nat} {root : Machine.Tree}
    (hperm : q ~ a :: b :: rest) (hasc : (a :: b :: rest).Pairwise keyBefore) :
    BuildsTree q next root ↔
      ∃ r, r ~ rest ∧ BuildsTree (mergedEntry a b next :: r) (next + 1) root := by
  obtain ⟨ha, hbrest⟩ := List.pairwise_cons.mp hasc
  obtain ⟨hb, -⟩ := List.pairwise_cons.mp hbrest
  constructor
  · intro h
    cases h with
    | done => exact absurd hperm.length_eq (by simp)
    | merge _ r x y _ _ perm least second more =>
      obtain ⟨rfl, htail⟩ := least_unique (hperm.symm.trans perm) ha least
      obtain ⟨rfl, hrest⟩ := least_unique htail hb second
      exact ⟨r, hrest.symm, more⟩
  · rintro ⟨r, hr, more⟩
    exact .merge q r a b next root (hperm.trans ((hr.symm.cons b).cons a))
      (fun x hx => ha x ((hr.cons b).mem_iff.mp hx)) (fun x hx => hb x (hr.mem_iff.mp hx)) more

/-- R128: on any arrangement of an ordered queue, the rule's loop gives the tree of `mergeQueue` and no other. -/
theorem buildsTree_iff_mergeQueue {fuel next : Nat} {q q' : List QueueEntry} {root : Machine.Tree}
    (hord : QueueOrdered q' next) (hne : q' ≠ []) (hfuel : q'.length ≤ fuel + 1) (hperm : q ~ q') :
    BuildsTree q next root ↔ root = mergeQueue fuel next q' := by
  induction fuel generalizing next q q' with
  | zero =>
    match q', hne, hfuel with
    | [a], _, _ => rw [List.perm_singleton.mp hperm, buildsTree_singleton, mergeQueue_singleton]
  | succ fuel ih =>
    match q', hne, hfuel with
    | [a], _, _ => rw [List.perm_singleton.mp hperm, buildsTree_singleton, mergeQueue_singleton]
    | a :: b :: rest, _, hfuel =>
      have hlength := length_queueInsert (mergedEntry a b next) rest
      have hmerged : ∀ r, r ~ rest → (BuildsTree (mergedEntry a b next :: r) (next + 1) root ↔
          root = mergeQueue fuel (next + 1) (queueInsert (mergedEntry a b next) rest)) :=
        fun r hr => ih (hord.tail.tail.insert _ _) (List.ne_nil_of_length_pos (by omega))
          (by simp only [List.length_cons] at hfuel; omega) ((hr.cons _).trans (queueInsert_perm _ rest).symm)
      rw [buildsTree_two_least hperm hord.ascending, mergeQueue_two]
      exact ⟨fun ⟨r, hr, h⟩ => (hmerged r hr).mp h, fun h => ⟨rest, .refl _, (hmerged rest (.refl _)).mpr h⟩⟩

/-- R127, R128: seeded with the leaves, the rule's loop gives the tree of `buildTree` and no other. -/
theorem buildsTree_iff_buildTree {leaves : List (Byte × Nat)} (hne : leaves ≠ []) {root : Machine.Tree} :
    BuildsTree (seedsOf leaves) leaves.length root ↔ root = buildTree leaves := by
  have hpos := List.length_pos_iff.mpr hne
  have hlength : (seedQueue leaves 0 []).length = leaves.length := length_seedQueue _ _ _
  have hord : QueueOrdered (seedQueue leaves 0 []) leaves.length := by
    simpa using seedQueue_ordered leaves (QueueOrdered.nil 0)
  have hperm : seedsOf leaves ~ seedQueue leaves 0 [] := by
    simpa [seedsOf] using (seedQueue_perm leaves 0 []).symm
  exact buildsTree_iff_mergeQueue hord (List.ne_nil_of_length_pos (by omega)) (by omega) hperm

end TreeBuilder

/-- Settles O44: the leaf set's own rules, and the rule's loop beside the builder's ordered queue. -/
theorem treeHoldsTheLeafSet : Obligations.TreeHoldsTheLeafSet := by
  intro B
  have hcount := leafCount_huffTree B
  have hinternal : internalCount (huffTree B) = (leafSet B).length - 1 := by
    rw [← hcount, leafCount_eq_internalCount, Nat.add_sub_cancel]
  exact ⟨leafSymbols_huffTree B, hcount, hinternal, List.length_pos_iff.mpr (leafSet_ne_nil B), length_leafSet_le B,
    mem_leafSymbols_huffTree, fun hB => hB ▸ leafSet_nil, fun _ => leafSet_counts, leafSet_ascending B,
    fun _ => buildsTree_iff_buildTree (leafSet_ne_nil B)⟩

/-! ### The codes (O46) -/

/-- The code of a leaf starts with the path to the node the walk started at. -/
theorem prefix_of_mem_walkCodes {t : Machine.Tree} {path : Bits} {e : Byte × Bits} (he : e ∈ walkCodes t path) :
    path <+: e.2 := by
  induction t generalizing path with
  | leaf v =>
    cases List.mem_singleton.mp he
    exact List.prefix_rfl
  | node l r ihl ihr =>
    obtain he | he := List.mem_append.mp he
    · exact (List.prefix_append _ _).trans (ihl he)
    · exact (List.prefix_append _ _).trans (ihr he)

/-- Two sequences that part after a common path are no prefixes of each other. -/
theorem not_prefix_of_parted {path c d : Bits} {x y : Bool} (hxy : x ≠ y) (hc : path ++ [x] <+: c)
    (hd : path ++ [y] <+: d) : ¬ c <+: d := by
  intro hcd
  obtain ⟨rest, rfl⟩ := hc.trans hcd
  rw [List.append_assoc, List.prefix_append_right_inj, List.singleton_append, List.cons_prefix_cons] at hd
  exact hxy hd.1.symm

theorem walkCodes_prefixFree (t : Machine.Tree) (path : Bits) :
    ((walkCodes t path).map (·.2)).Pairwise fun c d => ¬ c <+: d ∧ ¬ d <+: c := by
  induction t generalizing path with
  | leaf v => exact List.pairwise_singleton _ _
  | node l r ihl ihr =>
    rw [walkCodes, List.map_append, List.pairwise_append]
    refine ⟨ihl _, ihr _, List.forall_mem_map.mpr fun e he => List.forall_mem_map.mpr fun f hf => ?_⟩
    have hleft := prefix_of_mem_walkCodes he
    have hright := prefix_of_mem_walkCodes hf
    exact ⟨not_prefix_of_parted (by decide) hleft hright, not_prefix_of_parted (by decide) hright hleft⟩

/-- Settles O46: at a node the codes of the two sides part, by induction over the tree. -/
theorem codesArePrefixFree : Obligations.CodesArePrefixFree := fun l r => walkCodes_prefixFree (.node l r) []

/-! ### The empty input and one repeated byte (O48) -/

theorem leafSet_replicate (b : Byte) {N : Nat} (hN : 0 < N) : leafSet (List.replicate N b) = [(b, N)] := by
  have hne : List.replicate N b ≠ [] := List.ne_nil_of_length_pos (by simpa using hN)
  have hall : ∀ e ∈ leafSet (List.replicate N b), e = (b, N) := by
    rintro ⟨s, w⟩ he
    obtain ⟨hs, hw⟩ := (mem_leafSet hne).mp he
    cases List.eq_of_mem_replicate hs
    rw [List.count_replicate_self] at hw
    exact Prod.ext rfl hw
  have hasc := leafSet_ascending (List.replicate N b)
  match leafSet (List.replicate N b), leafSet_ne_nil (List.replicate N b), hall, hasc with
  | [e], _, hall, _ => rw [hall e (by simp)]
  | e :: f :: es, _, hall, hasc =>
    have hlt := List.rel_of_pairwise_cons hasc List.mem_cons_self
    rw [hall e (by simp), hall f (by simp)] at hlt
    exact absurd hlt (Nat.lt_irrefl _)

theorem payloadBits_oneLeaf (b : Byte) (N : Nat) :
    payloadBits (codeTable (.leaf b)) (List.replicate N b) = List.replicate N false := by
  have hcode : codeOf (codeTable (.leaf b)) b = [false] := by simp [codeOf, codeTable]
  rw [payloadBits, List.flatMap_replicate, hcode]
  simp

/-- With one leaf the tree field has 9 bits and each input byte is one zero bit. -/
theorem huffEncode_oneLeaf {b : Byte} {N w : Nat} (h : leafSet (List.replicate N b) = [(b, w)]) :
    huffEncode (List.replicate N b) =
      .ok (pack (bitsMSB (padSize (12 + N)) 3 ++ (true :: bitsMSB b.toNat 8) ++ List.replicate N false ++
        List.replicate (padSize (12 + N)) false), huffInfoWord (padSize (12 + N)) 9 1) := by
  have htree : huffTree (List.replicate N b) = .leaf b := by rw [huffTree, h]; rfl
  simp [huffEncode, htree, payloadBits_oneLeaf, writeStream, serialize, h]

/-- Settles O48: both inputs have a one-leaf tree, the empty one that of the symbol 0x00. -/
theorem degenerateInputsEncode : Obligations.DegenerateInputsEncode := by
  refine ⟨?_, by decide, fun b N hN => huffEncode_oneLeaf (leafSet_replicate b hN)⟩
  have hempty := huffEncode_oneLeaf (b := 0) (N := 0) leafSet_nil
  exact hempty.trans (by decide)

/-! ### What can fail (O34) -/

theorem readTreeBit_error {st : ParseState} {e : CmdError} {info : Word} (h : readTreeBit st = .error (e, info)) :
    e = .treeTrunc := by
  unfold readTreeBit at h
  split at h <;> cases h
  rfl

theorem readSymbol_error {n v : Nat} {st : ParseState} {e : CmdError} {info : Word}
    (h : readSymbol n v st = .error (e, info)) : e = .treeTrunc := by
  induction n generalizing v st with
  | zero => cases h
  | succ n ih =>
    unfold readSymbol at h
    split at h
    · rename_i hbit
      cases h
      exact readTreeBit_error hbit
    · exact ih h

theorem parseNode_error {fuel : Nat} {st : ParseState} {e : CmdError} {info : Word}
    (h : parseNode fuel st = .error (e, info)) : e = .treeTrunc ∨ e = .treeTooLarge := by
  induction fuel generalizing st with
  | zero =>
    cases h
    exact .inr rfl
  | succ fuel ih =>
    unfold parseNode at h
    split at h
    · rename_i hbit
      cases h
      exact .inl (readTreeBit_error hbit)
    · split at h
      · rename_i hsymbol
        cases h
        exact .inl (readSymbol_error hsymbol)
      · cases h
    · split at h
      · cases h
        exact .inr rfl
      · split at h
        · rename_i hl
          cases h
          exact ih hl
        · split at h
          · rename_i hr
            cases h
            exact ih hr
          · cases h

theorem mapSingleLeaf_error {v : Byte} {cur : Nat} {rest : Bits} {e : CmdError} {info : Word}
    (h : mapSingleLeaf v cur rest = .error (e, info)) : e = .singleLeafBit1 := by
  induction rest generalizing cur with
  | nil => cases h
  | cons b rest ih =>
    unfold mapSingleLeaf at h
    split at h
    · cases h
      rfl
    · split at h
      · rename_i hmore
        cases h
        exact ih hmore
      · cases h

theorem mapWalk_error {l r l' r' : Machine.Tree} {between : Bool} {cur : Nat} {rest : Bits} {e : CmdError} {info : Word}
    (h : mapWalk l r between l' r' cur rest = .error (e, info)) : e = .codeTrunc := by
  induction rest generalizing between l' r' cur with
  | nil =>
    unfold mapWalk at h
    split at h <;> cases h
    rfl
  | cons b rest ih =>
    unfold mapWalk at h
    split at h
    · exact ih h
    · split at h
      · rename_i hmore
        cases h
        exact ih hmore
      · cases h

theorem mapSymbols_error {root : Machine.Tree} {cur : Nat} {rest : Bits} {e : CmdError} {info : Word}
    (h : mapSymbols root cur rest = .error (e, info)) : e = .codeTrunc ∨ e = .singleLeafBit1 := by
  cases root with
  | leaf v => exact .inr (mapSingleLeaf_error h)
  | node l r => exact .inl (mapWalk_error h)

/-- R153: HuffDec fails at its header, in its tree or in its payload. -/
theorem huffDecode_error {B : List Byte} {e : CmdError} {info : Word} (h : huffDecode B = .error (e, info)) :
    e ∈ [CmdError.hdrShort, .treeTrunc, .treeTooLarge, .codeTrunc, .singleLeafBit1] := by
  unfold huffDecode at h
  simp only at h
  split at h
  · cases h
    decide
  · split at h
    · rename_i hparse
      cases h
      obtain rfl | rfl := parseNode_error hparse <;> decide
    · split at h
      · rename_i hmap
        cases h
        obtain rfl | rfl := mapSymbols_error hmap <;> decide
      · cases h

theorem tripleError_some {offset length outLen t : Nat} {e : CmdError} {info : Word}
    (h : tripleError offset length outLen t = some (e, info)) : e = .offsetBeforeStart ∨ e = .zeroOffsetCopy := by
  unfold tripleError at h
  split at h
  · cases h
  · split at h
    · cases h
      exact .inr rfl
    · split at h <;> cases h
      exact .inl rfl

theorem decodeWalk_error {ob t : Nat} {outRev B : List Byte} {e : CmdError} {info : Word}
    (h : decodeWalk ob t outRev B = .error (e, info)) : e = .offsetBeforeStart ∨ e = .zeroOffsetCopy := by
  fun_induction decodeWalk ob t outRev B with
  | case1 t outRev b0 b1 literal rest failure hfail =>
    cases h
    exact tripleError_some hfail
  | case2 t outRev b0 b1 literal rest hpass ih => exact ih h
  | case3 t outRev B hend => cases h

/-- R184: Lz77Dec fails at its length or at a triple. -/
theorem lz77Decode_error {B : List Byte} {ob : Nat} {e : CmdError} {info : Word}
    (h : lz77Decode B ob = .error (e, info)) : e ∈ [CmdError.lenNotMult3, .offsetBeforeStart, .zeroOffsetCopy] := by
  unfold lz77Decode at h
  split at h
  · split at h
    · rename_i hwalk
      cases h
      obtain rfl | rfl := decodeWalk_error hwalk <;> decide
    · cases h
  · cases h
    decide

/-- Settles O34: the encoders answer by definition, and the decoders' failures are those of their parts. -/
theorem onlyDecodersFailAndOnlyInTheirWays : Obligations.OnlyDecodersFailAndOnlyInTheirWays :=
  fun _ => ⟨⟨_, _, rfl⟩, fun _ => ⟨_, rfl⟩, fun _ _ => huffDecode_error, fun _ _ _ => lz77Decode_error⟩

/-! ### A command that is ready completes (O25) -/

/-- R122: with every access answered, what a result function gives is published when it fits. -/
theorem transformOutcome_ready {F : List Byte → Transform} {s : State} {out : List Byte} {hinfo : Word}
    (hread : sourceReadable s.platform s.lat) (hwrite : destWritable s.platform s.lat)
    (hF : F (sourceBytes s) = .ok (out, hinfo)) (hroom : out.length ≤ s.lat.dstCap.toNat) :
    transformOutcome F s = .ok out hinfo := by
  have hsrc : firstBusFault s.platform .read s.lat.srcBase.toNat s.lat.srcLen.toNat = none :=
    firstBusFault_none.mpr hread
  have hdst : firstBusFault s.platform .write s.lat.dstBase.toNat out.length = none :=
    firstBusFault_none.mpr fun j hj => hwrite j (hj.trans_le hroom)
  simp [transformOutcome, hsrc, hF, hroom, hdst]

/-- R122: a command that is ready completes with the output of its result function when it fits. -/
theorem exec_ready {i : Instr} {s : State} {out : List Byte} {hinfo : Word} (hn : isNoOp i = false) (h : commandReady s)
    (hF : transformOf i (sourceBytes s) = .ok (out, hinfo)) (hroom : out.length ≤ s.lat.dstCap.toNat) :
    exec i s = .next (complete (.ok out hinfo) s) := by
  obtain ⟨hfit, hnormal, hread, hwrite⟩ := h
  have houtcome : commandOutcome i s = .ok out hinfo := by
    simp [commandOutcome, hn, rangeError_none_iff.mpr hfit, transformOutcome_ready hread hwrite hF hroom]
  rw [exec_completes fun ⟨_, _, hdevice⟩ => regionOnDevice_iff.mp hdevice hnormal, houtcome]

/-- Settles O25: the written stream is the output of HuffEnc, and the next state its completion. -/
theorem huffEncCompletes : Obligations.HuffEncCompletes := by
  intro ob s hready B treeBits payload p out hroom
  exact exec_ready (i := .huffEnc ob) rfl hready rfl hroom

end Sys2Proof.Proofs

/-! Proofs for 42_huffman_decode.md: what HuffDec reads and in which order (R147 to R149, R153), the tree parser on a whole
tree and on an open one (R150, R151), the symbol mapper on whole codes and on a part of one (R152); then the round trip
(R161), every failure with its index (R157), and what a stream that decodes reports (R154, R162). -/

namespace Sys2Proof.Proofs
open Sys2Proof.Machine

/-! ### HuffDec as a parse and a mapping (R153) -/

/-- The tree parse of HuffDec: from bit 3 up to the limit, no node counted (R150, R153). -/
def parseTree (B : List Byte) : Except (CmdError × Word) (Machine.Tree × ParseState) :=
  parseNode (Config.maxInternal + 1) ⟨3, bodyBits (unpack B), 0, 0⟩

/-- R148: a stream of one byte or more has its padding field. -/
theorem not_length_unpack_lt {B : List Byte} (hB : B ≠ []) : ¬ (unpack B).length < 3 := by
  have := List.length_pos_iff.mpr hB
  rw [length_unpack]
  omega

theorem huffDecode_of_parse_error {B : List Byte} {e : CmdError × Word} (hB : B ≠ []) (h : parseTree B = .error e) :
    huffDecode B = .error e := by
  rw [parseTree] at h
  simp only [huffDecode, if_neg (not_length_unpack_lt hB), h]

theorem huffDecode_of_parse_ok {B : List Byte} {root : Machine.Tree} {st : ParseState} (hB : B ≠ [])
    (h : parseTree B = .ok (root, st)) :
    huffDecode B = (fun out => (out, huffInfoWord (valMSB ((unpack B).take 3)) (st.cur - 3) st.nleaves)) <$>
      mapSymbols root st.cur st.rest := by
  rw [parseTree] at h
  simp only [huffDecode, if_neg (not_length_unpack_lt hB), h]
  cases mapSymbols root st.cur st.rest <;> rfl

/-- R153: the three ways HuffDec ends once the padding field is read. -/
theorem huffDecode_cases {B : List Byte} (hB : B ≠ []) :
    (∃ e, parseTree B = .error e ∧ huffDecode B = .error e) ∨
      ∃ root st, parseTree B = .ok (root, st) ∧
        ((∃ e, mapSymbols root st.cur st.rest = .error e ∧ huffDecode B = .error e) ∨
          ∃ out, mapSymbols root st.cur st.rest = .ok out ∧
            huffDecode B = .ok (out, huffInfoWord (valMSB ((unpack B).take 3)) (st.cur - 3) st.nleaves)) := by
  cases hparse : parseTree B with
  | error e => exact .inl ⟨e, rfl, huffDecode_of_parse_error hB hparse⟩
  | ok parsed =>
    obtain ⟨root, st⟩ := parsed
    refine .inr ⟨root, st, rfl, ?_⟩
    rw [huffDecode_of_parse_ok hB hparse]
    cases mapSymbols root st.cur st.rest with
    | error e => exact .inl ⟨e, rfl, rfl⟩
    | ok out => exact .inr ⟨out, rfl, rfl⟩

/-- What it takes for HuffDec to succeed, and what it then returns. -/
theorem huffDecode_eq_ok_iff {B out : List Byte} {hinfo : Word} :
    huffDecode B = .ok (out, hinfo) ↔ B ≠ [] ∧ ∃ root st, parseTree B = .ok (root, st) ∧
      mapSymbols root st.cur st.rest = .ok out ∧
      hinfo = huffInfoWord (valMSB ((unpack B).take 3)) (st.cur - 3) st.nleaves := by
  constructor
  · intro h
    have hB : B ≠ [] := by
      rintro rfl
      cases h
    obtain ⟨e, -, heq⟩ | ⟨root, st, hparse, ⟨e, -, heq⟩ | ⟨out, hmap, heq⟩⟩ := huffDecode_cases hB <;>
      cases h.symm.trans heq
    exact ⟨hB, root, st, hparse, hmap, rfl⟩
  · rintro ⟨hB, root, st, hparse, hmap, rfl⟩
    rw [huffDecode_of_parse_ok hB hparse, hmap, Except.map_ok]

/-- R148: only the empty stream has no padding field. -/
theorem huffDecode_hdrShort_iff {B : List Byte} {info : Word} :
    huffDecode B = .error (.hdrShort, info) ↔ B = [] ∧ info = 0 := by
  constructor
  · intro h
    by_cases hB : B = []
    · subst hB
      cases h
      exact ⟨rfl, rfl⟩
    · obtain ⟨e, hparse, heq⟩ | ⟨root, st, -, ⟨e, hmap, heq⟩ | ⟨out, -, heq⟩⟩ := huffDecode_cases hB <;>
        cases h.symm.trans heq
      · obtain h | h := parseNode_error hparse <;> cases h
      · obtain h | h := mapSymbols_error hmap <;> cases h
  · rintro ⟨rfl, rfl⟩
    rfl

/-! ### The body: the bits after the padding field, up to the limit (R149) -/

theorem bodyBits_unpack (B : List Byte) :
    bodyBits (unpack B) = ((unpack B).take (8 * B.length - valMSB ((unpack B).take 3))).drop 3 := by
  rw [bodyBits, length_unpack]

theorem length_bodyBits_unpack (B : List Byte) :
    (bodyBits (unpack B)).length = 8 * B.length - valMSB ((unpack B).take 3) - 3 := by
  rw [bodyBits_unpack, List.length_drop, List.length_take, length_unpack]
  omega

/-- HuffDec looks at its stream's length, at the padding field and at the body, and at nothing else. -/
theorem huffDecode_congr {B B' : List Byte} (hlength : B.length = B'.length)
    (hpad : (unpack B).take 3 = (unpack B').take 3) (hbody : bodyBits (unpack B) = bodyBits (unpack B')) :
    huffDecode B = huffDecode B' := by
  simp only [huffDecode, length_unpack, hlength, hpad, hbody]

/-- Settles O52: the padding field and the body are bits below 3 or below the limit. -/
theorem paddingBitsAreIgnored : Obligations.PaddingBitsAreIgnored := by
  intro B B' hlength hbits
  have htake : ∀ n, (∀ k, k < n → k < 3 ∨ k < 8 * B.length - valMSB ((unpack B).take 3)) →
      (unpack B).take n = (unpack B').take n := fun n hn => by
    refine List.ext_getElem? fun k => ?_
    rw [List.getElem?_take, List.getElem?_take]
    split
    · exact hbits k (hn k ‹_›)
    · rfl
  have hpad : (unpack B).take 3 = (unpack B').take 3 := htake 3 fun _ => .inl
  refine huffDecode_congr hlength hpad ?_
  rw [bodyBits_unpack, bodyBits_unpack, ← hlength, ← hpad, htake _ fun _ => .inr]

/-! ### The tree parser on a whole tree (R150, R151) -/

@[simp] theorem readTreeBit_nil (cur i n : Nat) : readTreeBit ⟨cur, [], i, n⟩ = .error (.treeTrunc, sat32 cur) := rfl

@[simp] theorem readTreeBit_cons (cur : Nat) (b : Bool) (rest : Bits) (i n : Nat) :
    readTreeBit ⟨cur, b :: rest, i, n⟩ = .ok (b, ⟨cur + 1, rest, i, n⟩) := rfl

theorem readSymbol_append (bits : Bits) (v cur : Nat) (rest : Bits) (i n : Nat) :
    readSymbol bits.length v ⟨cur, bits ++ rest, i, n⟩ =
      .ok (2 ^ bits.length * v + valMSB bits, ⟨cur + bits.length, rest, i, n⟩) := by
  induction bits generalizing v cur with
  | nil => simp [readSymbol]
  | cons b bits ih =>
    simp only [List.length_cons, List.cons_append, readSymbol, readTreeBit_cons, ih, valMSB_cons, Nat.pow_succ]
    congr 2
    · ring
    · rw [Nat.add_right_comm, Nat.add_assoc]

/-- A leaf cut short: the first bit that is missing is the one after the last (R150, R157). -/
theorem readSymbol_cut {m : Nat} {cut : Bits} (hcut : cut.length < m) (v cur i n : Nat) :
    readSymbol m v ⟨cur, cut, i, n⟩ = .error (.treeTrunc, sat32 (cur + cut.length)) := by
  induction cut generalizing m v cur with
  | nil =>
    obtain ⟨m, rfl⟩ := Nat.exists_eq_succ_of_ne_zero (Nat.ne_zero_of_lt hcut)
    simp [readSymbol]
  | cons b cut ih =>
    obtain ⟨m, rfl⟩ := Nat.exists_eq_succ_of_ne_zero (Nat.ne_zero_of_lt hcut)
    rw [List.length_cons, Nat.succ_lt_succ_iff] at hcut
    simp only [readSymbol, readTreeBit_cons, ih hcut, List.length_cons]
    congr 3
    omega

section Parser
variable {fuel cur i n : Nat} {rest : Bits}

theorem parseNode_nil : parseNode (fuel + 1) ⟨cur, [], i, n⟩ = .error (.treeTrunc, sat32 cur) := rfl

theorem parseNode_leaf (v : Byte) :
    parseNode (fuel + 1) ⟨cur, true :: (bitsMSB v.toNat 8 ++ rest), i, n⟩ = .ok (.leaf v, ⟨cur + 9, rest, i, n + 1⟩) := by
  have hread := readSymbol_append (bitsMSB v.toNat 8) 0 (cur + 1) rest i n
  rw [length_bitsMSB, valMSB_bitsMSB, Nat.mod_eq_of_lt v.isLt, Nat.mul_zero, Nat.zero_add] at hread
  simp [parseNode, hread]

theorem parseNode_cutLeaf {cut : Bits} (hcut : cut.length < 8) :
    parseNode (fuel + 1) ⟨cur, true :: cut, i, n⟩ = .error (.treeTrunc, sat32 (cur + 1 + cut.length)) := by
  simp [parseNode, readSymbol_cut hcut]

theorem parseNode_tooLarge (hi : i = 255) :
    parseNode (fuel + 1) ⟨cur, false :: rest, i, n⟩ = .error (.treeTooLarge, sat32 cur) := by
  subst hi
  rfl

theorem parseNode_node_of_left_error {e : CmdError × Word} (hi : i < 255)
    (hl : parseNode fuel ⟨cur + 1, rest, i + 1, n⟩ = .error e) :
    parseNode (fuel + 1) ⟨cur, false :: rest, i, n⟩ = .error e := by
  have hroom : ¬ Config.maxInternal < i + 1 := Nat.not_lt.mpr hi
  simp only [parseNode, readTreeBit_cons, if_neg hroom, hl]

theorem parseNode_node_of_left_ok {l : Machine.Tree} {st : ParseState} (hi : i < 255)
    (hl : parseNode fuel ⟨cur + 1, rest, i + 1, n⟩ = .ok (l, st)) :
    parseNode (fuel + 1) ⟨cur, false :: rest, i, n⟩ =
      (fun right => (.node l right.1, right.2)) <$> parseNode fuel st := by
  have hroom : ¬ Config.maxInternal < i + 1 := Nat.not_lt.mpr hi
  simp only [parseNode, readTreeBit_cons, if_neg hroom, hl]
  cases parseNode fuel st <;> rfl

/-- R150, R151: the parser reads a serialized tree back, with the rest of the bits left, when its internal nodes leave the
count at 255 or below. -/
theorem parseNode_serialize {t : Machine.Tree} (hfuel : internalCount t < fuel) (hi : i + internalCount t ≤ 255) :
    parseNode fuel ⟨cur, serialize t ++ rest, i, n⟩ =
      .ok (t, ⟨cur + (serialize t).length, rest, i + internalCount t, n + leafCount t⟩) := by
  induction t generalizing fuel cur i n rest with
  | leaf v =>
    obtain ⟨fuel, rfl⟩ := Nat.exists_eq_succ_of_ne_zero (Nat.ne_zero_of_lt hfuel)
    simp [serialize, parseNode_leaf, internalCount, leafCount]
  | node l r ihl ihr =>
    obtain ⟨fuel, rfl⟩ := Nat.exists_eq_succ_of_ne_zero (Nat.ne_zero_of_lt hfuel)
    simp only [internalCount] at hfuel hi
    have hl := ihl (fuel := fuel) (cur := cur + 1) (i := i + 1) (n := n) (rest := serialize r ++ rest)
      (by omega) (by omega)
    rw [serialize, List.cons_append, List.append_assoc, parseNode_node_of_left_ok (by omega) hl,
      ihr (by omega) (by omega), Except.map_ok]
    simp only [internalCount, leafCount, List.length_cons, List.length_append]
    congr 3 <;> omega

end Parser

theorem parseTree_of_body {B : List Byte} {t : Machine.Tree} {rest : Bits} (ht : internalCount t ≤ 255)
    (hbody : bodyBits (unpack B) = serialize t ++ rest) :
    parseTree B = .ok (t, ⟨3 + (serialize t).length, rest, internalCount t, leafCount t⟩) := by
  have hparse := parseNode_serialize (fuel := 256) (cur := 3) (i := 0) (n := 0) (rest := rest) (t := t)
    (by omega) (by omega)
  rw [Nat.zero_add, Nat.zero_add] at hparse
  rw [parseTree, hbody]
  exact hparse

/-! ### Open trees, token by token (30_encoding.md R92) -/

/-- The nodes of a tree in preorder, as the tokens of `tokenBits`. -/
def treeTokens : Machine.Tree → List (Option Byte)
  | .leaf v => [some v]
  | .node l r => none :: (treeTokens l ++ treeTokens r)

@[simp] theorem tokenBits_nil : tokenBits [] = [] := rfl

@[simp] theorem tokenBits_none_cons (ts : List (Option Byte)) : tokenBits (none :: ts) = false :: tokenBits ts := rfl

@[simp] theorem tokenBits_some_cons (v : Byte) (ts : List (Option Byte)) :
    tokenBits (some v :: ts) = true :: (bitsMSB v.toNat 8 ++ tokenBits ts) := rfl

@[simp] theorem tokenBits_append (ts us : List (Option Byte)) : tokenBits (ts ++ us) = tokenBits ts ++ tokenBits us :=
  List.flatMap_append

theorem tokenBits_treeTokens (t : Machine.Tree) : tokenBits (treeTokens t) = serialize t := by
  induction t with
  | leaf v => simp [treeTokens, serialize]
  | node l r ihl ihr => simp [treeTokens, serialize, ihl, ihr]

theorem count_treeTokens (t : Machine.Tree) : (treeTokens t).count none = internalCount t := by
  induction t with
  | leaf v => rfl
  | node l r ihl ihr => simp [treeTokens, internalCount, ihl, ihr]

theorem countP_treeTokens (t : Machine.Tree) : (treeTokens t).countP (·.isSome) = leafCount t := by
  induction t with
  | leaf v => rfl
  | node l r ihl ihr => simp [treeTokens, leafCount, ihl, ihr]

/-- The tokens of a tree still open, by where they stop: before the root, in the root's left subtree, or in its right one
with the left one whole. -/
inductive OpenTokens : List (Option Byte) → Prop
  | root : OpenTokens []
  | left (ts : List (Option Byte)) (h : OpenTokens ts) : OpenTokens (none :: ts)
  | right (l : Machine.Tree) (ts : List (Option Byte)) (h : OpenTokens ts) : OpenTokens (none :: (treeTokens l ++ ts))

/-- Tokens either leave a tree open or begin with a whole one. -/
theorem openTokens_or_tree (ts : List (Option Byte)) : OpenTokens ts ∨ ∃ t us, ts = treeTokens t ++ us := by
  induction hlength : ts.length using Nat.strong_induction_on generalizing ts with
  | _ length ih =>
    subst hlength
    match ts with
    | [] => exact .inl .root
    | some v :: us => exact .inr ⟨.leaf v, us, rfl⟩
    | none :: us =>
      obtain hleft | ⟨l, vs, rfl⟩ := ih us.length (Nat.lt_succ_self _) us rfl
      · exact .inl (.left us hleft)
      · have hshort : vs.length < (none :: (treeTokens l ++ vs)).length := by
          rw [List.length_cons, List.length_append]
          omega
        obtain hright | ⟨r, ws, rfl⟩ := ih vs.length hshort vs rfl
        · exact .inl (.right l vs hright)
        · exact .inr ⟨.node l r, ws, by simp [treeTokens]⟩

/-- A whole tree has one leaf more than internal nodes (R93), so tokens that `treeOpen` admits begin with none. -/
theorem openTokens_of_treeOpen {ts : List (Option Byte)} (h : treeOpen ts) : OpenTokens ts := by
  refine (openTokens_or_tree ts).resolve_right ?_
  rintro ⟨t, us, rfl⟩
  have hcounts := h (treeTokens t).length (by simp)
  rw [List.take_left, countP_treeTokens, count_treeTokens, leafCount_eq_internalCount] at hcounts
  omega

/-- R150: what the parser raises at the end of an open tree's tokens, it raises for the tree. -/
theorem parseNode_open {ts : List (Option Byte)} (hopen : OpenTokens ts) {fuel cur i n : Nat} {tail : Bits}
    {e : CmdError × Word} (hfuel : ts.count none < fuel) (hi : i + ts.count none ≤ 255)
    (htail : ∀ fuel' n', parseNode (fuel' + 1) ⟨cur + (tokenBits ts).length, tail, i + ts.count none, n'⟩ = .error e) :
    parseNode fuel ⟨cur, tokenBits ts ++ tail, i, n⟩ = .error e := by
  induction hopen generalizing fuel cur i n with
  | root =>
    obtain ⟨fuel, rfl⟩ := Nat.exists_eq_succ_of_ne_zero (Nat.ne_zero_of_lt hfuel)
    exact htail fuel n
  | left ts h ih =>
    obtain ⟨fuel, rfl⟩ := Nat.exists_eq_succ_of_ne_zero (Nat.ne_zero_of_lt hfuel)
    rw [List.count_cons_self] at hfuel hi
    refine parseNode_node_of_left_error (by omega) (ih (by omega) (by omega) fun fuel' n' => ?_)
    convert htail fuel' n' using 3
    · rw [tokenBits_none_cons, List.length_cons]
      omega
    · rw [List.count_cons_self]
      omega
  | right l ts h ih =>
    obtain ⟨fuel, rfl⟩ := Nat.exists_eq_succ_of_ne_zero (Nat.ne_zero_of_lt hfuel)
    simp only [List.count_cons_self, List.count_append, count_treeTokens] at hfuel hi
    have hl := parseNode_serialize (t := l) (fuel := fuel) (cur := cur + 1) (i := i + 1) (n := n)
      (rest := tokenBits ts ++ tail) (by omega) (by omega)
    rw [tokenBits_none_cons, tokenBits_append, tokenBits_treeTokens, List.cons_append, List.append_assoc,
      parseNode_node_of_left_ok (by omega) hl, ih (by omega) (by omega), Except.map_error]
    intro fuel' n'
    convert htail fuel' n' using 3
    · simp only [tokenBits_none_cons, tokenBits_append, tokenBits_treeTokens, List.length_cons, List.length_append]
      omega
    · simp only [List.count_cons_self, List.count_append, count_treeTokens]
      omega

theorem parseTree_of_open {B : List Byte} {ts : List (Option Byte)} {tail : Bits} {e : CmdError × Word} (hopen : treeOpen ts)
    (hle : ts.count none ≤ 255) (hbody : bodyBits (unpack B) = tokenBits ts ++ tail)
    (htail : ∀ fuel n, parseNode (fuel + 1) ⟨3 + (tokenBits ts).length, tail, ts.count none, n⟩ = .error e) :
    parseTree B = .error e := by
  rw [parseTree, hbody]
  exact parseNode_open (openTokens_of_treeOpen hopen) (Nat.lt_succ_of_le hle) (by omega) (by simpa using htail)

/-! ### The symbol mapper (R152) -/

/-- The subtree that a path leads to, 0 to the left and 1 to the right; none where it leads past a leaf. -/
def subtreeAt : Machine.Tree → Bits → Option Machine.Tree
  | t, [] => some t
  | .leaf _, _ :: _ => none
  | .node l r, b :: path => subtreeAt (if b then r else l) path

theorem subtreeAt_append (t : Machine.Tree) (path path' : Bits) :
    subtreeAt t (path ++ path') = (subtreeAt t path).bind fun u => subtreeAt u path' := by
  induction path generalizing t with
  | nil => simp [subtreeAt]
  | cons b path ih =>
    cases t with
    | leaf v => rfl
    | node l r => exact ih _

/-- R135: below the path to the node the walk started at, the code of a leaf is a path that leads to it. -/
theorem subtreeAt_of_mem_walkCodes {t : Machine.Tree} {path : Bits} {e : Byte × Bits} (he : e ∈ walkCodes t path) :
    ∃ code, e.2 = path ++ code ∧ subtreeAt t code = some (.leaf e.1) := by
  induction t generalizing path with
  | leaf v =>
    cases List.mem_singleton.mp he
    exact ⟨[], by simp, rfl⟩
  | node l r ihl ihr =>
    obtain he | he := List.mem_append.mp he
    · obtain ⟨code, hcode, hleaf⟩ := ihl he
      exact ⟨false :: code, by simp [hcode], hleaf⟩
    · obtain ⟨code, hcode, hleaf⟩ := ihr he
      exact ⟨true :: code, by simp [hcode], hleaf⟩

theorem subtreeAt_code {l r : Machine.Tree} {e : Byte × Bits} (he : e ∈ codeTable (.node l r)) :
    subtreeAt (.node l r) e.2 = some (.leaf e.1) := by
  obtain ⟨code, hcode, hleaf⟩ := subtreeAt_of_mem_walkCodes (path := []) he
  rwa [hcode]

/-- A proper part of a code leads to an internal node. -/
theorem subtreeAt_cut {l r : Machine.Tree} {e : Byte × Bits} {cut : Bits} (he : e ∈ codeTable (.node l r))
    (hprefix : cut <+: e.2) (hne : cut ≠ e.2) : ∃ l' r', subtreeAt (.node l r) cut = some (.node l' r') := by
  obtain ⟨more, hmore⟩ := hprefix
  have hcode := subtreeAt_code he
  rw [← hmore, subtreeAt_append] at hcode
  match subtreeAt (.node l r) cut, more, hcode with
  | some (.node l' r'), _, _ => exact ⟨l', r', rfl⟩
  | some (.leaf v), [], _ => exact absurd (by simpa using hmore) hne

/-- The walk at any node under the root with the children l and r: at a leaf it emits the symbol and restarts, at an
internal node it goes on. -/
def walkAt (l r : Machine.Tree) (cur : Nat) (rest : Bits) : Machine.Tree → Except (CmdError × Word) (List Byte)
  | .leaf v => (v :: ·) <$> mapSymbols (.node l r) cur rest
  | .node l' r' => mapWalk l r false l' r' cur rest

theorem mapWalk_cons (l r l' r' : Machine.Tree) (between : Bool) (cur : Nat) (b : Bool) (rest : Bits) :
    mapWalk l r between l' r' cur (b :: rest) = walkAt l r (cur + 1) rest (if b then r' else l') := by
  rw [mapWalk]
  cases (if b then r' else l') with
  | leaf v =>
    show _ = _ <$> mapWalk l r true l r (cur + 1) rest
    cases mapWalk l r true l r (cur + 1) rest <;> rfl
  | node l'' r'' => rfl

theorem walkAt_append {l r t u : Machine.Tree} {cur : Nat} {path : Bits} (h : subtreeAt t path = some u) (rest : Bits) :
    walkAt l r cur (path ++ rest) t = walkAt l r (cur + path.length) rest u := by
  induction path generalizing t cur with
  | nil =>
    cases h
    rfl
  | cons b path ih =>
    cases t with
    | leaf v => cases h
    | node l' r' =>
      rw [List.cons_append, walkAt, mapWalk_cons, ih h, List.length_cons]
      congr 1
      omega

/-- From the root, a path that is not empty leads the mapper to the node at its end. -/
theorem mapSymbols_path {l r u : Machine.Tree} {path : Bits} (hne : path ≠ [])
    (h : subtreeAt (.node l r) path = some u) (cur : Nat) (rest : Bits) :
    mapSymbols (.node l r) cur (path ++ rest) = walkAt l r (cur + path.length) rest u := by
  match path, hne with
  | b :: path, _ =>
    rw [← walkAt_append h, List.cons_append, mapSymbols, walkAt, mapWalk_cons, mapWalk_cons]

theorem mapSymbols_nil (t : Machine.Tree) (cur : Nat) : mapSymbols t cur [] = .ok [] := by cases t <;> rfl

theorem mapSymbols_leaf_false (v : Byte) (cur : Nat) (rest : Bits) :
    mapSymbols (.leaf v) cur (false :: rest) = (v :: ·) <$> mapSymbols (.leaf v) (cur + 1) rest := by
  show mapSingleLeaf v cur (false :: rest) = _ <$> mapSingleLeaf v (cur + 1) rest
  rw [mapSingleLeaf]
  cases mapSingleLeaf v (cur + 1) rest <;> rfl

/-- D26: a 1 bit is no code of a one-leaf tree. -/
theorem mapSymbols_leaf_true (v : Byte) (cur : Nat) (rest : Bits) :
    mapSymbols (.leaf v) cur (true :: rest) = .error (.singleLeafBit1, sat32 cur) := rfl

/-- The code of a leaf gives its symbol, whatever the tree. -/
theorem mapSymbols_code {t : Machine.Tree} {e : Byte × Bits} (he : e ∈ codeTable t) (cur : Nat) (rest : Bits) :
    mapSymbols t cur (e.2 ++ rest) = (e.1 :: ·) <$> mapSymbols t (cur + e.2.length) rest := by
  cases t with
  | leaf v =>
    cases List.mem_singleton.mp he
    exact mapSymbols_leaf_false v cur rest
  | node l r =>
    have hleaf := subtreeAt_code he
    have hne : e.2 ≠ [] := by
      intro hnil
      rw [hnil] at hleaf
      cases hleaf
    exact mapSymbols_path hne hleaf cur rest

/-- Whole codes give their symbols, and the mapper goes on behind them. -/
theorem mapSymbols_codes {t : Machine.Tree} {es : List (Byte × Bits)} (hes : ∀ e ∈ es, e ∈ codeTable t) (cur : Nat)
    (rest : Bits) :
    mapSymbols t cur (es.flatMap (·.2) ++ rest) =
      (es.map (·.1) ++ ·) <$> mapSymbols t (cur + (es.flatMap (·.2)).length) rest := by
  induction es generalizing cur with
  | nil => exact (id_map _).symm
  | cons e es ih =>
    obtain ⟨he, hes⟩ := List.forall_mem_cons.mp hes
    rw [List.flatMap_cons, List.append_assoc, mapSymbols_code he, ih hes, Functor.map_map, List.length_append,
      Nat.add_assoc]
    rfl

/-- A payload that ends inside a code is reported at its end (R152). -/
theorem mapSymbols_cut {t : Machine.Tree} {e : Byte × Bits} {cut : Bits} (he : e ∈ codeTable t) (hne : cut ≠ [])
    (hprefix : cut <+: e.2) (hproper : cut ≠ e.2) (cur : Nat) :
    mapSymbols t cur cut = .error (.codeTrunc, sat32 (cur + cut.length)) := by
  cases t with
  | leaf v =>
    cases List.mem_singleton.mp he
    obtain h | h := List.prefix_cons_iff.mp hprefix
    · exact absurd h hne
    · obtain ⟨rest, rfl, hrest⟩ := h
      exact absurd (by rw [List.prefix_nil.mp hrest]) hproper
  | node l r =>
    obtain ⟨l', r', hnode⟩ := subtreeAt_cut he hprefix hproper
    have := mapSymbols_path hne hnode cur []
    rw [List.append_nil] at this
    rw [this]
    rfl

theorem length_mapSingleLeaf_le {v : Byte} {cur : Nat} {rest : Bits} {out : List Byte}
    (h : mapSingleLeaf v cur rest = .ok out) : out.length ≤ rest.length := by
  induction rest generalizing cur out with
  | nil =>
    cases h
    exact Nat.le_refl _
  | cons b rest ih =>
    unfold mapSingleLeaf at h
    split at h
    · cases h
    · split at h
      · cases h
      · rename_i hmore
        cases h
        exact Nat.succ_le_succ (ih hmore)

theorem length_mapWalk_le {l r l' r' : Machine.Tree} {between : Bool} {cur : Nat} {rest : Bits} {out : List Byte}
    (h : mapWalk l r between l' r' cur rest = .ok out) : out.length ≤ rest.length := by
  induction rest generalizing between l' r' cur out with
  | nil =>
    unfold mapWalk at h
    split at h <;> cases h
    exact Nat.le_refl _
  | cons b rest ih =>
    unfold mapWalk at h
    split at h
    · exact (ih h).trans (Nat.le_succ _)
    · split at h
      · cases h
      · rename_i hmore
        cases h
        exact Nat.succ_le_succ (ih hmore)

/-- R162: every symbol takes at least one bit. -/
theorem length_mapSymbols_le {t : Machine.Tree} {cur : Nat} {rest : Bits} {out : List Byte}
    (h : mapSymbols t cur rest = .ok out) : out.length ≤ rest.length := by
  cases t with
  | leaf v => exact length_mapSingleLeaf_le h
  | node l r => exact length_mapWalk_le h

/-! ### The round trip (O49) -/

theorem map_fst_walkCodes (t : Machine.Tree) (path : Bits) : (walkCodes t path).map (·.1) = leafSymbols t := by
  induction t generalizing path with
  | leaf v => rfl
  | node l r ihl ihr => rw [walkCodes, List.map_append, ihl, ihr, leafSymbols]

theorem map_fst_codeTable (t : Machine.Tree) : (codeTable t).map (·.1) = leafSymbols t := by
  cases t with
  | leaf v => rfl
  | node l r => exact map_fst_walkCodes (.node l r) []

/-- A symbol of a table is listed with its code. -/
theorem codeOf_mem {table : List (Byte × Bits)} {b : Byte} (hb : b ∈ table.map (·.1)) : (b, codeOf table b) ∈ table := by
  obtain ⟨e, he, rfl⟩ := List.mem_map.mp hb
  obtain ⟨code, hcode⟩ := Option.isSome_iff_exists.mp (List.lookup_isSome_iff.mpr ⟨e, he, beq_self_eq_true _⟩)
  obtain ⟨before, after, htable, -⟩ := List.lookup_eq_some_iff.mp hcode
  rw [codeOf, hcode, Option.getD_some, htable]
  exact List.mem_append_right _ List.mem_cons_self

/-- R94: each symbol of the input has its code in the table of the input's tree. -/
theorem codeOf_mem_codeTable {B : List Byte} {b : Byte} (hb : b ∈ B) :
    (b, codeOf (codeTable (huffTree B)) b) ∈ codeTable (huffTree B) := by
  refine codeOf_mem ?_
  rw [map_fst_codeTable, mem_leafSymbols_huffTree (List.ne_nil_of_mem hb)]
  exact hb

/-- R161: the mapper takes the payload back to the input. -/
theorem mapSymbols_payloadBits (B : List Byte) (cur : Nat) :
    mapSymbols (huffTree B) cur (payloadBits (codeTable (huffTree B)) B) = .ok B := by
  have hcodes : ∀ e ∈ B.map (fun b => (b, codeOf (codeTable (huffTree B)) b)), e ∈ codeTable (huffTree B) :=
    List.forall_mem_map.mpr fun _ => codeOf_mem_codeTable
  have hmap := mapSymbols_codes hcodes cur []
  rw [List.append_nil, List.flatMap_map, mapSymbols_nil, Except.map_ok, List.append_nil, List.map_map] at hmap
  exact hmap.trans (congrArg Except.ok (List.map_id B))

theorem internalCount_huffTree_le (B : List Byte) : internalCount (huffTree B) ≤ 255 := by
  have hleaves := leafCount_huffTree B
  have hle := length_leafSet_le B
  rw [leafCount_eq_internalCount] at hleaves
  omega

/-- R91: a written stream's padding field is the number of its padding bits. -/
theorem padField_writeStream (treeBits payload : Bits) :
    valMSB ((unpack (writeStream treeBits payload).1).take 3) = (writeStream treeBits payload).2 := by
  obtain ⟨-, -, -, -, -, -, hfield⟩ := streamIsPaddedToWholeBytes treeBits payload
  exact hfield

/-- R149: the limit of a written stream is the end of its payload. -/
theorem bodyBits_writeStream (treeBits payload : Bits) :
    bodyBits (unpack (writeStream treeBits payload).1) = treeBits ++ payload := by
  have hlimit : (unpack (writeStream treeBits payload).1).length - (writeStream treeBits payload).2 =
      (bitsMSB (writeStream treeBits payload).2 3 ++ (treeBits ++ payload)).length := by
    simp only [unpack_writeStream, List.length_append, length_bitsMSB, List.length_replicate]
    omega
  rw [bodyBits, padField_writeStream, hlimit, unpack_writeStream, List.append_assoc (bitsMSB _ 3), List.take_left,
    List.drop_left' (length_bitsMSB _ 3)]

theorem writeStream_ne_nil (treeBits payload : Bits) : (writeStream treeBits payload).1 ≠ [] := by
  have hlength := length_writeStream treeBits payload
  exact List.ne_nil_of_length_pos (by omega)

/-- Settles O49: the parser reads exactly the tree field, the mapper exactly the payload. -/
theorem huffmanRoundTrip : Obligations.HuffmanRoundTrip := by
  intro B
  have hparse := parseTree_of_body (internalCount_huffTree_le B)
    (bodyBits_writeStream (serialize (huffTree B)) (payloadBits (codeTable (huffTree B)) B))
  refine ⟨_, _, rfl, huffDecode_eq_ok_iff.mpr
    ⟨writeStream_ne_nil _ _, _, _, hparse, mapSymbols_payloadBits B _, ?_⟩⟩
  rw [padField_writeStream, Nat.add_sub_cancel_left, leafCount_huffTree]

/-! ### A command that is ready completes (O26) -/

/-- Settles O26: the stream's parts make HuffDec succeed, and the next state is its completion. -/
theorem huffDecCompletes : Obligations.HuffDecCompletes := by
  intro ob s root st out hready bits p hheader hparse hmap hroom
  have hB : sourceBytes s ≠ [] := by
    intro hnil
    simp only [bits, hnil, unpack_nil, List.length_nil] at hheader
    omega
  exact exec_ready (i := .huffDec ob) rfl hready (huffDecode_eq_ok_iff.mpr ⟨hB, root, st, hparse, hmap, rfl⟩) hroom

/-! ### What a stream that decodes reports (O50) -/

/-- R154: a tree that parses has at most 256 leaves, and the parse reports its field, its leaves and the rest. -/
theorem parseTree_eq_ok {B : List Byte} {root : Machine.Tree} {st : ParseState} (h : parseTree B = .ok (root, st)) :
    bodyBits (unpack B) = serialize root ++ st.rest ∧ st.cur = 3 + (serialize root).length ∧
      st.nleaves = leafCount root ∧ leafCount root ≤ 256 := by
  obtain ⟨⟨hrest, hcur, hnint, hnleaves⟩, hle⟩ := parseNode_reads h
  have hmax : st.nint ≤ 255 := hle (Nat.zero_le _)
  have hroot := leafCount_eq_internalCount root
  rw [Nat.zero_add] at hnint hnleaves
  exact ⟨hrest, hcur, hnleaves, by omega⟩

/-- Settles O50: the body is the tree's field and the payload, and the payload has a bit for each symbol. -/
theorem decodedStreamsReportTheirTree : Obligations.DecodedStreamsReportTheirTree := by
  intro B out hinfo h
  obtain ⟨-, root, st, hparse, hmap, rfl⟩ := huffDecode_eq_ok_iff.mp h
  obtain ⟨hbody, hcur, hnleaves, hmax⟩ := parseTree_eq_ok hparse
  have hroot := leafCount_eq_internalCount root
  have hout := length_mapSymbols_le hmap
  have hlength := congrArg List.length hbody
  rw [length_bodyBits_unpack, List.length_append, length_serialize] at hlength
  refine ⟨⟨leafCount root, by omega, hmax, ?_, by omega⟩, by omega⟩
  rw [hcur, hnleaves, length_serialize, Nat.add_sub_cancel_left]
  rfl

/-! ### Every failure with its index (O51) -/

section Failures
variable {B : List Byte} (hB : B ≠ [])
include hB

/-- TREE_TRUNC: the body ends in an open tree, between two nodes or inside a leaf. -/
theorem huffDecode_treeTrunc {ts : List (Option Byte)} (hopen : treeOpen ts) (hle : ts.count none ≤ 255)
    (hbody : bodyBits (unpack B) = tokenBits ts ∨
      ∃ cut, cut.length < 8 ∧ bodyBits (unpack B) = tokenBits ts ++ true :: cut) :
    huffDecode B = .error (.treeTrunc, sat32 (3 + (bodyBits (unpack B)).length)) := by
  refine huffDecode_of_parse_error hB ?_
  obtain hbody | ⟨cut, hcut, hbody⟩ := hbody
  · rw [hbody]
    exact parseTree_of_open (tail := []) hopen hle (by rw [hbody, List.append_nil]) fun _ _ => parseNode_nil
  · refine parseTree_of_open hopen hle hbody fun _ _ => ?_
    rw [parseNode_cutLeaf hcut, hbody, List.length_append, List.length_cons]
    congr 3
    omega

/-- TREE_TOO_LARGE: the bit of the 256th internal node of a tree still open. -/
theorem huffDecode_treeTooLarge {ts : List (Option Byte)} (hopen : treeOpen ts) (hcount : ts.count none = 255) {rest : Bits}
    (hbody : bodyBits (unpack B) = tokenBits ts ++ false :: rest) :
    huffDecode B = .error (.treeTooLarge, sat32 (3 + (tokenBits ts).length)) :=
  huffDecode_of_parse_error hB
    (parseTree_of_open hopen hcount.le hbody fun _ _ => parseNode_tooLarge hcount)

/-- Whole codes after a whole tree: what HuffDec gives is theirs and what the mapper gives for the bits behind them. -/
theorem huffDecode_codes {t : Machine.Tree} {es : List (Byte × Bits)} {cut : Bits} (ht : internalCount t ≤ 255)
    (hes : ∀ e ∈ es, e ∈ codeTable t) (hbody : bodyBits (unpack B) = serialize t ++ es.flatMap (·.2) ++ cut) :
    ∃ hinfo, huffDecode B = (fun out => (es.map (·.1) ++ out, hinfo)) <$>
      mapSymbols t (3 + (serialize t).length + (es.flatMap (·.2)).length) cut := by
  rw [List.append_assoc] at hbody
  rw [huffDecode_of_parse_ok hB (parseTree_of_body ht hbody), mapSymbols_codes hes, Functor.map_map]
  exact ⟨_, rfl⟩

/-- SINGLE_LEAF_BIT1: the first 1 bit after a one-leaf tree. -/
theorem huffDecode_singleLeafBit1 {v : Byte} {n : Nat} {rest : Bits}
    (hbody : bodyBits (unpack B) = serialize (.leaf v) ++ List.replicate n false ++ true :: rest) :
    huffDecode B = .error (.singleLeafBit1, sat32 (12 + n)) := by
  have hcodes : (List.replicate n (v, [false])).flatMap (·.2) = List.replicate n false := by
    rw [List.flatMap_replicate]
    simp
  obtain ⟨hinfo, h⟩ := huffDecode_codes hB (t := .leaf v) (es := List.replicate n (v, [false])) (Nat.zero_le _)
    (fun e he => List.mem_singleton.mpr (List.eq_of_mem_replicate he)) (by rw [hcodes]; exact hbody)
  rw [h, mapSymbols_leaf_true, Except.map_error, hcodes, length_serialize, List.length_replicate]
  rfl

/-- CODE_TRUNC: whole codes, then a part of one; the end of the body. -/
theorem huffDecode_codeTrunc {t : Machine.Tree} {es : List (Byte × Bits)} {cut : Bits} {e : Byte × Bits}
    (ht : internalCount t ≤ 255) (hes : ∀ e ∈ es, e ∈ codeTable t)
    (hbody : bodyBits (unpack B) = serialize t ++ es.flatMap (·.2) ++ cut) (hne : cut ≠ []) (he : e ∈ codeTable t)
    (hprefix : cut <+: e.2) (hproper : cut ≠ e.2) :
    huffDecode B = .error (.codeTrunc, sat32 (8 * B.length - valMSB ((unpack B).take 3))) := by
  obtain ⟨hinfo, h⟩ := huffDecode_codes hB ht hes hbody
  have hlength := congrArg List.length hbody
  have hpos := List.length_pos_iff.mpr hne
  rw [length_bodyBits_unpack, List.length_append, List.length_append] at hlength
  rw [h, mapSymbols_cut he hne hprefix hproper, Except.map_error]
  congr 3
  omega

end Failures

/-- Settles O51: each failure by its lemma above, and the success of whole codes beside them. -/
theorem decoderRejectsShortAndOversizedTrees : Obligations.DecoderRejectsShortAndOversizedTrees := by
  intro B E body failsAt
  have hbodyBits : bodyBits (unpack B) = body := bodyBits_unpack B
  refine ⟨fun _ => huffDecode_hdrShort_iff, fun hB ts hopen => ⟨fun hle hbody => ?_, fun hcount rest hbody => ?_⟩,
    fun hB v n rest hbody => ?_, fun hB t es cut ht hes hbody => ?_⟩ <;> rw [← hbodyBits] at hbody
  · rw [← hbodyBits]
    exact huffDecode_treeTrunc hB hopen hle hbody
  · exact huffDecode_treeTooLarge hB hopen hcount hbody
  · exact huffDecode_singleLeafBit1 hB hbody
  · refine ⟨?_, fun hne ⟨e, he, hprefix, hproper⟩ => huffDecode_codeTrunc hB ht hes hbody hne he hprefix hproper⟩
    rintro rfl
    obtain ⟨hinfo, h⟩ := huffDecode_codes hB ht hes hbody
    rw [mapSymbols_nil, Except.map_ok, List.append_nil] at h
    exact ⟨hinfo, h⟩

end Sys2Proof.Proofs

/-! Proofs for 43_lz77_encode.md: the match length of a candidate (R166), the loop over the candidates and what it picks
(R167), the walk over suffixes against the rule's loop over indices (R171, R172), the two forms of triple (R169, R173), the
round trip (R178) and the completion of LZ77_ENC. -/

namespace Sys2Proof.Proofs
open Sys2Proof.Machine

/-! ### The match length of a candidate (R166) -/

theorem indexMatchLength_succ (data : List Byte) (p i cap : Nat) :
    indexMatchLength data p i (cap + 1) =
      if data[p]? = data[i]? then indexMatchLength data (p + 1) (i + 1) cap + 1 else 0 := by
  by_cases hbyte : data[p]? = data[i]?
  · simp [indexMatchLength, List.range_succ_eq_map, List.takeWhile_map, Function.comp_def, hbyte, Nat.add_assoc,
      Nat.add_comm 1]
  · simp [indexMatchLength, List.range_succ_eq_map, hbyte]

theorem indexMatchLength_le (data : List Byte) (p i cap : Nat) : indexMatchLength data p i cap ≤ cap := by
  simpa [indexMatchLength] using (List.takeWhile_sublist _).length_le (l₂ := List.range cap)

/-- A candidate matches at least the byte at hand, where a byte may be matched at all. -/
theorem indexMatchLength_pos {data : List Byte} {p i cap : Nat} (hcap : 0 < cap) (hbyte : data[p]? = data[i]?) :
    0 < indexMatchLength data p i cap := by
  obtain ⟨cap, rfl⟩ := Nat.exists_eq_add_one.mpr hcap
  rw [indexMatchLength_succ, if_pos hbyte]
  exact Nat.succ_pos _

/-- Below the match length the bytes agree. -/
theorem getElem?_of_lt_indexMatchLength {data : List Byte} {p i cap j : Nat} (h : j < indexMatchLength data p i cap) :
    data[p + j]? = data[i + j]? := by
  induction cap generalizing p i j with
  | zero => exact absurd (h.trans_le (indexMatchLength_le data p i 0)) (Nat.not_lt_zero j)
  | succ cap ih =>
    rw [indexMatchLength_succ] at h
    split at h
    · next hhead =>
      cases j with
      | zero => exact hhead
      | succ j => simpa only [Nat.add_assoc, Nat.add_comm 1] using ih (Nat.lt_of_succ_lt_succ h)
    · exact absurd h (Nat.not_lt_zero j)

/-- Within the input, the match length of two suffixes is that of the positions where they start. -/
theorem matchLength_drop {data : List Byte} {p i cap : Nat} (h : i + cap ≤ data.length) :
    matchLength cap (data.drop p) (data.drop i) = indexMatchLength data p i cap := by
  induction cap generalizing p i with
  | zero => rfl
  | succ cap ih =>
    have hi : i < data.length := by omega
    rw [indexMatchLength_succ, List.drop_eq_getElem_cons hi, List.getElem?_eq_getElem hi]
    by_cases hp : p < data.length
    · rw [List.drop_eq_getElem_cons hp, List.getElem?_eq_getElem hp, matchLength, ih (by omega)]
      simp only [Option.some.injEq]
    · rw [List.drop_of_length_le (by omega), List.getElem?_eq_none (by omega)]
      rfl

/-! ### The loop over the candidates (R165, R167) -/

theorem mem_candidates {data : List Byte} {i wmax p : Nat} :
    p ∈ candidates data i wmax ↔ p < i ∧ data[p]? = data[i]? ∧ i - p ≤ wmax := by
  simp only [candidates, List.mem_filter, List.mem_map, List.mem_range, beq_iff_eq]
  constructor
  · rintro ⟨⟨d, hd, rfl⟩, hbyte⟩
    exact ⟨by omega, hbyte, by omega⟩
  · rintro ⟨hp, hbyte, hdist⟩
    exact ⟨⟨i - 1 - p, by omega, by omega⟩, hbyte⟩

/-- The candidates stand nearest first. -/
theorem candidates_descending (data : List Byte) (i wmax : Nat) : (candidates data i wmax).Pairwise (· > ·) := by
  refine (List.pairwise_map.mpr (List.pairwise_lt_range.imp_of_mem ?_)).filter _
  intro a b ha hb hab
  have := List.mem_range.mp hb
  omega

/-- Of the positions `ps`, none matches longer than `p`, and none that matches as long is nearer (R167). -/
def NearestLongest (data : List Byte) (i cap : Nat) (ps : List Nat) (p : Nat) : Prop :=
  ∀ q ∈ ps, indexMatchLength data q i cap ≤ indexMatchLength data p i cap ∧
    (indexMatchLength data q i cap = indexMatchLength data p i cap → q ≤ p)

/-- Of positions that stand nearest first, the loop keeps the best so far unless some match longer; then it takes the
longest, and the nearest of these. -/
theorem indexScan_cases (data : List Byte) (i cap : Nat) {ps : List Nat} (hps : ps.Pairwise (· > ·)) (best : Nat × Nat) :
    (indexScan data i cap best ps = best ∧ ∀ p ∈ ps, indexMatchLength data p i cap ≤ best.1) ∨
      ∃ p ∈ ps, indexScan data i cap best ps = (indexMatchLength data p i cap, i - p) ∧
        best.1 < indexMatchLength data p i cap ∧ NearestLongest data i cap ps p := by
  induction ps generalizing best with
  | nil => exact .inl ⟨rfl, nofun⟩
  | cons p ps ih =>
    obtain ⟨hfar, hps⟩ := List.pairwise_cons.mp hps
    by_cases hp : best.1 < indexMatchLength data p i cap
    · have hstep : indexScan data i cap best (p :: ps) = indexScan data i cap (indexMatchLength data p i cap, i - p) ps := by
        simp only [indexScan, List.foldl_cons, if_pos hp]
      rw [hstep]
      obtain ⟨hkeep, hle⟩ | ⟨q, hq, htake, hlt, hbest⟩ := ih hps (indexMatchLength data p i cap, i - p)
      · refine .inr ⟨p, List.mem_cons_self, hkeep, hp, List.forall_mem_cons.mpr ⟨⟨le_rfl, fun _ => le_rfl⟩, ?_⟩⟩
        exact fun q hq => ⟨hle q hq, fun _ => (hfar q hq).le⟩
      · refine .inr ⟨q, List.mem_cons_of_mem p hq, htake, hp.trans hlt, List.forall_mem_cons.mpr ⟨?_, hbest⟩⟩
        exact ⟨hlt.le, fun heq => absurd heq hlt.ne⟩
    · have hstep : indexScan data i cap best (p :: ps) = indexScan data i cap best ps := by
        simp only [indexScan, List.foldl_cons, if_neg hp]
      rw [hstep]
      have hple := Nat.le_of_not_lt hp
      obtain ⟨hkeep, hle⟩ | ⟨q, hq, htake, hlt, hbest⟩ := ih hps best
      · exact .inl ⟨hkeep, List.forall_mem_cons.mpr ⟨hple, hle⟩⟩
      · refine .inr ⟨q, List.mem_cons_of_mem p hq, htake, hlt, List.forall_mem_cons.mpr ⟨?_, hbest⟩⟩
        have hshort := hple.trans_lt hlt
        exact ⟨hshort.le, fun heq => absurd heq hshort.ne⟩

/-! ### The match at a position -/

/-- The bound on a match length at position `i` (R166): it leaves a byte for the literal. -/
def matchCap (data : List Byte) (ob i : Nat) : Nat := min (lengthMax ob) (data.length - 1 - i)

/-- R166: before the last byte, a match may be one byte long. -/
theorem matchCap_pos {data : List Byte} {ob i : Nat} (hob : ob ≤ 15) (hi : i + 1 < data.length) :
    0 < matchCap data ob i := by
  have hlmax : 1 < 2 ^ (16 - ob) := Nat.one_lt_two_pow (by omega)
  rw [matchCap, lengthMax]
  omega

/-- The loop's pair (best, off) as a match. -/
def matchOf (found : Nat × Nat) : Match := ⟨found.2, found.1⟩

/-- The match that the rule's loop finds at position `i` (R171). -/
def matchAt (data : List Byte) (ob i : Nat) : Match :=
  matchOf (indexScan data i (matchCap data ob i) (0, 0) (candidates data i (windowMax ob)))

/-- R167: no candidate matches, or the match is that of the nearest of the candidates that match longest. -/
theorem matchAt_cases (data : List Byte) (ob i : Nat) :
    (matchAt data ob i = ⟨0, 0⟩ ∧
        ∀ p ∈ candidates data i (windowMax ob), indexMatchLength data p i (matchCap data ob i) = 0) ∨
      ∃ p ∈ candidates data i (windowMax ob),
        matchAt data ob i = ⟨i - p, indexMatchLength data p i (matchCap data ob i)⟩ ∧
        0 < indexMatchLength data p i (matchCap data ob i) ∧
        NearestLongest data i (matchCap data ob i) (candidates data i (windowMax ob)) p := by
  obtain ⟨hkeep, hle⟩ | ⟨p, hp, htake, hpos, hbest⟩ :=
    indexScan_cases data i (matchCap data ob i) (candidates_descending data i (windowMax ob)) (0, 0)
  · exact .inl ⟨congrArg matchOf hkeep, fun p hp => Nat.le_zero.mp (hle p hp)⟩
  · exact .inr ⟨p, hp, congrArg matchOf htake, hpos, hbest⟩

theorem matchAt_length_le (data : List Byte) (ob i : Nat) : (matchAt data ob i).length ≤ matchCap data ob i := by
  obtain ⟨hm, -⟩ | ⟨p, -, hm, -⟩ := matchAt_cases data ob i <;> rw [hm]
  · exact Nat.zero_le _
  · exact indexMatchLength_le _ _ _ _

/-- R170: the offset is at most Wmax. -/
theorem matchAt_offset_le (data : List Byte) (ob i : Nat) : (matchAt data ob i).offset ≤ windowMax ob := by
  obtain ⟨hm, -⟩ | ⟨p, hp, hm, -⟩ := matchAt_cases data ob i <;> rw [hm]
  · exact Nat.zero_le _
  · obtain ⟨-, -, hwindow⟩ := mem_candidates.mp hp
    exact hwindow

/-- R172: a match and its literal end within the input. -/
theorem add_matchAt_length_lt {data : List Byte} {i : Nat} (ob : Nat) (hi : i < data.length) :
    i + (matchAt data ob i).length < data.length := by
  have hle : (matchAt data ob i).length ≤ data.length - 1 - i := (matchAt_length_le data ob i).trans (min_le_right _ _)
  omega

/-- R169: a match is (0, 0), or a copy of bytes already passed that agree with those at hand. -/
theorem matchAt_literal_or_copy (data : List Byte) (ob i : Nat) :
    matchAt data ob i = ⟨0, 0⟩ ∨
      (1 ≤ (matchAt data ob i).length ∧ 1 ≤ (matchAt data ob i).offset ∧ (matchAt data ob i).offset ≤ i ∧
        ∀ j < (matchAt data ob i).length, data[i - (matchAt data ob i).offset + j]? = data[i + j]?) := by
  obtain ⟨hm, -⟩ | ⟨p, hp, hm, hpos, -⟩ := matchAt_cases data ob i
  · exact .inl hm
  · obtain ⟨hpi, -, -⟩ := mem_candidates.mp hp
    rw [hm]
    refine .inr ⟨hpos, Nat.sub_pos_of_lt hpi, Nat.sub_le i p, fun j hj => ?_⟩
    rw [Nat.sub_sub_self hpi.le]
    exact getElem?_of_lt_indexMatchLength hj

/-! ### The match finder on suffixes -/

/-- The scan of the suffixes from distance `d + 1` on is the loop over the candidates among their positions: a suffix that
starts with another byte counts as a match of length 0, which replaces nothing. -/
theorem scanWindow_eq_indexScan {data : List Byte} {i cap : Nat} (hcap : i + cap ≤ data.length) {d n : Nat} (hn : d + n ≤ i)
    (best : Nat × Nat) :
    scanWindow cap (data.drop i) ((List.range' d n).map fun d => data.drop (i - 1 - d)) (d + 1) (matchOf best) =
      matchOf (indexScan data i cap best
        (((List.range' d n).map fun d => i - 1 - d).filter fun p => data[p]? == data[i]?)) := by
  induction n generalizing d best with
  | zero => rfl
  | succ n ih =>
    have hdist : d + 1 = i - (i - 1 - d) := by omega
    simp only [List.range'_succ, List.map_cons, scanWindow, List.head?_drop, matchLength_drop hcap, List.filter_cons,
      beq_iff_eq]
    split
    · next hbyte =>
      rw [indexScan, List.foldl_cons, ← indexScan, ← ih (by omega), apply_ite matchOf, ← hdist]
      rfl
    · rw [if_neg (Nat.not_lt_zero _), ih (by omega)]

/-- The window: the suffixes at the nearest positions. -/
theorem take_passedBefore (data : List Byte) (i wmax : Nat) :
    (passedBefore data i).take wmax = (List.range (min i wmax)).map fun d => data.drop (i - 1 - d) := by
  rw [passedBefore, ← List.map_take, List.take_range, Nat.min_comm]

/-- R166, R167: the match finder on the suffixes gives what the rule's loop finds. -/
theorem findMatch_eq_matchAt {data : List Byte} {i : Nat} (ob : Nat) (hi : i < data.length) :
    findMatch ob (passedBefore data i) (data.drop i) = matchAt data ob i := by
  have hcap : min (lengthMax ob) ((data.drop i).length - 1) = matchCap data ob i := by
    rw [List.length_drop, Nat.sub_right_comm, matchCap]
  have hfits : i + matchCap data ob i ≤ data.length := by
    have : matchCap data ob i ≤ data.length - 1 - i := min_le_right _ _
    omega
  rw [findMatch, hcap, take_passedBefore, matchAt, candidates, List.range_eq_range']
  exact scanWindow_eq_indexScan hfits (by omega) (0, 0)

/-- Settles O54: the match finder is the rule's loop, and a candidate matches at least its first byte where a byte may be
matched at all. -/
theorem matchFinderPicksLongestThenNearest : Obligations.MatchFinderPicksLongestThenNearest := by
  intro ob data i _ hob hi m ml isCandidate
  have hm : m = matchAt data ob i := findMatch_eq_matchAt ob hi
  have hcandidate : ∀ p, isCandidate p ↔ p ∈ candidates data i (windowMax ob) := fun _ => mem_candidates.symm
  simp only [hm, hcandidate]
  obtain ⟨hnone, hzero⟩ | ⟨p, hp, hfound, hpos, hbest⟩ := matchAt_cases data ob i
  · rw [hnone]
    refine ⟨fun p hp => (hzero p hp).le, fun _ => ⟨rfl, ?_⟩, fun h => absurd h (Nat.lt_irrefl 0)⟩
    by_cases hlast : i + 1 = data.length
    · exact .inr hlast
    refine .inl fun p hp => ?_
    obtain ⟨-, hbyte, -⟩ := mem_candidates.mp hp
    exact absurd (hzero p hp) (indexMatchLength_pos (matchCap_pos hob (by omega)) hbyte).ne'
  · obtain ⟨hpi, -, -⟩ := mem_candidates.mp hp
    rw [hfound]
    refine ⟨fun q hq => (hbest q hq).1, fun h => absurd h hpos.ne', fun _ => ?_⟩
    rw [Nat.sub_sub_self hpi.le]
    exact ⟨Nat.sub_pos_of_lt hpi, Nat.sub_le i p, hp, rfl, fun q hq => (hbest q hq).2⟩

/-! ### The walk over suffixes (R171, R172) -/

theorem passedBefore_succ (data : List Byte) (i : Nat) : passedBefore data (i + 1) = data.drop i :: passedBefore data i := by
  simp [passedBefore, List.range_succ_eq_map, Nat.sub_sub, Nat.add_comm 1]

theorem passPositions_passedBefore {data : List Byte} {n i : Nat} (h : i + n ≤ data.length) :
    passPositions n (passedBefore data i) (data.drop i) = (passedBefore data (i + n), data.drop (i + n)) := by
  induction n generalizing i with
  | zero => rfl
  | succ n ih =>
    have hi : i < data.length := by omega
    rw [List.drop_eq_getElem_cons hi, passPositions, ← List.drop_eq_getElem_cons hi, ← passedBefore_succ, ih (by omega),
      Nat.add_right_comm, Nat.add_assoc]

theorem indexLoop_done {data : List Byte} {i : Nat} (ob fuel : Nat) (hi : data.length ≤ i) :
    indexLoop data ob fuel i = [] := by
  cases fuel with
  | zero => rfl
  | succ fuel => rw [indexLoop, if_neg (Nat.not_lt.mpr hi)]

/-- A step of the rule's loop: the triple of its match, then on past the match and its literal. -/
theorem indexLoop_step {data : List Byte} {i : Nat} (ob fuel : Nat) (hi : i < data.length) :
    indexLoop data ob (fuel + 1) i =
      packTriple ob (matchAt data ob i).offset (matchAt data ob i).length (data.getD (i + (matchAt data ob i).length) 0) ++
        indexLoop data ob fuel (i + (matchAt data ob i).length + 1) := by
  rw [indexLoop, if_pos hi]
  rfl

theorem encodeWalk_eq_indexLoop (data : List Byte) (ob fuel i : Nat) :
    encodeWalk ob fuel (passedBefore data i) (data.drop i) = indexLoop data ob fuel i := by
  induction fuel generalizing i with
  | zero => rfl
  | succ fuel ih =>
    by_cases hi : i < data.length
    · have hnext := passPositions_passedBefore (n := (matchAt data ob i).length + 1) (add_matchAt_length_lt ob hi)
      rw [indexLoop_step ob fuel hi, List.drop_eq_getElem_cons hi, encodeWalk, ← List.drop_eq_getElem_cons hi,
        findMatch_eq_matchAt ob hi]
      simp only [Nat.add_assoc] at hnext ⊢
      rw [hnext, ih, List.getD_eq_getElem?_getD, List.getElem?_drop, ← List.getD_eq_getElem?_getD]
    · rw [indexLoop_done ob _ (Nat.le_of_not_lt hi), List.drop_of_length_le (Nat.le_of_not_lt hi)]
      rfl

/-- Settles O55: the walk starts with no position passed. -/
theorem encoderRefinesTheIndexLoop : Obligations.EncoderRefinesTheIndexLoop := fun data ob =>
  congrArg (fun out => Except.ok (out, (0 : Word))) (encodeWalk_eq_indexLoop data ob data.length 0)

/-! ### A command that is ready completes (O27) -/

/-- Settles O27: the loop's triples are the output of Lz77Enc, and the next state its completion. -/
theorem lz77EncCompletes : Obligations.Lz77EncCompletes := by
  intro ob s hob hob' hready data out hroom
  exact exec_ready (i := .lz77Enc ob) (by simp [isNoOp, obValid, hob, hob']) hready (encoderRefinesTheIndexLoop data ob) hroom

/-! ### The triples of an encoder's output (O56) -/

/-- R170: a step's triple unpacks to its match, since both fields fit. -/
theorem indexLoop_triple {data : List Byte} {ob i : Nat} (hob : ob ≤ 15) (fuel : Nat) (hi : i < data.length) :
    ∃ b0 b1, tripleOffset ob b0 b1 = (matchAt data ob i).offset ∧ tripleLength ob b0 b1 = (matchAt data ob i).length ∧
      indexLoop data ob (fuel + 1) i =
        b0 :: b1 :: data.getD (i + (matchAt data ob i).length) 0 ::
          indexLoop data ob fuel (i + (matchAt data ob i).length + 1) := by
  have hoffset : (matchAt data ob i).offset < 2 ^ ob :=
    Nat.lt_of_le_pred (by positivity) (matchAt_offset_le data ob i)
  have hlength : (matchAt data ob i).length < 2 ^ (16 - ob) :=
    Nat.lt_of_le_pred (by positivity) ((matchAt_length_le data ob i).trans (min_le_left _ _))
  obtain ⟨b0, b1, hpack, ho, hl, -⟩ :=
    unpack_packTriple hob (data.getD (i + (matchAt data ob i).length) 0) hoffset hlength
  exact ⟨b0, b1, ho, hl, by rw [indexLoop_step ob fuel hi, hpack]; rfl⟩

/-- R173: whole triples, at most one for each byte that is left. -/
theorem length_indexLoop (data : List Byte) (ob fuel i : Nat) :
    (indexLoop data ob fuel i).length % 3 = 0 ∧ (indexLoop data ob fuel i).length ≤ 3 * (data.length - i) := by
  induction fuel generalizing i with
  | zero => exact ⟨rfl, Nat.zero_le _⟩
  | succ fuel ih =>
    by_cases hi : i < data.length
    · obtain ⟨hwhole, hle⟩ := ih (i + (matchAt data ob i).length + 1)
      rw [indexLoop_step ob fuel hi, List.length_append]
      simp only [packTriple, List.length_cons, List.length_nil]
      omega
    · rw [indexLoop_done ob _ (Nat.le_of_not_lt hi)]
      exact ⟨rfl, Nat.zero_le _⟩

/-- Each triple of the output is the match of some position. -/
theorem indexLoop_triples {data : List Byte} {ob : Nat} (hob : ob ≤ 15) {fuel i : Nat} {before after : List Byte}
    {b0 b1 literal : Byte} (h : indexLoop data ob fuel i = before ++ b0 :: b1 :: literal :: after)
    (hwhole : before.length % 3 = 0) :
    ∃ k, tripleOffset ob b0 b1 = (matchAt data ob k).offset ∧ tripleLength ob b0 b1 = (matchAt data ob k).length := by
  induction fuel generalizing i before with
  | zero => simp [indexLoop] at h
  | succ fuel ih =>
    by_cases hi : i < data.length
    · obtain ⟨c0, c1, ho, hl, hstep⟩ := indexLoop_triple hob fuel hi
      rw [hstep] at h
      match before with
      | [] =>
        injection h with h0 h
        injection h with h1 _
        exact ⟨i, h0 ▸ h1 ▸ ho, h0 ▸ h1 ▸ hl⟩
      | [_] | [_, _] => simp at hwhole
      | _ :: _ :: _ :: before =>
        simp only [List.cons_append, List.cons.injEq] at h
        obtain ⟨-, -, -, hrest⟩ := h
        exact ih hrest ((Nat.add_mod_right before.length 3).symm.trans hwhole)
    · simp [indexLoop_done ob _ (Nat.le_of_not_lt hi)] at h

/-- Settles O56: every triple is a match of the rule's loop, which is (0, 0) or a copy within its bounds. -/
theorem encoderEmitsLiteralsAndCopies : Obligations.EncoderEmitsLiteralsAndCopies := by
  intro data out ob hinfo _ hob h
  rw [encoderRefinesTheIndexLoop] at h
  cases h
  obtain ⟨hwhole, hle⟩ := length_indexLoop data ob data.length 0
  refine ⟨rfl, hwhole, hle, fun hne => ?_, fun before b0 b1 literal after hsplit hbefore => ?_⟩
  · obtain ⟨fuel, hfuel⟩ := Nat.exists_eq_add_one.mpr (List.length_pos_iff.mpr hne)
    obtain ⟨b0, b1, -, -, hstep⟩ := indexLoop_triple hob fuel (List.length_pos_iff.mpr hne)
    rw [hfuel, hstep]
    simp only [List.length_cons]
    omega
  · obtain ⟨k, ho, hl⟩ := indexLoop_triples hob hsplit hbefore
    rw [ho, hl]
    obtain hnone | ⟨hlength, hoffset, -, -⟩ := matchAt_literal_or_copy data ob k
    · exact .inl ⟨congrArg Match.offset hnone, congrArg Match.length hnone⟩
    · exact .inr ⟨hoffset, matchAt_offset_le data ob k, hlength, (matchAt_length_le data ob k).trans (min_le_left _ _)⟩

/-! ### The round trip (O57) -/

theorem reverse_take_succ {data : List Byte} {i : Nat} (hi : i < data.length) :
    (data.take (i + 1)).reverse = data[i] :: (data.take i).reverse := by
  rw [List.take_succ_eq_append_getElem hi, List.reverse_append]
  rfl

/-- The byte `offset` back from the end of the first `i` bytes. -/
theorem getElem?_reverse_take {data : List Byte} {i offset : Nat} (hi : i ≤ data.length) (hpos : 1 ≤ offset)
    (hoffset : offset ≤ i) : (data.take i).reverse[offset - 1]? = data[i - offset]? := by
  have hlength : (data.take i).length = i := List.length_take_of_le hi
  rw [List.getElem?_reverse (by omega), hlength, List.getElem?_take_of_lt (by omega)]
  congr 1
  omega

/-- R187: where each byte agrees with the one `offset` back, the copy appends the next bytes of the input. -/
theorem copyBack_take {data : List Byte} {offset n i : Nat} (hpos : 1 ≤ offset) (hoffset : offset ≤ i)
    (hn : i + n ≤ data.length) (hagree : ∀ j < n, data[i - offset + j]? = data[i + j]?) :
    copyBack offset n (data.take i).reverse = (data.take (i + n)).reverse := by
  induction n generalizing i with
  | zero => rfl
  | succ n ih =>
    have hi : i < data.length := by omega
    have hbyte : (data.take i).reverse.getD (offset - 1) 0 = data[i] := by
      have hhead : data[i - offset]? = data[i]? := hagree 0 (Nat.succ_pos n)
      rw [List.getD_eq_getElem?_getD, getElem?_reverse_take hi.le hpos hoffset, hhead, List.getElem?_eq_getElem hi,
        Option.getD_some]
    rw [copyBack, hbyte, ← reverse_take_succ hi, ih (by omega) (by omega), Nat.add_right_comm, Nat.add_assoc]
    intro j hj
    have hback : i + 1 - offset + j = i - offset + (j + 1) := by omega
    have hhere : i + 1 + j = i + (j + 1) := by omega
    rw [hback, hhere]
    exact hagree (j + 1) (Nat.succ_lt_succ hj)

/-- R178: with the first `i` bytes written, the match at `i` passes the decoder's check and its copy appends the bytes of
the match. -/
theorem matchAt_decodes {data : List Byte} {i : Nat} (ob t : Nat) (hi : i < data.length) :
    tripleError (matchAt data ob i).offset (matchAt data ob i).length i t = none ∧
      copyBack (matchAt data ob i).offset (matchAt data ob i).length (data.take i).reverse =
        (data.take (i + (matchAt data ob i).length)).reverse := by
  obtain hnone | ⟨hlength, hpos, hoffset, hagree⟩ := matchAt_literal_or_copy data ob i
  · rw [hnone]
    exact ⟨rfl, rfl⟩
  · refine ⟨?_, copyBack_take hpos hoffset (add_matchAt_length_lt ob hi).le hagree⟩
    rw [tripleError, if_neg (Nat.ne_of_gt hlength), if_neg (Nat.ne_of_gt hpos), if_neg (Nat.not_lt.mpr hoffset)]

/-- The decoder that has written the first `i` bytes writes the rest from the loop's triples from `i` on. -/
theorem decodeWalk_indexLoop {data : List Byte} {ob : Nat} (hob : ob ≤ 15) {fuel i : Nat} (hi : i ≤ data.length)
    (hfuel : data.length ≤ i + fuel) (t : Nat) :
    decodeWalk ob t (data.take i).reverse (indexLoop data ob fuel i) = .ok data := by
  induction fuel generalizing i t with
  | zero =>
    rw [indexLoop, decodeWalk, List.reverse_reverse, List.take_of_length_le (by omega)]
    nofun
  | succ fuel ih =>
    by_cases hlt : i < data.length
    · obtain ⟨b0, b1, ho, hl, hstep⟩ := indexLoop_triple hob fuel hlt
      obtain ⟨hcheck, hcopy⟩ := matchAt_decodes ob t hlt
      have hliteral := add_matchAt_length_lt ob hlt
      have hwritten : (data.take i).reverse.length = i := by rw [List.length_reverse, List.length_take_of_le hi]
      rw [hstep, decodeWalk, ho, hl, hwritten, hcheck]
      simp only [hcopy, List.getD_eq_getElem _ _ hliteral, ← reverse_take_succ hliteral]
      exact ih hliteral (by omega) (t + 3)
    · rw [indexLoop_done ob _ (Nat.le_of_not_lt hlt), decodeWalk, List.reverse_reverse,
        List.take_of_length_le (Nat.le_of_not_lt hlt)]
      nofun

/-- Settles O57: the output is whole triples, and the decoder's walk over them writes the input from its first byte on. -/
theorem lz77RoundTrip : Obligations.Lz77RoundTrip := by
  intro B ob _ hob
  refine ⟨_, encoderRefinesTheIndexLoop B ob, ?_⟩
  have hdecode : decodeWalk ob 0 [] (indexLoop B ob B.length 0) = .ok B :=
    decodeWalk_indexLoop hob (Nat.zero_le _) (Nat.zero_add _).ge 0
  obtain ⟨hwhole, -⟩ := length_indexLoop B ob B.length 0
  rw [lz77Decode, if_pos hwhole, hdecode]

end Sys2Proof.Proofs

/-! Proofs for 44_lz77_decode.md: the check of a copy (R186) and the bytes the copy writes (R187), the walk over the triples
step by step and after a stream that decodes (R180, R184, R185), the length of the output (R188) and the completion of
LZ77_DEC. -/

namespace Sys2Proof.Proofs
open Sys2Proof.Machine

/-! ### The check of a copy (R185, R186) -/

theorem tripleError_of_length_zero (offset outLen t : Nat) : tripleError offset 0 outLen t = none := if_pos rfl

theorem tripleError_of_offset_zero {length : Nat} (outLen t : Nat) (hlength : 0 < length) :
    tripleError 0 length outLen t = some (.zeroOffsetCopy, sat32 t) := by
  rw [tripleError, if_neg hlength.ne', if_pos rfl]

theorem tripleError_of_before_start {offset length outLen : Nat} (t : Nat) (hlength : 0 < length)
    (hoffset : outLen < offset) : tripleError offset length outLen t = some (.offsetBeforeStart, sat32 t) := by
  rw [tripleError, if_neg hlength.ne', if_neg (Nat.ne_zero_of_lt hoffset), if_pos hoffset]

theorem tripleError_of_within {offset outLen : Nat} (length t : Nat) (hpos : 1 ≤ offset) (hoffset : offset ≤ outLen) :
    tripleError offset length outLen t = none := by
  rw [tripleError, if_neg (Nat.ne_of_gt hpos), if_neg (Nat.not_lt.mpr hoffset), ite_self]

/-! ### The bytes of a copy (R187, O58) -/

@[simp] theorem length_copyBack (offset n : Nat) (outRev : List Byte) :
    (copyBack offset n outRev).length = outRev.length + n := by
  induction n generalizing outRev with
  | zero => rfl
  | succ n ih =>
    rw [copyBack, ih, List.length_cons]
    omega

/-- A copy only appends: last byte first, what was written is a suffix of what it leaves. -/
theorem suffix_copyBack (offset n : Nat) (outRev : List Byte) : outRev <:+ copyBack offset n outRev := by
  induction n generalizing outRev with
  | zero => exact List.suffix_rfl
  | succ n ih => exact (List.suffix_cons _ outRev).trans (ih _)

/-- A copy leaves the bytes before it. -/
theorem getElem?_reverse_copyBack_of_lt {outRev : List Byte} {k : Nat} (offset n : Nat) (hk : k < outRev.length) :
    (copyBack offset n outRev).reverse[k]? = outRev.reverse[k]? := by
  obtain ⟨added, hadded⟩ := suffix_copyBack offset n outRev
  rw [← hadded, List.reverse_append, List.getElem?_append_left (by rwa [List.length_reverse])]

/-- The first byte a copy appends is the one `offset` back. -/
theorem getElem?_reverse_copyBack_head {outRev : List Byte} {offset : Nat} (n : Nat) (hpos : 1 ≤ offset)
    (hoffset : offset ≤ outRev.length) :
    (copyBack offset (n + 1) outRev).reverse[outRev.length]? = outRev.reverse[outRev.length - offset]? := by
  have hback : offset - 1 < outRev.length := by omega
  have hindex : outRev.length - 1 - (outRev.length - offset) = offset - 1 := by omega
  rw [copyBack, getElem?_reverse_copyBack_of_lt _ _ (Nat.lt_succ_self outRev.length),
    List.getElem?_reverse (Nat.lt_succ_self _), List.getElem?_reverse (by omega), hindex, List.getElem?_eq_getElem hback,
    List.length_cons, Nat.add_sub_cancel, Nat.sub_self, List.getElem?_cons_zero, List.getD_eq_getElem _ _ hback]

/-- R187: each byte a copy appends is the one `offset` back, whether the copy wrote that byte or found it. -/
theorem getElem?_reverse_copyBack {outRev : List Byte} {offset n j : Nat} (hpos : 1 ≤ offset)
    (hoffset : offset ≤ outRev.length) (hj : j < n) :
    (copyBack offset n outRev).reverse[outRev.length + j]? =
      (copyBack offset n outRev).reverse[outRev.length - offset + j]? := by
  induction n generalizing outRev j with
  | zero => exact absurd hj (Nat.not_lt_zero j)
  | succ n ih =>
    cases j with
    | zero =>
      have hback : outRev.length - offset < outRev.length := by omega
      have hfound := getElem?_reverse_copyBack_of_lt offset (n + 1) hback
      exact (getElem?_reverse_copyBack_head n hpos hoffset).trans hfound.symm
    | succ j =>
      have hnext :=
        ih (outRev := outRev.getD (offset - 1) 0 :: outRev) (Nat.le_succ_of_le hoffset) (Nat.lt_of_succ_lt_succ hj)
      rw [List.length_cons, Nat.succ_sub hoffset] at hnext
      simpa only [copyBack, Nat.succ_add, Nat.add_succ] using hnext

/-- Settles O58: a copy appends, and each byte it appends is the one `offset` back. -/
theorem copiesGoForwardByteByByte : Obligations.CopiesGoForwardByteByByte := by
  intro outRev offset length hpos hoffset before after
  have hbefore : before.length = outRev.length := List.length_reverse
  refine ⟨by simp [before, after], fun k hk => ?_, fun j hj => ?_⟩
  · exact getElem?_reverse_copyBack_of_lt offset length (hbefore ▸ hk)
  · rw [hbefore]
    exact getElem?_reverse_copyBack hpos hoffset hj

/-! ### The walk over the triples (R184) -/

/-- R186: the walk stops at a triple that fails its check, whatever follows. -/
theorem decodeWalk_of_tripleError {ob t : Nat} {outRev : List Byte} {b0 b1 : Byte} {failure : CmdError × Word}
    (literal : Byte) (rest : List Byte)
    (h : tripleError (tripleOffset ob b0 b1) (tripleLength ob b0 b1) outRev.length t = some failure) :
    decodeWalk ob t outRev (b0 :: b1 :: literal :: rest) = .error failure := by
  rw [decodeWalk, h]

/-- A triple that passes its check is copied and its literal appended. -/
theorem decodeWalk_of_tripleError_none {ob t : Nat} {outRev : List Byte} {b0 b1 : Byte} (literal : Byte)
    (rest : List Byte) (h : tripleError (tripleOffset ob b0 b1) (tripleLength ob b0 b1) outRev.length t = none) :
    decodeWalk ob t outRev (b0 :: b1 :: literal :: rest) =
      decodeWalk ob (t + 3) (literal :: copyBack (tripleOffset ob b0 b1) (tripleLength ob b0 b1) outRev) rest := by
  rw [decodeWalk, h]

theorem decodeWalk_nil (ob t : Nat) (outRev : List Byte) : decodeWalk ob t outRev [] = .ok outRev.reverse := by
  rw [decodeWalk]
  nofun

/-- Fewer than 3 bytes are left where no triple is. -/
theorem length_lt_three {B : List Byte} (hend : ∀ b0 b1 literal rest, B = b0 :: b1 :: literal :: rest → False) :
    B.length < 3 := by
  match B with
  | [] | [_] | [_, _] => simp
  | b0 :: b1 :: literal :: rest => exact (hend b0 b1 literal rest rfl).elim

/-- After whole triples that decode, the walk goes on at the next byte offset with their output written. -/
theorem decodeWalk_append {ob t : Nat} {outRev B out : List Byte} (rest : List Byte)
    (h : decodeWalk ob t outRev B = .ok out) (hwhole : B.length % 3 = 0) :
    decodeWalk ob t outRev (B ++ rest) = decodeWalk ob (t + B.length) out.reverse rest := by
  fun_induction decodeWalk ob t outRev B with
  | case1 t outRev b0 b1 literal more failure hfail => cases h
  | case2 t outRev b0 b1 literal more hpass ih =>
    have hnext : t + 3 + more.length = t + (b0 :: b1 :: literal :: more).length := by
      simp only [List.length_cons]
      omega
    simp only [List.cons_append]
    rw [decodeWalk_of_tripleError_none literal (more ++ rest) hpass, ← hnext]
    exact ih h ((Nat.add_mod_right more.length 3).symm.trans hwhole)
  | case3 B t outRev hend =>
    cases h
    rw [Nat.mod_eq_of_lt (length_lt_three hend), List.length_eq_zero_iff] at hwhole
    rw [hwhole, List.reverse_reverse]
    rfl

/-! ### Lz77Dec (R180, R184) -/

/-- R180, then R184: whole triples are walked. -/
theorem lz77Decode_of_whole {B : List Byte} (ob : Nat) (hwhole : B.length % 3 = 0) :
    lz77Decode B ob = (decodeWalk ob 0 [] B).map (·, 0) := by
  rw [lz77Decode, if_pos hwhole]
  cases decodeWalk ob 0 [] B <;> rfl

theorem lz77Decode_eq_ok_iff {B out : List Byte} {ob : Nat} {hinfo : Word} :
    lz77Decode B ob = .ok (out, hinfo) ↔ B.length % 3 = 0 ∧ decodeWalk ob 0 [] B = .ok out ∧ hinfo = 0 := by
  constructor
  · intro h
    by_cases hwhole : B.length % 3 = 0
    · rw [lz77Decode_of_whole ob hwhole] at h
      cases hwalk : decodeWalk ob 0 [] B <;> rw [hwalk] at h <;> cases h
      exact ⟨hwhole, rfl, rfl⟩
    · rw [lz77Decode, if_neg hwhole] at h
      cases h
  · rintro ⟨hwhole, hwalk, rfl⟩
    rw [lz77Decode_of_whole ob hwhole, hwalk]
    rfl

/-- After a stream that decodes, whole triples are walked from its end with its output written. -/
theorem lz77Decode_append {B out rest : List Byte} {ob : Nat} {hinfo : Word} (h : lz77Decode B ob = .ok (out, hinfo))
    (hrest : rest.length % 3 = 0) :
    lz77Decode (B ++ rest) ob = (decodeWalk ob B.length out.reverse rest).map (·, 0) := by
  obtain ⟨hwhole, hwalk, -⟩ := lz77Decode_eq_ok_iff.mp h
  rw [lz77Decode_of_whole ob (by rw [List.length_append]; omega), decodeWalk_append rest hwalk hwhole, Nat.zero_add]

/-! ### A triple after a stream that decodes (O60) -/

section
variable {B out : List Byte} {b0 b1 : Byte} {ob : Nat} {hinfo : Word}

/-- R186: after a stream that decodes, a triple that fails its check fails at its byte offset, whatever triples follow. -/
theorem lz77Decode_append_of_tripleError {rest : List Byte} {failure : CmdError × Word} (literal : Byte)
    (h : lz77Decode B ob = .ok (out, hinfo)) (hrest : rest.length % 3 = 0)
    (hfail : tripleError (tripleOffset ob b0 b1) (tripleLength ob b0 b1) out.length B.length = some failure) :
    lz77Decode (B ++ b0 :: b1 :: literal :: rest) ob = .error failure := by
  rw [← List.length_reverse (as := out)] at hfail
  have hwhole : (b0 :: b1 :: literal :: rest).length % 3 = 0 := (Nat.add_mod_right rest.length 3).trans hrest
  rw [lz77Decode_append h hwhole, decodeWalk_of_tripleError literal rest hfail]
  rfl

/-- After a stream that decodes, a triple that passes its check is copied and its literal appended. -/
theorem lz77Decode_append_of_tripleError_none (literal : Byte) (h : lz77Decode B ob = .ok (out, hinfo))
    (hpass : tripleError (tripleOffset ob b0 b1) (tripleLength ob b0 b1) out.length B.length = none) :
    lz77Decode (B ++ [b0, b1, literal]) ob =
      .ok ((copyBack (tripleOffset ob b0 b1) (tripleLength ob b0 b1) out.reverse).reverse ++ [literal], 0) := by
  rw [← List.length_reverse (as := out)] at hpass
  have hwhole : [b0, b1, literal].length % 3 = 0 := Nat.mod_self 3
  rw [lz77Decode_append h hwhole, decodeWalk_of_tripleError_none literal [] hpass, decodeWalk_nil, List.reverse_cons]
  rfl

end

/-- Settles O60: the next triple of a stream that decodes is checked against its output; one of length 0 passes and copies
nothing. -/
theorem decoderChecksLengthThenEachCopy : Obligations.DecoderChecksLengthThenEachCopy := by
  refine ⟨fun B ob hcut => if_neg hcut, ?_, ?_⟩
  · intro B out b0 b1 literal ob hinfo h hzero
    have hpass := tripleError_of_length_zero (tripleOffset ob b0 b1) out.length B.length
    rw [lz77Decode_append_of_tripleError_none literal h (hzero.symm ▸ hpass), hzero, copyBack, List.reverse_reverse]
  · intro B out rest b0 b1 literal ob hinfo h hrest hlength
    refine ⟨fun hoffset => ?_, fun hoffset => ?_, fun hpos hoffset => ?_⟩
    · exact lz77Decode_append_of_tripleError literal h hrest
        (hoffset.symm ▸ tripleError_of_offset_zero out.length B.length hlength)
    · exact lz77Decode_append_of_tripleError literal h hrest (tripleError_of_before_start B.length hlength hoffset)
    · exact lz77Decode_append_of_tripleError_none literal h (tripleError_of_within _ B.length hpos hoffset)

/-! ### The length of the output (R188, O59) -/

/-- One length for each whole triple. -/
theorem length_tripleLengths (ob : Nat) (B : List Byte) : (tripleLengths ob B).length = B.length / 3 := by
  fun_induction tripleLengths ob B with
  | case1 b0 b1 literal rest ih =>
    rw [List.length_cons, ih]
    exact (Nat.add_div_right rest.length (by decide)).symm
  | case2 B hend => exact (Nat.div_eq_of_lt (length_lt_three hend)).symm

theorem lt_of_mem_tripleLengths {ob length : Nat} {B : List Byte} (h : length ∈ tripleLengths ob B) :
    length < 2 ^ (16 - ob) := by
  fun_induction tripleLengths ob B with
  | case1 b0 b1 literal rest ih =>
    obtain rfl | h := List.mem_cons.mp h
    · exact tripleLength_lt ob b0 b1
    · exact ih h
  | case2 B hend => cases h

/-- R185: each triple appends its copy and its literal. -/
theorem length_of_decodeWalk {ob t : Nat} {outRev B out : List Byte} (h : decodeWalk ob t outRev B = .ok out) :
    out.length = outRev.length + ((tripleLengths ob B).map (· + 1)).sum := by
  fun_induction decodeWalk ob t outRev B with
  | case1 t outRev b0 b1 literal rest failure hfail => cases h
  | case2 t outRev b0 b1 literal rest hpass ih =>
    rw [ih h, tripleLengths, List.map_cons, List.sum_cons, List.length_cons, length_copyBack, Nat.add_assoc, Nat.add_assoc,
      Nat.add_assoc]
  | case3 B t outRev hend =>
    cases h
    rw [tripleLengths, List.length_reverse]
    · rfl
    · exact hend

/-- Settles O59: the length is a sum of a term between 1 and 2^(16 - ob) for each triple. -/
theorem decodedLengthIsSumOfTriples : Obligations.DecodedLengthIsSumOfTriples := by
  intro B out ob hinfo _ _ h
  obtain ⟨hwhole, hwalk, hzero⟩ := lz77Decode_eq_ok_iff.mp h
  have hsum : out.length = ((tripleLengths ob B).map (· + 1)).sum := (length_of_decodeWalk hwalk).trans (Nat.zero_add _)
  have hterms : ((tripleLengths ob B).map (· + 1)).length = B.length / 3 := by
    rw [List.length_map, length_tripleLengths]
  have hlow : ∀ x ∈ (tripleLengths ob B).map (· + 1), 1 ≤ x :=
    List.forall_mem_map.mpr fun length _ => Nat.succ_pos length
  have hhigh : ∀ x ∈ (tripleLengths ob B).map (· + 1), x ≤ 2 ^ (16 - ob) :=
    List.forall_mem_map.mpr fun _ => lt_of_mem_tripleLengths
  refine ⟨hzero, hwhole, hsum, ?_, ?_⟩ <;> rw [hsum, ← hterms]
  · exact List.length_le_sum_of_one_le _ hlow
  · exact List.sum_le_card_nsmul _ _ hhigh

/-! ### A command that is ready completes (O28) -/

/-- Settles O28: the walk's output is that of Lz77Dec, and the next state its completion. -/
theorem lz77DecCompletes : Obligations.Lz77DecCompletes := by
  intro ob s out hob hob' hready hwhole hwalk hroom
  have hdecode : lz77Decode (sourceBytes s) ob = .ok (out, 0) :=
    lz77Decode_eq_ok_iff.mpr ⟨by rw [sourceBytes, memBytes_length, hwhole], hwalk, rfl⟩
  exact exec_ready (i := .lz77Dec ob) (by simp [isNoOp, obValid, hob, hob']) hready hdecode hroom

end Sys2Proof.Proofs

/-! Proofs for 60_exceptions.md: irq and BUSY from step to step (R203, R212), an illegal word and a no-op (R195, R201), then
the errors of a command in the order of its checks (R192 to R200): BAD_RANGE, BUS_ERROR, CORRUPT_STREAM, OUT_OVERFLOW. -/

namespace Sys2Proof.Proofs
open Sys2Proof.Machine

/-! ### irq and BUSY (O13, O15) -/

theorem irq_iff {s : State} : irq s = true ↔ s.irqEn = true ∧ s.done = true := by simp [irq]

/-- R203: a store raises irq only where it sets the enable while DONE = 1: an acknowledgement and an issue only clear
DONE. -/
theorem irq_of_csrStore {c : Csr} {v : Word} {s : State} (h : irq (csrStore c v s) = true) :
    irq s = true ∨ (c = .ctrl ∧ s.done = true ∧ v.getLsbD 0 = true) := by
  cases c with
  | ctrl =>
    obtain ⟨hen, hdone⟩ := irq_iff.mp h
    exact .inr ⟨rfl, hdone, hen⟩
  | status =>
    obtain ⟨hen, hdone⟩ := irq_iff.mp h
    exact .inl (irq_iff.mpr ⟨hen, eq_true_of_w1c hdone⟩)
  | cmd =>
    obtain ⟨-, heq⟩ | ⟨-, heq⟩ := csrStore_cmd_cases v s <;> rw [heq] at h
    · exact .inl h
    · obtain ⟨-, hdone⟩ := irq_iff.mp h
      cases hdone
  | _ => exact .inl h

/-- Settles O13: of the four things a step can do to the registers, a completion keeps the enable and a store raises irq
through CTRL alone. -/
theorem irqRisesOnlyByCompletionOrEnable : Obligations.IrqRisesOnlyByCompletionOrEnable := by
  refine ⟨fun s => irq_iff, fun s t h hlow hhigh => ?_⟩
  have hlow' : ¬ irq s = true := Bool.eq_false_iff.mp hlow
  cases step_registerCase h with
  | kept r m d n hm => exact absurd hhigh hlow'
  | completion turn hb o fits =>
    obtain ⟨hen, hdone⟩ := irq_iff.mp hhigh
    exact .inl ⟨hb, turn, (complete_irqEn o (popped s)).symm.trans hen, hdone⟩
  | reset rest ha r => cases hhigh
  | store addr bytes v rest c ha hc =>
    obtain hs | ⟨rfl, hdone, hv⟩ := irq_of_csrStore hhigh
    · exact absurd hs hlow'
    · obtain ⟨rfl, rfl⟩ := csrTarget_offset csrAt_ctrl hc
      exact .inr ⟨hdone, v, rest, ha, hv⟩

/-- R107: a store leaves BUSY, or it is an issue. -/
theorem csrStore_busy (c : Csr) (v : Word) (s : State) :
    (csrStore c v s).busy = s.busy ∨ (c = .cmd ∧ s.busy = false ∧ csrStore c v s = issue v s) := by
  cases c with
  | cmd =>
    obtain ⟨-, heq⟩ | ⟨hb, heq⟩ := csrStore_cmd_cases v s
    · exact .inl (by rw [heq])
    · exact .inr ⟨rfl, hb, heq⟩
  | _ => exact .inl rfl

/-- The only steps that change BUSY (R34, R212). -/
theorem step_busy {s t : State} (h : step s = .next t) :
    t.busy = s.busy ∨
      (s.busy = false ∧ ∃ v rest, s.agenda = .csrWrite (csrBase s.platform + 0x0C) 4 v :: rest ∧ t.cmd = v) ∨
      (t.busy = false ∧ ((engineTurn s ∧ t.done = true) ∨ ∃ rest, s.agenda = .reset :: rest)) := by
  cases step_registerCase h with
  | kept r m d n hm => exact .inl rfl
  | completion turn hb o fits => exact .inr (.inr ⟨complete_busy o _, .inl ⟨turn, complete_done o _⟩⟩)
  | reset rest ha r => exact .inr (.inr ⟨rfl, .inr ⟨rest, ha⟩⟩)
  | store addr bytes v rest c ha hc =>
    obtain heq | ⟨rfl, hb, heq⟩ := csrStore_busy c v (popped s)
    · exact .inl heq
    · obtain ⟨rfl, rfl⟩ := csrTarget_offset csrAt_cmd hc
      exact .inr (.inl ⟨hb, v, rest, ha, congrArg State.cmd heq⟩)

/-- Settles O15: each direction of the change leaves one of `step_busy`'s cases. -/
theorem busyStartsAtIssueEndsAtCompletionOrReset : Obligations.BusyStartsAtIssueEndsAtCompletionOrReset := by
  intro s t h
  have hcases := step_busy h
  refine ⟨fun hs ht => ?_, fun hs ht => ?_⟩
  · simpa [hs, ht] using hcases
  · simpa [hs, ht] using hcases

/-! ### An illegal word (O21) -/

/-- R84, R86: a word with a reserved bit, or with another OP than the four, is no command. -/
theorem decodeWord_of_illegal {w : Word}
    (h : ¬ (wordOp w = 1 ∨ wordOp w = 2 ∨ wordOp w = 3 ∨ wordOp w = 4) ∨ wordRsv w = true) :
    ∃ e, decodeWord w = .error e := by
  refine decodeWord_error_iff.mpr fun i hi => ?_
  obtain ⟨hrsv, hop, -⟩ := decodeWord_ok_iff.mp hi
  obtain hop' | hrsv' := h
  · exact hop' (hop ▸ opcodeOf_legal i)
  · exact absurd (hrsv'.symm.trans hrsv) (by decide)

/-- R195: the engine completes a word that is no command with ILLEGAL_CMD. -/
theorem engineStep_illegal {s : State} {e : DecodeError} (hb : s.busy = true) (h : decodeWord s.lat.word = .error e) :
    engineStep s = .next (complete (.err .illegalCmd s.lat.word) s) := by
  simp only [engineStep, fetchWord, hb, h, if_true]

/-- Settles O21: the decoder refuses the word, and the completion with ILLEGAL_CMD leaves memory. -/
theorem illegalWordCompletesWithIllegalCmd : Obligations.IllegalWordCompletesWithIllegalCmd := by
  intro s hr hb turn hillegal
  obtain ⟨e, he⟩ : ∃ e, decodeWord s.lat.word = .error e := by
    refine decodeWord_of_illegal ?_
    rw [wordOp_eq, wordRsv_iff]
    exact hillegal.imp_right Or.symm
  rw [step_engineTurn hr turn, engineStep_illegal (s := popped s) hb he]
  rfl

/-! ### A no-op (O29) -/

/-- R87: an OB of 0, or of 16 and more, is not valid. -/
theorem obValid_eq_false {ob : Nat} (h : ob = 0 ∨ 16 ≤ ob) : obValid ob = false := by
  simp only [obValid, Bool.and_eq_false_iff, decide_eq_false_iff_not]
  omega

/-- Settles O29: both LZ77 commands complete as a no-op, and the Huffman commands do not read their OB. -/
theorem invalidOffsetBitsIsANoOp : Obligations.InvalidOffsetBitsIsANoOp := by
  intro ob s hob
  have hnoOp : (!obValid ob) = true := by rw [obValid_eq_false hob]; rfl
  have henc : exec (.lz77Enc ob) s = .next (complete .noOp s) := exec_noOp (i := .lz77Enc ob) hnoOp s
  have hdec : exec (.lz77Dec ob) s = .next (complete .noOp s) := exec_noOp (i := .lz77Dec ob) hnoOp s
  refine ⟨henc, hdec, ?_, fun ob' => ⟨rfl, rfl⟩⟩
  rintro ⟨-, herr, -, hcode, -⟩ t ht
  rw [henc, hdec, or_self] at ht
  cases ht
  exact ⟨rfl, rfl, herr, hcode, rfl, rfl⟩

/-! ### What a command answers after the checks that touch no memory -/

/-- R110 step 3: a command whose regions fail a range check ends with that error. -/
theorem exec_rangeError {i : Instr} {s : State} {e : CmdError} (hn : isNoOp i = false) (hr : rangeError s.lat = some e) :
    exec i s = .next (complete (.err e 0) s) := by
  simp only [exec_run hn, runCommand, hr]

/-- R110 steps 4 to 7: a command with regions that fit, in normal memory, completes with the outcome of its transform. -/
theorem exec_transforms {i : Instr} {s : State} (hn : isNoOp i = false) (hfit : rangesFit s.lat)
    (hnormal : inNormalMemory s.platform s.lat) :
    exec i s = .next (complete (transformOutcome (transformOf i) s) s) := by
  have hdevice : regionOnDevice s.platform s.lat = false :=
    Bool.eq_false_iff.mpr fun hd => regionOnDevice_iff.mp hd hnormal
  rw [exec_run hn, runCommand, rangeError_none_iff.mpr hfit, hdevice]
  rfl

/-- R115: the record of a command that completes with an error. -/
theorem failedWith_complete (e : CmdError) (info : Word) (s : State) :
    failedWith (errorCode e) (errorDetail e) info s (complete (.err e info) s) :=
  ⟨rfl, rfl, rfl, rfl, rfl, rfl, rfl, rfl, rfl⟩

/-- A command whose transform's outcome is an error ends with that error's record. -/
theorem exec_failedWith {i : Instr} {s : State} {e : CmdError} {info : Word} (hn : isNoOp i = false)
    (hfit : rangesFit s.lat) (hnormal : inNormalMemory s.platform s.lat)
    (houtcome : transformOutcome (transformOf i) s = .err e info) :
    ∃ t, exec i s = .next t ∧ failedWith (errorCode e) (errorDetail e) info s t :=
  ⟨_, houtcome ▸ exec_transforms hn hfit hnormal, failedWith_complete e info s⟩

/-! ### The errors of the check order (R110 steps 4 to 7) -/

/-- R197: the fault of a range is its lowest failing address. -/
theorem firstBusFault_of_lowest {p : Platform} {k : AccessKind} {base n a : Nat} (hlow : base ≤ a) (hhigh : a < base + n)
    (hfail : memOk p k a = false) (hbelow : ∀ x, base ≤ x → x < a → memOk p k x = true) :
    firstBusFault p k base n = some a := by
  cases h : firstBusFault p k base n with
  | none =>
    have hok := firstBusFault_none.mp h (a - base) (by omega)
    rw [Nat.add_sub_cancel' hlow, hfail] at hok
    cases hok
  | some x =>
    obtain ⟨hx, -, hxfail, hxbelow⟩ := firstBusFault_some h
    obtain hlt | rfl | hgt := Nat.lt_trichotomy x a
    · exact absurd (hbelow x hx hlt) (Bool.eq_false_iff.mp hxfail)
    · rfl
    · exact absurd (hxbelow a hlow hgt) (Bool.eq_false_iff.mp hfail)

section CheckOrder
variable {F : List Byte → Transform} {s : State} {a : Nat} {e : CmdError} {info hinfo : Word} {out : List Byte}

/-- Step 4: a read that fails, whatever the transform. -/
theorem transformOutcome_readFault
    (h : firstBusFault s.platform .read s.lat.srcBase.toNat s.lat.srcLen.toNat = some a) :
    transformOutcome F s = .err .busError (BitVec.ofNat 32 a) := by
  simp only [transformOutcome, h]

/-- Step 5: a transform that fails, whatever the capacity. -/
theorem transformOutcome_error (hread : sourceReadable s.platform s.lat) (hF : F (sourceBytes s) = .error (e, info)) :
    transformOutcome F s = .err e info := by
  simp only [transformOutcome, firstBusFault_none.mpr hread, hF]

/-- Step 6: an output that does not fit, whatever the writes. -/
theorem transformOutcome_overflow (hread : sourceReadable s.platform s.lat) (hF : F (sourceBytes s) = .ok (out, hinfo))
    (hlong : s.lat.dstCap.toNat < out.length) : transformOutcome F s = .err .outOverflow (sat32 out.length) := by
  simp only [transformOutcome, firstBusFault_none.mpr hread, hF, hlong, if_true]

/-- Step 7: a write that fails, after every other check. -/
theorem transformOutcome_writeFault (hread : sourceReadable s.platform s.lat)
    (hF : F (sourceBytes s) = .ok (out, hinfo)) (hroom : out.length ≤ s.lat.dstCap.toNat)
    (h : firstBusFault s.platform .write s.lat.dstBase.toNat out.length = some a) :
    transformOutcome F s = .err .busError (BitVec.ofNat 32 a) := by
  simp only [transformOutcome, firstBusFault_none.mpr hread, hF, Nat.not_lt.mpr hroom, if_false, h]

/-- The errors of these steps: of an access, of the capacity, or the transform's own. -/
theorem transformOutcome_err (h : transformOutcome F s = .err e info) :
    e = .busError ∨ e = .outOverflow ∨ F (sourceBytes s) = .error (e, info) := by
  unfold transformOutcome at h
  split at h
  · cases h
    exact .inl rfl
  · split at h
    · rename_i hF
      cases h
      exact .inr (.inr hF)
    · split at h
      · cases h
        exact .inr (.inl rfl)
      · split at h <;> cases h
        exact .inl rfl

end CheckOrder

/-- R192, R193: every failure of a result function is a CORRUPT_STREAM. -/
theorem errorCode_of_transform {i : Instr} {B : List Byte} {e : CmdError} {info : Word}
    (h : transformOf i B = .error (e, info)) : errorCode e = 1 := by
  cases i with
  | huffEnc ob | lz77Enc ob => cases h
  | huffDec ob =>
    have hcorrupt : ∀ e ∈ [CmdError.hdrShort, .treeTrunc, .treeTooLarge, .codeTrunc, .singleLeafBit1],
        errorCode e = 1 := by decide
    exact hcorrupt e (huffDecode_error h)
  | lz77Dec ob =>
    have hcorrupt : ∀ e ∈ [CmdError.lenNotMult3, .offsetBeforeStart, .zeroOffsetCopy], errorCode e = 1 := by decide
    exact hcorrupt e (lz77Decode_error h)

/-! ### BAD_RANGE (O30) -/

section BadRange
variable {l : Latch}

theorem rangeError_srcWrap (h : 2 ^ 32 < l.srcBase.toNat + l.srcLen.toNat) : rangeError l = some .srcWrap := if_pos h

theorem rangeError_dstWrap (hsrc : l.srcBase.toNat + l.srcLen.toNat ≤ 2 ^ 32)
    (h : 2 ^ 32 < l.dstBase.toNat + l.dstCap.toNat) : rangeError l = some .dstWrap :=
  (if_neg (Nat.not_lt.mpr hsrc)).trans (if_pos h)

theorem rangeError_overlap (hsrc : l.srcBase.toNat + l.srcLen.toNat ≤ 2 ^ 32)
    (hdst : l.dstBase.toNat + l.dstCap.toNat ≤ 2 ^ 32)
    (h : rangesMeet l.srcBase.toNat l.srcLen.toNat l.dstBase.toNat l.dstCap.toNat = true) :
    rangeError l = some .overlap :=
  (if_neg (Nat.not_lt.mpr hsrc)).trans ((if_neg (Nat.not_lt.mpr hdst)).trans (if_pos h))

end BadRange

/-- With regions that fit no command reports BAD_RANGE: it succeeds, or ends in an error of a later step. -/
theorem errcode_ne_three_of_transformOutcome (i : Instr) (s : State) :
    (complete (transformOutcome (transformOf i) s) s).errcode ≠ 3 := by
  cases ho : transformOutcome (transformOf i) s with
  | ok out hinfo =>
    rw [complete_ok_errcode]
    decide
  | noOp => exact absurd ho (transformOutcome_ne_noOp _ s)
  | err e info =>
    rw [complete_err_errcode]
    obtain rfl | rfl | hF := transformOutcome_err ho
    · decide
    · decide
    · rw [errorCode_of_transform hF]
      decide

/-- Settles O30: each range check ends the command with its own error, which leaves memory; with regions that fit the command
is refused for its memory or ends in a later step. -/
theorem badRangeInOrder : Obligations.BadRangeInOrder := by
  intro i s hn
  refine ⟨fun hsrc => exec_rangeError hn (rangeError_srcWrap hsrc),
    fun hsrc hdst => exec_rangeError hn (rangeError_dstWrap hsrc hdst),
    fun hsrc hdst hslen hdcap hbelow habove => ?_, fun hfit hcode t ht => ?_⟩
  · exact exec_rangeError hn
      (rangeError_overlap hsrc hdst ((rangesMeet_eq_true_iff _ _ _ _).mpr ⟨hslen, hdcap, hbelow, habove⟩))
  · by_cases hnormal : inNormalMemory s.platform s.lat
    · cases (exec_transforms hn hfit hnormal).symm.trans ht
      exact errcode_ne_three_of_transformOutcome i s
    · cases (exec_refused ⟨hn, rangeError_none_iff.mpr hfit, regionOnDevice_iff.mpr hnormal⟩).symm.trans ht
      exact hcode

/-! ### BUS_ERROR (O31) -/

/-- Settles O31: the lowest failing address is the fault of the reads, and of the writes once the other checks have
passed. -/
theorem busErrorAtLowestAddress : Obligations.BusErrorAtLowestAddress := by
  intro i s a hn hfit hnormal
  refine ⟨fun hlow hhigh hfail hbelow => ?_, fun out hinfo hread hF hroom hlow hhigh hfail hbelow => ?_⟩
  · exact exec_failedWith hn hfit hnormal (transformOutcome_readFault (firstBusFault_of_lowest hlow hhigh hfail hbelow))
  · exact exec_failedWith hn hfit hnormal
      (transformOutcome_writeFault hread hF hroom (firstBusFault_of_lowest hlow hhigh hfail hbelow))

/-! ### CORRUPT_STREAM (O32) -/

/-- R193: the sub-reasons of CORRUPT_STREAM with their numbers. -/
theorem corruptStream_row {e : CmdError} (h : errorCode e = 1) :
    (e, errorDetail e) ∈ [(CmdError.hdrShort, 1#4), (.treeTrunc, 2#4), (.treeTooLarge, 3#4), (.codeTrunc, 4#4),
      (.singleLeafBit1, 5#4), (.lenNotMult3, 6#4), (.offsetBeforeStart, 7#4), (.zeroOffsetCopy, 8#4)] := by
  revert h
  cases e <;> decide

/-- Settles O32: a transform that fails is the outcome before the capacity is looked at, and its error is a row of R193. -/
theorem corruptStreamBeatsCapacity : Obligations.CorruptStreamBeatsCapacity := by
  intro i s e info hn hfit hnormal hread hF
  obtain ⟨t, ht, hfailed⟩ := exec_failedWith hn hfit hnormal (transformOutcome_error hread hF)
  have hcode := errorCode_of_transform hF
  exact ⟨t, errorDetail e, ht, hcode ▸ hfailed, corruptStream_row hcode⟩

/-! ### OUT_OVERFLOW (O33) -/

/-- Settles O33: an output that does not fit is the outcome before any write. -/
theorem overflowReportsNeededLength : Obligations.OverflowReportsNeededLength := by
  intro i s out hinfo hn hfit hnormal hread hF hlong
  exact exec_failedWith hn hfit hnormal (transformOutcome_overflow hread hF hlong)

end Sys2Proof.Proofs

/-! Proofs for 70_reset_and_hazards.md: the state right after reset (R215) with the invariants of a run, then the reset step
(R214): the registers, the refusal mark (R72) and the memory of an abandoned command (R217, R218). -/

namespace Sys2Proof.Proofs
open Sys2Proof.Machine

/-! ### Right after reset (O4, O39) -/

/-- Settles O4: each row of the reset table is evaluated at State.reset. -/
theorem resetValues : Obligations.ResetValues := by
  unfold Obligations.ResetValues
  decide

theorem memory_wf_nil : Memory.wf [] := ⟨.nil, fun _ hc => absurd hc List.not_mem_nil⟩

/-- Settles O39: nothing is listed in memory, the record is that of any state a reset has left, and HUFF_INFO is 0. -/
theorem resetMeetsTheInvariants : Obligations.ResetMeetsTheInvariants :=
  ⟨⟨memory_wf_nil, recordInv_resetBlock State.reset⟩, .inl rfl⟩

/-! ### The reset step (O5) -/

/-- R214, R72: the reset step is the reset of the block, with the mark set where the abandoned command ran on device
memory. -/
theorem resetStep_eq (s : State) :
    resetStep s =
      { resetBlock s with refusal := if runsOnDevice s then some .regionOnDevice else s.refusal } := by
  obtain ⟨hd, heq⟩ | ⟨hd, heq⟩ := resetStep_cases s <;> rw [heq, hd] <;> rfl

@[simp] theorem resetStep_lat (s : State) : (resetStep s).lat = State.reset.lat := by rw [resetStep_eq]; rfl

@[simp] theorem resetStep_busy (s : State) : (resetStep s).busy = false := by rw [resetStep_eq]; rfl

@[simp] theorem irq_resetStep (s : State) : irq (resetStep s) = false := by rw [resetStep_eq]; rfl

@[simp] theorem resetStep_platform (s : State) : (resetStep s).platform = s.platform := by rw [resetStep_eq]; rfl

@[simp] theorem resetStep_mem (s : State) : (resetStep s).mem = (resetBlock s).mem := by rw [resetStep_eq]

theorem resetStep_refusal (s : State) :
    (resetStep s).refusal = if runsOnDevice s then some .regionOnDevice else s.refusal := by rw [resetStep_eq]

theorem csrValue_resetStep (c : Csr) (s : State) : csrValue c (resetStep s) = csrValue c State.reset := by
  rw [resetStep_eq]
  cases c <;> rfl

/-- R218: with no command running, a reset leaves memory as it was. -/
theorem resetBlock_mem_of_idle {s : State} (hb : s.busy = false) : (resetBlock s).mem = s.mem := by
  rw [resetBlock_mem, hb]
  rfl

theorem resetBlock_mem_of_busy {s : State} (hb : s.busy = true) : (resetBlock s).mem = freeDst s.lat s.draws s.mem := by
  rw [resetBlock_mem, if_pos hb]

/-- R217: a byte outside the DST region, or in the SRC region, is the same after a reset, at any time. -/
theorem memByte_resetBlock_kept {s : State} {a : Nat} (ha : inDst s.lat a = false ∨ inSrc s.lat a = true) :
    memByte (resetBlock s).mem a = memByte s.mem a := by
  cases hb : s.busy with
  | false => rw [resetBlock_mem_of_idle hb]
  | true =>
    rw [resetBlock_mem_of_busy hb]
    obtain hout | hsrc := ha
    · exact memByte_freeDst_outside _ _ _ _ hout
    · exact memByte_freeDst_src _ _ _ _ hsrc

/-- R217: a DST byte of the abandoned command that lies in the address space and is no SRC byte is a free draw. -/
theorem memByte_resetBlock_dst {s : State} {j : Nat} (hb : s.busy = true) (hcap : j < s.lat.dstCap.toNat)
    (htop : s.lat.dstBase.toNat + j < 2 ^ 32) (hsrc : inSrc s.lat (s.lat.dstBase.toNat + j) = false) :
    memByte (resetBlock s).mem (s.lat.dstBase.toNat + j) = Config.freeByte (s.draws + j) := by
  have hspan : j < dstSpan s.lat := lt_min hcap (Nat.lt_sub_iff_add_lt'.mpr htop)
  rw [resetBlock_mem_of_busy hb]
  exact memByte_freeDst_dst _ _ _ j hspan hsrc

/-- Settles O5: the registers, the latch and the platform are what `resetStep_eq` gives; the mark is set for a command on
device memory alone; an idle block keeps its memory, and a running command's DST region is drawn free beside its SRC bytes. -/
theorem resetAbandonsTheCommand : Obligations.ResetAbandonsTheCommand := by
  intro s
  refine ⟨resetStep s, rfl, fun c => csrValue_resetStep c s, resetStep_lat s, resetStep_busy s, irq_resetStep s,
    resetStep_platform s, fun hd => ?_, fun hd => ?_, fun hb a => ?_, fun a ha => ?_, fun hb j hcap htop hsrc => ?_⟩
  · rw [resetStep_refusal, if_neg (mt runsOnDevice_iff.mp hd)]
  · rw [resetStep_refusal, if_pos (runsOnDevice_iff.mpr hd)]
  · rw [resetStep_mem, resetBlock_mem_of_idle hb]
  · rw [resetStep_mem, memByte_resetBlock_kept ha]
  · rw [resetStep_mem, memByte_resetBlock_dst hb hcap htop hsrc]

end Sys2Proof.Proofs
